-- ==== Sys2Proof/Word.lean ====
section
/-! DEFINITION. The word types of the machine: bytes, CPU addresses, the 15-bit scroll registers and the
14-bit PPU bus addresses (00_scope.md rules R6, R10). Slicing and joining stand in Machine/Bits.lean. -/

namespace Sys2Proof

/-- A byte: 8 bits, bit 7 the most significant (R10). -/
abbrev Byte := BitVec 8

/-- A 16-bit CPU address or program counter value (R6). -/
abbrev Word := BitVec 16

/-- A value of the PPU's `v` or `t`: 15 bits (R6, R26). -/
abbrev Scroll := BitVec 15

/-- A PPU bus address: 14 bits (R45). -/
abbrev PpuAddr := BitVec 14

end Sys2Proof
end

