-- ==== Sys2Proof/Machine/Bits.lean ====
section
/-! DEFINITION. Bit-field, byte-order and sign-extension helpers over the words of the machine
(00_scope.md rule R10). -/

namespace Sys2Proof

/-- `lo(w)`: bits 7 to 0 of a 16-bit value. -/
def loByte (w : Word) : Byte := w.extractLsb' 0 8

/-- `hi(w)`: bits 15 to 8 of a 16-bit value. -/
def hiByte (w : Word) : Byte := w.extractLsb' 8 8

/-- `lo | (hi << 8)`: the 16-bit value with these two bytes; the machine is little-endian (rule R50). -/
def joinBytes (hi lo : Byte) : Word := hi ++ lo

/-- `zext_16(b)`. -/
def zext16 (b : Byte) : Word := b.setWidth 16

/-- `sext_8(b)` as a 16-bit value: adding it modulo 65536 adds the signed number. -/
def sext16 (b : Byte) : Word := b.signExtend 16

/-- The bits of `x` from `lo` up are replaced by the `k` bits of `f`: `x[lo+k-1:lo] <- f`. -/
def putField {k n : Nat} (lo : Nat) (f : BitVec k) (x : BitVec n) : BitVec n :=
  (x &&& ~~~((BitVec.allOnes k).setWidth n <<< lo)) ||| (f.setWidth n <<< lo)

/-- `x[lo+k-1:lo]`. -/
def field {n : Nat} (lo k : Nat) (x : BitVec n) : BitVec k := x.extractLsb' lo k

/-- Bit `i` of a byte becomes `b`: `x[i] <- b`. -/
def putBit {n : Nat} (i : Nat) (b : Bool) (x : BitVec n) : BitVec n := putField i (BitVec.ofBool b) x

/-- The bits of a byte in the opposite order (horizontal flip of a pattern row, rule R169). -/
def bitReverse (b : Byte) : Byte := b.reverse

/-- A flag as the number 0 or 1. -/
def bit (b : Bool) : Nat := if b then 1 else 0

end Sys2Proof
end

