-- ==== Sys2Proof/Machine/Flags.lean ====
section
/-! DEFINITION. The status byte `P` (10_state.md rules R17, R18) and every flag computation of the
instruction set. -/

namespace Sys2Proof.Machine

/-- `P.N`, bit 7 -/
def flagN (p : Byte) : Bool := p.getLsbD 7
/-- `P.V`, bit 6 -/
def flagV (p : Byte) : Bool := p.getLsbD 6
/-- `P.B`, bit 4 -/
def flagB (p : Byte) : Bool := p.getLsbD 4
/-- `P.D`, bit 3 -/
def flagD (p : Byte) : Bool := p.getLsbD 3
/-- `P.I`, bit 2 -/
def flagI (p : Byte) : Bool := p.getLsbD 2
/-- `P.Z`, bit 1 -/
def flagZ (p : Byte) : Bool := p.getLsbD 1
/-- `P.C`, bit 0 -/
def flagC (p : Byte) : Bool := p.getLsbD 0

/-- `P.N <- b` -/
def withN (b : Bool) (p : Byte) : Byte := putBit 7 b p
/-- `P.V <- b` -/
def withV (b : Bool) (p : Byte) : Byte := putBit 6 b p
/-- `P.D <- b` -/
def withD (b : Bool) (p : Byte) : Byte := putBit 3 b p
/-- `P.I <- b` -/
def withI (b : Bool) (p : Byte) : Byte := putBit 2 b p
/-- `P.Z <- b` -/
def withZ (b : Bool) (p : Byte) : Byte := putBit 1 b p
/-- `P.C <- b` -/
def withC (b : Bool) (p : Byte) : Byte := putBit 0 b p

/-- `SetNZ(r)` (rule R11). -/
def withNZ (r : Byte) (p : Byte) : Byte := withN (r.getLsbD 7) (withZ (r == 0) p)

/-! ## Addition and subtraction (rules R105, R106) -/

/-- `sum <- A + m + P.C`, a natural number from 0 to 511. -/
def addSum (a m : Byte) (c : Bool) : Nat := a.toNat + m.toNat + bit c

/-- `r <- sum mod 256`. -/
def addResult (a m : Byte) (c : Bool) : Byte := BitVec.ofNat 8 (addSum a m c)

/-- `P.C <- (sum >= 256)`. -/
def addCarry (a m : Byte) (c : Bool) : Bool := decide (256 ≤ addSum a m c)

/-- `P.V <- ((A ^ r) & (m ^ r) & $80) != 0`. -/
def addOverflow (a m : Byte) (c : Bool) : Bool :=
  (((a ^^^ addResult a m c) &&& (m ^^^ addResult a m c)) &&& 0x80) != 0

/-- The flags after ADC: C, V, then N and Z from the result. D is not read. -/
def addFlags (a m : Byte) (p : Byte) : Byte :=
  withNZ (addResult a m (flagC p)) (withV (addOverflow a m (flagC p)) (withC (addCarry a m (flagC p)) p))

/-- `n <- m ^ $FF`: SBC is ADC of the one's complement. -/
def complement (m : Byte) : Byte := m ^^^ 0xFF

/-! ## Compare and bit test (rules R107 to R110) -/

/-- The flags after CMP, CPX, CPY of register `r` with `m`: C is the unsigned `r >= m`, Z is `r == m`, N is
bit 7 of `(r - m) mod 256`. -/
def compareFlags (r m : Byte) (p : Byte) : Byte :=
  withN ((r - m).getLsbD 7) (withZ (r == m) (withC (decide (m.toNat ≤ r.toNat)) p))

/-- The flags after BIT: Z from `A & m`, N and V from bits 7 and 6 of `m`. -/
def bitFlags (a m : Byte) (p : Byte) : Byte :=
  withV (m.getLsbD 6) (withN (m.getLsbD 7) (withZ ((a &&& m) == 0) p))

/-! ## Shifts and rotates (rules R112 to R115): the result, and the flags after the operand `m` -/

/-- `(m << 1) mod 256` -/
def aslResult (m : Byte) : Byte := m <<< 1
/-- `m >> 1` -/
def lsrResult (m : Byte) : Byte := m >>> 1
/-- `((m << 1) | P.C) mod 256` -/
def rolResult (c : Bool) (m : Byte) : Byte := (m <<< 1) ||| (BitVec.ofBool c).setWidth 8
/-- `(m >> 1) | (P.C << 7)` -/
def rorResult (c : Bool) (m : Byte) : Byte := (m >>> 1) ||| ((BitVec.ofBool c).setWidth 8 <<< 7)

/-- The flags after a shift with carry out `c` and result `r`: `P.C <- c; SetNZ(r)`. -/
def shiftFlags (c : Bool) (r : Byte) (p : Byte) : Byte := withNZ r (withC c p)

/-! ## The status byte on the stack (rules R18, R98, R100, R143, R144, R190) -/

/-- What PHP and BRK push: `P | $30`. -/
def pushedByProgram (p : Byte) : Byte := p ||| 0x30

/-- What NMI and IRQ entry push: `(P & $EF) | $20`. -/
def pushedByInterrupt (p : Byte) : Byte := (p &&& 0xEF) ||| 0x20

/-- What PLP and RTI leave of the pulled byte `m`: `(m & $CF) | (P & $30)`. -/
def pulledStatus (m : Byte) (p : Byte) : Byte := (m &&& 0xCF) ||| (p &&& 0x30)

end Sys2Proof.Machine
end

