-- ==== Sys2Proof/Config.lean ====
section
/-! DEFINITION. What one cartridge and one implementation fix: the named parameters of 00_scope.md rule R7
that hold one value each, and the one value the spec leaves without a statement. The parameters that are
memory contents (`PRG`, `CHR`, `RAM_INIT`, …) are memories of the state (Machine/State.lean) and arguments
of power-on (Machine/Reset.lean). -/

namespace Sys2Proof

/-- `MIRRORING`: which two nametables share one KiB of VRAM (20_memory.md rule R48). -/
inductive Mirroring where
  | horizontal
  | vertical
  deriving DecidableEq, Repr

/-- How many 16384-byte banks `PRG` has (20_memory.md rule R44: one or two). -/
inductive PrgBanks where
  | one
  | two
  deriving DecidableEq, Repr

/-- The one-value parameters of 00_scope.md rule R7. They stand in the state so that a statement about
every state holds for every value of them; no step changes them. -/
structure Params where
  /-- `OPEN_BUS`: what a CPU read that reaches no device returns (92_eei_decisions.md D2). -/
  openBus : Byte
  /-- `MAPPER_ID`: 0 is the fixed mapping; the step refuses any other (rule R43). -/
  mapperId : Nat
  /-- `MIRRORING` (rule R48). -/
  mirroring : Mirroring
  /-- The number of banks of `PRG` (rule R44). -/
  prgBanks : PrgBanks
  /-- `PRG_RAM`: whether 8192 bytes of RAM answer at CPU $6000 to $7FFF (rule R44). -/
  hasPrgRam : Bool
  /-- `CHR_WRITABLE`: whether PPU writes to $0000 to $1FFF are stored (rule R47). -/
  chrWritable : Bool
  /-- `RESET_A` (D5). -/
  resetA : Byte
  /-- `RESET_X` (D5). -/
  resetX : Byte
  /-- `RESET_Y` (D5). -/
  resetY : Byte
  deriving DecidableEq, Repr

/-- The defaults of rule R7. `MIRRORING` and the number of banks have none there ("none, required");
horizontal is what the spec's test vectors use and two banks what its programs use. DESIGN CHOICE, log entry 3. -/
def Params.default : Params where
  openBus := 0x00
  mapperId := 0
  mirroring := .horizontal
  prgBanks := .two
  hasPrgRam := false
  chrWritable := false
  resetA := 0x00
  resetX := 0x00
  resetY := 0x00

namespace Config

/-- A FREE VALUE. The pattern row of a sprite for which a subtraction of 48_ppu_frame_machine.md rule R169
has no natural-number result (the sprite height was changed between the evaluation and
the fetch, or a harness wrote the fields): arguments `H`, the scanline, the sprite's Y. DESIGN CHOICE, log entry 6. -/
opaque freeSpriteRow : Nat → Nat → Nat → Nat

end Config

end Sys2Proof
end

