-- ==== Sys2Proof/Syntax.lean ====
section
/-! DEFINITION. The instructions of the machine as syntax. Every mnemonic of spec/opcode_table.json is one
constructor; a row of the table is a constructor at the operand form of the row's addressing mode
(30_encoding.md rules R61, R63 to R75, R77). The 105 rows named UNDEFINED are the constructor `undefined`
with the opcode byte. Which forms an instruction has is WellFormed.lean's. -/

namespace Sys2Proof

/-- The addressing modes that name a byte of memory (30_encoding.md rules R66 to R71, R73, R74). -/
inductive Addr where
  /-- zero page, R66 -/
  | zp (b : Byte)
  /-- zero page,X, R67 -/
  | zpx (b : Byte)
  /-- zero page,Y, R68 -/
  | zpy (b : Byte)
  /-- absolute, R69 -/
  | abs (w : Word)
  /-- absolute,X, R70 -/
  | abx (w : Word)
  /-- absolute,Y, R71 -/
  | aby (w : Word)
  /-- (indirect,X), R73 -/
  | izx (b : Byte)
  /-- (indirect),Y, R74 -/
  | izy (b : Byte)
  deriving DecidableEq, Repr

/-- The operand of an instruction that only reads it (R65, R83). -/
inductive Src where
  /-- immediate, R65 -/
  | imm (b : Byte)
  /-- the byte at an effective address -/
  | mem (m : Addr)
  deriving DecidableEq, Repr

/-- The operand of a shift or rotate: read, then written (R64, R83). -/
inductive Dst where
  /-- accumulator, R64 -/
  | acc
  /-- the byte at an effective address -/
  | mem (m : Addr)
  deriving DecidableEq, Repr

/-- The target of JMP (R69, R72). -/
inductive Target where
  /-- absolute, R69 -/
  | abs (w : Word)
  /-- indirect, R72 -/
  | ind (w : Word)
  deriving DecidableEq, Repr

/-- The instructions: the 56 mnemonics of the defined rows, and `undefined` for the 105 other opcode bytes. -/
inductive Instr where
  -- 40_load_store_transfer.md
  | lda (src : Src)
  | ldx (src : Src)
  | ldy (src : Src)
  | sta (m : Addr)
  | stx (m : Addr)
  | sty (m : Addr)
  | tax
  | tay
  | txa
  | tya
  | tsx
  | txs
  -- 41_stack.md
  | pha
  | php
  | pla
  | plp
  -- 42_logic_arith_compare.md
  | ora (src : Src)
  | and (src : Src)
  | eor (src : Src)
  | adc (src : Src)
  | sbc (src : Src)
  | cmp (src : Src)
  | cpx (src : Src)
  | cpy (src : Src)
  | bit (m : Addr)
  -- 43_shift_rotate_incdec.md
  | asl (d : Dst)
  | lsr (d : Dst)
  | rol (d : Dst)
  | ror (d : Dst)
  | inc (m : Addr)
  | dec (m : Addr)
  | inx
  | iny
  | dex
  | dey
  -- 44_jump_branch_subroutine.md
  | jmp (target : Target)
  | jsr (w : Word)
  | rts
  | bpl (off : Byte)
  | bmi (off : Byte)
  | bvc (off : Byte)
  | bvs (off : Byte)
  | bcc (off : Byte)
  | bcs (off : Byte)
  | bne (off : Byte)
  | beq (off : Byte)
  -- 45_flag_nop_system.md
  | clc
  | sec
  | cli
  | sei
  | clv
  | cld
  | sed
  | nop
  | brk
  | rti
  -- 46_undefined_opcodes.md
  | undefined (op : Byte)
  deriving DecidableEq, Repr

end Sys2Proof
end

