-- ==== Sys2Proof/WellFormed.lean ====
section
/-! DEFINITION. Which terms of Syntax.lean are instructions of the machine: the addressing modes each
mnemonic has in the opcode map (30_encoding.md rule R77, the tables of files 40 to 46), and the 105 opcode
bytes that are undefined (rule R78). Operand bytes are unrestricted (rule R79). -/

namespace Sys2Proof

/-- The modes of ORA AND EOR ADC SBC LDA CMP and, without the immediate, STA: every one but zero page,Y. -/
def Addr.isAccumulatorMode : Addr → Bool
  | .zpy _ => false
  | _ => true

/-- The modes of the shifts, INC and DEC: zero page, zero page,X, absolute, absolute,X. -/
def Addr.isModifyMode : Addr → Bool
  | .zp _ | .zpx _ | .abs _ | .abx _ => true
  | _ => false

/-- The modes of CPX, CPY and BIT: zero page and absolute. -/
def Addr.isPlain : Addr → Bool
  | .zp _ | .abs _ => true
  | _ => false

/-- The memory modes of LDX (R85). -/
def Addr.isLdxMode : Addr → Bool
  | .zp _ | .zpy _ | .abs _ | .aby _ => true
  | _ => false

/-- The memory modes of LDY (R86). -/
def Addr.isLdyMode : Addr → Bool
  | .zp _ | .zpx _ | .abs _ | .abx _ => true
  | _ => false

/-- The modes of STX (R88). -/
def Addr.isStxMode : Addr → Bool
  | .zp _ | .zpy _ | .abs _ => true
  | _ => false

/-- The modes of STY (R89). -/
def Addr.isStyMode : Addr → Bool
  | .zp _ | .zpx _ | .abs _ => true
  | _ => false

/-- A read operand is immediate or one of the given memory modes. -/
def Src.allowed (ok : Addr → Bool) : Src → Bool
  | .imm _ => true
  | .mem m => ok m

/-- A shift's operand is the accumulator or one of the given memory modes. -/
def Dst.allowed (ok : Addr → Bool) : Dst → Bool
  | .acc => true
  | .mem m => ok m

/-- The 105 opcode bytes with "no defined mapping", as rule R78 lists them. -/
def undefinedOpcodes : List Byte :=
  [0x02, 0x03, 0x04, 0x07, 0x0B, 0x0C, 0x0F, 0x12, 0x13, 0x14, 0x17, 0x1A, 0x1B, 0x1C, 0x1F] ++
  [0x22, 0x23, 0x27, 0x2B, 0x2F, 0x32, 0x33, 0x34, 0x37, 0x3A, 0x3B, 0x3C, 0x3F, 0x42, 0x43] ++
  [0x44, 0x47, 0x4B, 0x4F, 0x52, 0x53, 0x54, 0x57, 0x5A, 0x5B, 0x5C, 0x5F, 0x62, 0x63, 0x64] ++
  [0x67, 0x6B, 0x6F, 0x72, 0x73, 0x74, 0x77, 0x7A, 0x7B, 0x7C, 0x7F, 0x80, 0x82, 0x83, 0x87] ++
  [0x89, 0x8B, 0x8F, 0x92, 0x93, 0x97, 0x9B, 0x9C, 0x9E, 0x9F, 0xA3, 0xA7, 0xAB, 0xAF, 0xB2] ++
  [0xB3, 0xB7, 0xBB, 0xBF, 0xC2, 0xC3, 0xC7, 0xCB, 0xCF, 0xD2, 0xD3, 0xD4, 0xD7, 0xDA, 0xDB] ++
  [0xDC, 0xDF, 0xE2, 0xE3, 0xE7, 0xEB, 0xEF, 0xF2, 0xF3, 0xF4, 0xF7, 0xFA, 0xFB, 0xFC, 0xFF]

/-- The term is an instruction of the machine: the opcode map has a row for it. -/
def Instr.wellFormed : Instr → Bool
  | .lda s | .ora s | .and s | .eor s | .adc s | .sbc s | .cmp s => s.allowed Addr.isAccumulatorMode
  | .ldx s => s.allowed Addr.isLdxMode
  | .ldy s => s.allowed Addr.isLdyMode
  | .cpx s | .cpy s => s.allowed Addr.isPlain
  | .sta m => m.isAccumulatorMode
  | .stx m => m.isStxMode
  | .sty m => m.isStyMode
  | .bit m => m.isPlain
  | .asl d | .lsr d | .rol d | .ror d => d.allowed Addr.isModifyMode
  | .inc m | .dec m => m.isModifyMode
  | .undefined op => undefinedOpcodes.contains op
  | .tax | .tay | .txa | .tya | .tsx | .txs | .pha | .php | .pla | .plp => true
  | .inx | .iny | .dex | .dey | .jmp _ | .jsr _ | .rts => true
  | .bpl _ | .bmi _ | .bvc _ | .bvs _ | .bcc _ | .bcs _ | .bne _ | .beq _ => true
  | .clc | .sec | .cli | .sei | .clv | .cld | .sed | .nop | .brk | .rti => true

/-- An instruction of the machine. -/
abbrev Instr.WellFormed (i : Instr) : Prop := i.wellFormed = true

end Sys2Proof
end

