-- ==== Sys2Proof/Decode.lean ====
section
/-! DEFINITION. Decoding and encoding. The decoder is the 256-entry map of 30_encoding.md rule R77, written
row by row as the rule writes it (row = high nibble, column = low nibble); the encoder is written from the
per-instruction tables of files 40 to 46, which give the same rows a second time. -/

namespace Sys2Proof

/-- Why a byte sequence is not an instruction. Every opcode byte has an entry in the map (rule R77), so the
only way to fail is to be cut short. -/
inductive DecodeError where
  /-- there is no opcode byte -/
  | noOpcode
  /-- the operand bytes of this opcode are missing -/
  | truncated (op : Byte)
  deriving DecidableEq, Repr

/-! ## The opcode map (rule R77) -/

namespace OpMap

/-- A cell of the map: the instruction it stands for, given the opcode byte and the two bytes after it
(a cell of a shorter format does not look at the bytes it does not have). -/
abbrev Cell := Byte → Byte → Byte → Instr

/-- The addressing modes as they build an address from the operand bytes (rules R66 to R74). -/
abbrev Mode := Byte → Byte → Addr

/-- zero page -/
def zp : Mode := fun b1 _ => .zp b1
/-- zero page,X -/
def zpx : Mode := fun b1 _ => .zpx b1
/-- zero page,Y -/
def zpy : Mode := fun b1 _ => .zpy b1
/-- absolute -/
def ab : Mode := fun b1 b2 => .abs (joinBytes b2 b1)
/-- absolute,X -/
def abx : Mode := fun b1 b2 => .abx (joinBytes b2 b1)
/-- absolute,Y -/
def aby : Mode := fun b1 b2 => .aby (joinBytes b2 b1)
/-- (indirect,X) -/
def izx : Mode := fun b1 _ => .izx b1
/-- (indirect),Y -/
def izy : Mode := fun b1 _ => .izy b1

/-- implied (R63) -/
def imp (i : Instr) : Cell := fun _ _ _ => i
/-- accumulator (R64) -/
def acc (f : Dst → Instr) : Cell := fun _ _ _ => f .acc
/-- immediate (R65) -/
def im (f : Src → Instr) : Cell := fun _ b1 _ => f (.imm b1)
/-- a read operand in memory -/
def rd (m : Mode) (f : Src → Instr) : Cell := fun _ b1 b2 => f (.mem (m b1 b2))
/-- an operand of a shift or rotate in memory -/
def md (m : Mode) (f : Dst → Instr) : Cell := fun _ b1 b2 => f (.mem (m b1 b2))
/-- an operand that is always in memory -/
def ea (m : Mode) (f : Addr → Instr) : Cell := fun _ b1 b2 => f (m b1 b2)
/-- relative (R75) -/
def rel (f : Byte → Instr) : Cell := fun _ b1 _ => f b1
/-- JMP absolute (R69) -/
def jabs : Cell := fun _ b1 b2 => .jmp (.abs (joinBytes b2 b1))
/-- JMP indirect (R72) -/
def jind : Cell := fun _ b1 b2 => .jmp (.ind (joinBytes b2 b1))
/-- JSR (R69) -/
def sub : Cell := fun _ b1 b2 => .jsr (joinBytes b2 b1)
/-- a cell marked `--`: an undefined opcode (R78) -/
def und : Cell := fun op _ _ => .undefined op

/-- Row 0x of the map of rule R77. -/
def mapRow0 : List Cell :=
  [imp .brk, rd izx .ora, und, und, und, rd zp .ora, md zp .asl, und] ++
  [imp .php, im .ora, acc .asl, und, und, rd ab .ora, md ab .asl, und]

/-- Row 1x of the map of rule R77. -/
def mapRow1 : List Cell :=
  [rel .bpl, rd izy .ora, und, und, und, rd zpx .ora, md zpx .asl, und] ++
  [imp .clc, rd aby .ora, und, und, und, rd abx .ora, md abx .asl, und]

/-- Row 2x of the map of rule R77. -/
def mapRow2 : List Cell :=
  [sub, rd izx .and, und, und, ea zp .bit, rd zp .and, md zp .rol, und] ++
  [imp .plp, im .and, acc .rol, und, ea ab .bit, rd ab .and, md ab .rol, und]

/-- Row 3x of the map of rule R77. -/
def mapRow3 : List Cell :=
  [rel .bmi, rd izy .and, und, und, und, rd zpx .and, md zpx .rol, und] ++
  [imp .sec, rd aby .and, und, und, und, rd abx .and, md abx .rol, und]

/-- Row 4x of the map of rule R77. -/
def mapRow4 : List Cell :=
  [imp .rti, rd izx .eor, und, und, und, rd zp .eor, md zp .lsr, und] ++
  [imp .pha, im .eor, acc .lsr, und, jabs, rd ab .eor, md ab .lsr, und]

/-- Row 5x of the map of rule R77. -/
def mapRow5 : List Cell :=
  [rel .bvc, rd izy .eor, und, und, und, rd zpx .eor, md zpx .lsr, und] ++
  [imp .cli, rd aby .eor, und, und, und, rd abx .eor, md abx .lsr, und]

/-- Row 6x of the map of rule R77. -/
def mapRow6 : List Cell :=
  [imp .rts, rd izx .adc, und, und, und, rd zp .adc, md zp .ror, und] ++
  [imp .pla, im .adc, acc .ror, und, jind, rd ab .adc, md ab .ror, und]

/-- Row 7x of the map of rule R77. -/
def mapRow7 : List Cell :=
  [rel .bvs, rd izy .adc, und, und, und, rd zpx .adc, md zpx .ror, und] ++
  [imp .sei, rd aby .adc, und, und, und, rd abx .adc, md abx .ror, und]

/-- Row 8x of the map of rule R77. -/
def mapRow8 : List Cell :=
  [und, ea izx .sta, und, und, ea zp .sty, ea zp .sta, ea zp .stx, und] ++
  [imp .dey, und, imp .txa, und, ea ab .sty, ea ab .sta, ea ab .stx, und]

/-- Row 9x of the map of rule R77. -/
def mapRow9 : List Cell :=
  [rel .bcc, ea izy .sta, und, und, ea zpx .sty, ea zpx .sta, ea zpy .stx, und] ++
  [imp .tya, ea aby .sta, imp .txs, und, und, ea abx .sta, und, und]

/-- Row Ax of the map of rule R77. -/
def mapRowA : List Cell :=
  [im .ldy, rd izx .lda, im .ldx, und, rd zp .ldy, rd zp .lda, rd zp .ldx, und] ++
  [imp .tay, im .lda, imp .tax, und, rd ab .ldy, rd ab .lda, rd ab .ldx, und]

/-- Row Bx of the map of rule R77. -/
def mapRowB : List Cell :=
  [rel .bcs, rd izy .lda, und, und, rd zpx .ldy, rd zpx .lda, rd zpy .ldx, und] ++
  [imp .clv, rd aby .lda, imp .tsx, und, rd abx .ldy, rd abx .lda, rd aby .ldx, und]

/-- Row Cx of the map of rule R77. -/
def mapRowC : List Cell :=
  [im .cpy, rd izx .cmp, und, und, rd zp .cpy, rd zp .cmp, ea zp .dec, und] ++
  [imp .iny, im .cmp, imp .dex, und, rd ab .cpy, rd ab .cmp, ea ab .dec, und]

/-- Row Dx of the map of rule R77. -/
def mapRowD : List Cell :=
  [rel .bne, rd izy .cmp, und, und, und, rd zpx .cmp, ea zpx .dec, und] ++
  [imp .cld, rd aby .cmp, und, und, und, rd abx .cmp, ea abx .dec, und]

/-- Row Ex of the map of rule R77. -/
def mapRowE : List Cell :=
  [im .cpx, rd izx .sbc, und, und, rd zp .cpx, rd zp .sbc, ea zp .inc, und] ++
  [imp .inx, im .sbc, imp .nop, und, rd ab .cpx, rd ab .sbc, ea ab .inc, und]

/-- Row Fx of the map of rule R77. -/
def mapRowF : List Cell :=
  [rel .beq, rd izy .sbc, und, und, und, rd zpx .sbc, ea zpx .inc, und] ++
  [imp .sed, rd aby .sbc, und, und, und, rd abx .sbc, ea abx .inc, und]

/-- The map: sixteen rows of sixteen cells. -/
def opcodeMap : List (List Cell) :=
  [mapRow0, mapRow1, mapRow2, mapRow3, mapRow4, mapRow5, mapRow6, mapRow7] ++
  [mapRow8, mapRow9, mapRowA, mapRowB, mapRowC, mapRowD, mapRowE, mapRowF]

end OpMap

/-- The instruction with opcode byte `op`, given the two bytes after it. -/
def decodeBytes (op b1 b2 : Byte) : Instr :=
  ((OpMap.opcodeMap.getD (field 4 4 op).toNat []).getD (field 0 4 op).toNat OpMap.und) op b1 b2

/-! ## Lengths (rule R61) -/

/-- The operand bytes a memory mode has. -/
def Addr.operandBytes : Addr → Nat
  | .zp _ | .zpx _ | .zpy _ | .izx _ | .izy _ => 1
  | .abs _ | .abx _ | .aby _ => 2

/-- The operand bytes of a read operand. -/
def Src.operandBytes : Src → Nat
  | .imm _ => 1
  | .mem m => m.operandBytes

/-- The operand bytes of a shift's operand. -/
def Dst.operandBytes : Dst → Nat
  | .acc => 0
  | .mem m => m.operandBytes

/-- How many bytes follow the opcode byte: a function of the addressing mode (rule R61). BRK has none
(rule R79); an undefined opcode has none (rule R145). -/
def Instr.operandBytes : Instr → Nat
  | .lda s | .ldx s | .ldy s | .ora s | .and s | .eor s | .adc s | .sbc s => s.operandBytes
  | .cmp s | .cpx s | .cpy s => s.operandBytes
  | .sta m | .stx m | .sty m | .bit m | .inc m | .dec m => m.operandBytes
  | .asl d | .lsr d | .rol d | .ror d => d.operandBytes
  | .jmp _ | .jsr _ => 2
  | .bpl _ | .bmi _ | .bvc _ | .bvs _ | .bcc _ | .bcs _ | .bne _ | .beq _ => 1
  | .tax | .tay | .txa | .tya | .tsx | .txs | .pha | .php | .pla | .plp => 0
  | .inx | .iny | .dex | .dey | .rts => 0
  | .clc | .sec | .cli | .sei | .clv | .cld | .sed | .nop | .brk | .rti => 0
  | .undefined _ => 0

/-- The length of an instruction in bytes: 1, 2 or 3. -/
def Instr.length (i : Instr) : Nat := 1 + i.operandBytes

/-- The operand bytes an opcode byte asks for: "the opcode byte alone selects … the length" (rule R61). -/
def operandCount (op : Byte) : Nat := (decodeBytes op 0 0).operandBytes

/-! ## The decoder -/

/-- The instruction at the head of a byte sequence and the bytes after it. -/
def decode : List Byte → Except DecodeError (Instr × List Byte)
  | [] => .error .noOpcode
  | op :: rest =>
    match operandCount op, rest with
    | 0, rest => .ok (decodeBytes op 0 0, rest)
    | 1, b1 :: rest => .ok (decodeBytes op b1 0, rest)
    | 2, b1 :: b2 :: rest => .ok (decodeBytes op b1 b2, rest)
    | _, _ => .error (.truncated op)

/-- The bytes of a word laid out as the hardware stores them: the first byte is bits 7 to 0 (the opcode at
the lowest address, then the operand low byte, then the high byte, rules R50 and R61). `nbits` of the word
count; the bits above are 0. Three bytes are the longest instruction. -/
def wordBytes (nbits w : Nat) : List Byte :=
  let x := w % 2 ^ nbits
  [BitVec.ofNat 8 x, BitVec.ofNat 8 (x / 256), BitVec.ofNat 8 (x / 65536)]

/-- The instruction the decoder reads from an instruction whose bits are `w`, numbered as
spec/opcode_table.json numbers them. -/
def decodeTableWord (nbits w : Nat) : Option Instr :=
  match decode (wordBytes nbits w) with
  | .ok (i, _) => some i
  | .error _ => none

/-! ## The encoder (the tables of files 40 to 46) -/

/-- The opcode bytes of the instructions with the eight accumulator modes (R84, R102 to R107), in the order
immediate, zero page, zero page,X, absolute, absolute,X, absolute,Y, (indirect,X), (indirect),Y. -/
def accumulatorOpcode (imm zp zpx abs abx aby izx izy : Byte) : Src → Option Byte
  | .imm _ => some imm
  | .mem (.zp _) => some zp
  | .mem (.zpx _) => some zpx
  | .mem (.zpy _) => none
  | .mem (.abs _) => some abs
  | .mem (.abx _) => some abx
  | .mem (.aby _) => some aby
  | .mem (.izx _) => some izx
  | .mem (.izy _) => some izy

/-- The opcode bytes of STA (R87). -/
def staOpcode : Addr → Option Byte
  | .zp _ => some 0x85
  | .zpx _ => some 0x95
  | .zpy _ => none
  | .abs _ => some 0x8D
  | .abx _ => some 0x9D
  | .aby _ => some 0x99
  | .izx _ => some 0x81
  | .izy _ => some 0x91

/-- The opcode bytes of LDX (R85). -/
def ldxOpcode : Src → Option Byte
  | .imm _ => some 0xA2
  | .mem (.zp _) => some 0xA6
  | .mem (.zpy _) => some 0xB6
  | .mem (.abs _) => some 0xAE
  | .mem (.aby _) => some 0xBE
  | .mem (.zpx _) | .mem (.abx _) | .mem (.izx _) | .mem (.izy _) => none

/-- The opcode bytes of LDY (R86). -/
def ldyOpcode : Src → Option Byte
  | .imm _ => some 0xA0
  | .mem (.zp _) => some 0xA4
  | .mem (.zpx _) => some 0xB4
  | .mem (.abs _) => some 0xAC
  | .mem (.abx _) => some 0xBC
  | .mem (.zpy _) | .mem (.aby _) | .mem (.izx _) | .mem (.izy _) => none

/-- The opcode bytes of STX (R88). -/
def stxOpcode : Addr → Option Byte
  | .zp _ => some 0x86
  | .zpy _ => some 0x96
  | .abs _ => some 0x8E
  | .zpx _ | .abx _ | .aby _ | .izx _ | .izy _ => none

/-- The opcode bytes of STY (R89). -/
def styOpcode : Addr → Option Byte
  | .zp _ => some 0x84
  | .zpx _ => some 0x94
  | .abs _ => some 0x8C
  | .zpy _ | .abx _ | .aby _ | .izx _ | .izy _ => none

/-- The opcode bytes of CPX and CPY (R108, R109): immediate, zero page, absolute. -/
def compareIndexOpcode (imm zp abs : Byte) : Src → Option Byte
  | .imm _ => some imm
  | .mem (.zp _) => some zp
  | .mem (.abs _) => some abs
  | .mem (.zpx _) | .mem (.zpy _) | .mem (.abx _) | .mem (.aby _) | .mem (.izx _) | .mem (.izy _) => none

/-- The opcode bytes of BIT (R110). -/
def bitOpcode : Addr → Option Byte
  | .zp _ => some 0x24
  | .abs _ => some 0x2C
  | .zpx _ | .zpy _ | .abx _ | .aby _ | .izx _ | .izy _ => none

/-- The opcode bytes of the read-modify-write instructions in memory (R112 to R117): zero page,
zero page,X, absolute, absolute,X. -/
def modifyOpcode (zp zpx abs abx : Byte) : Addr → Option Byte
  | .zp _ => some zp
  | .zpx _ => some zpx
  | .abs _ => some abs
  | .abx _ => some abx
  | .zpy _ | .aby _ | .izx _ | .izy _ => none

/-- The opcode bytes of the shifts and rotates (R112 to R115). -/
def shiftOpcode (acc zp zpx abs abx : Byte) : Dst → Option Byte
  | .acc => some acc
  | .mem m => modifyOpcode zp zpx abs abx m

/-- The opcode byte of an instruction; none where the instruction does not have the form. -/
def Instr.opcode : Instr → Option Byte
  | .lda s => accumulatorOpcode 0xA9 0xA5 0xB5 0xAD 0xBD 0xB9 0xA1 0xB1 s
  | .ldx s => ldxOpcode s
  | .ldy s => ldyOpcode s
  | .sta m => staOpcode m
  | .stx m => stxOpcode m
  | .sty m => styOpcode m
  | .tax => some 0xAA
  | .tay => some 0xA8
  | .txa => some 0x8A
  | .tya => some 0x98
  | .tsx => some 0xBA
  | .txs => some 0x9A
  | .pha => some 0x48
  | .php => some 0x08
  | .pla => some 0x68
  | .plp => some 0x28
  | .ora s => accumulatorOpcode 0x09 0x05 0x15 0x0D 0x1D 0x19 0x01 0x11 s
  | .and s => accumulatorOpcode 0x29 0x25 0x35 0x2D 0x3D 0x39 0x21 0x31 s
  | .eor s => accumulatorOpcode 0x49 0x45 0x55 0x4D 0x5D 0x59 0x41 0x51 s
  | .adc s => accumulatorOpcode 0x69 0x65 0x75 0x6D 0x7D 0x79 0x61 0x71 s
  | .sbc s => accumulatorOpcode 0xE9 0xE5 0xF5 0xED 0xFD 0xF9 0xE1 0xF1 s
  | .cmp s => accumulatorOpcode 0xC9 0xC5 0xD5 0xCD 0xDD 0xD9 0xC1 0xD1 s
  | .cpx s => compareIndexOpcode 0xE0 0xE4 0xEC s
  | .cpy s => compareIndexOpcode 0xC0 0xC4 0xCC s
  | .bit m => bitOpcode m
  | .asl d => shiftOpcode 0x0A 0x06 0x16 0x0E 0x1E d
  | .lsr d => shiftOpcode 0x4A 0x46 0x56 0x4E 0x5E d
  | .rol d => shiftOpcode 0x2A 0x26 0x36 0x2E 0x3E d
  | .ror d => shiftOpcode 0x6A 0x66 0x76 0x6E 0x7E d
  | .inc m => modifyOpcode 0xE6 0xF6 0xEE 0xFE m
  | .dec m => modifyOpcode 0xC6 0xD6 0xCE 0xDE m
  | .inx => some 0xE8
  | .iny => some 0xC8
  | .dex => some 0xCA
  | .dey => some 0x88
  | .jmp (.abs _) => some 0x4C
  | .jmp (.ind _) => some 0x6C
  | .jsr _ => some 0x20
  | .rts => some 0x60
  | .bpl _ => some 0x10
  | .bmi _ => some 0x30
  | .bvc _ => some 0x50
  | .bvs _ => some 0x70
  | .bcc _ => some 0x90
  | .bcs _ => some 0xB0
  | .bne _ => some 0xD0
  | .beq _ => some 0xF0
  | .clc => some 0x18
  | .sec => some 0x38
  | .cli => some 0x58
  | .sei => some 0x78
  | .clv => some 0xB8
  | .cld => some 0xD8
  | .sed => some 0xF8
  | .nop => some 0xEA
  | .brk => some 0x00
  | .rti => some 0x40
  | .undefined op => if undefinedOpcodes.contains op then some op else none

/-- A 16-bit operand as bytes, low byte first (rule R61). -/
def wordOperand (w : Word) : List Byte := [loByte w, hiByte w]

/-- The operand bytes of a memory mode. -/
def Addr.operands : Addr → List Byte
  | .zp b | .zpx b | .zpy b | .izx b | .izy b => [b]
  | .abs w | .abx w | .aby w => wordOperand w

/-- The operand bytes of a read operand. -/
def Src.operands : Src → List Byte
  | .imm b => [b]
  | .mem m => m.operands

/-- The operand bytes of a shift's operand. -/
def Dst.operands : Dst → List Byte
  | .acc => []
  | .mem m => m.operands

/-- The operand bytes of an instruction. -/
def Instr.operands : Instr → List Byte
  | .lda s | .ldx s | .ldy s | .ora s | .and s | .eor s | .adc s | .sbc s => s.operands
  | .cmp s | .cpx s | .cpy s => s.operands
  | .sta m | .stx m | .sty m | .bit m | .inc m | .dec m => m.operands
  | .asl d | .lsr d | .rol d | .ror d => d.operands
  | .jmp (.abs w) | .jmp (.ind w) | .jsr w => wordOperand w
  | .bpl b | .bmi b | .bvc b | .bvs b | .bcc b | .bcs b | .bne b | .beq b => [b]
  | .tax | .tay | .txa | .tya | .tsx | .txs | .pha | .php | .pla | .plp => []
  | .inx | .iny | .dex | .dey | .rts => []
  | .clc | .sec | .cli | .sei | .clv | .cld | .sed | .nop | .brk | .rti => []
  | .undefined _ => []

/-- The bytes of an instruction, opcode first; none for a term that is not an instruction of the machine. -/
def encode (i : Instr) : Option (List Byte) := i.opcode.map (· :: i.operands)

end Sys2Proof
end

