-- ==== Sys2Proof/Machine/State.lean ====
section
/-! DEFINITION. Everything the spec gives the machine, as plain data (10_state.md), the reasons a step can
stop, and the state after reset. -/

namespace Sys2Proof.Machine

/-- A memory: (address, byte) pairs, addresses strictly rising, no entry holding what an unlisted address
reads as (Machine/Memory.lean). The address is the offset in the storage array (rule R35). -/
abbrev Memory := List Host.Cell

/-- Why the machine stops with a fault. The spec gives it none: "No CPU access faults" (R39), "No
instruction of this machine can raise a synchronous exception" (R82), and the undefined opcode is the
`halted` latch of the state (R145). -/
inductive Fault where
  /-- Raised by the instruction step if the decoder rejects the bytes just fetched. It fetches as many
  bytes as the opcode asks for, so this is never raised (Laws/Step.lean). Safe. -/
  | decodeRejected (e : DecodeError)
  deriving DecidableEq, Repr

/-- Why the machine has no meaning to give. -/
inductive Refusal where
  /-- Raised by an arm of exec whose instruction has no meaning yet. Safe. -/
  | notModelled (mnemonic : String)
  /-- Raised by the step when `MAPPER_ID` is not 0: "a model refuses any `MAPPER_ID` it has no variant for"
  (20_memory.md rule R43, 93_implementation_defined.md U5). Safe. -/
  | unsupportedMapper (mapperId : Nat)
  deriving DecidableEq, Repr

/-- The CPU's registers and latches (rules R14 to R21). -/
structure Cpu where
  /-- accumulator `A` (R14); harness name `a` -/
  a : Byte
  /-- index register `X` (R14); harness name `x` -/
  x : Byte
  /-- index register `Y` (R14); harness name `y` -/
  y : Byte
  /-- stack pointer `SP`, an offset into page 1 (R15); harness name `sp` -/
  sp : Byte
  /-- program counter `PC` (R16); harness name `pc` -/
  pc : Word
  /-- status register `P` (R17, R18); harness name `status` -/
  p : Byte
  /-- `nmi_pending` (R20) -/
  nmiPending : Bool
  /-- `halted` (R20) -/
  halted : Bool
  deriving DecidableEq, Repr

/-- One of the eight sprite output units (rule R34). -/
structure SpriteUnit where
  /-- `spr_pat_lo[i]` -/
  patLo : Byte
  /-- `spr_pat_hi[i]` -/
  patHi : Byte
  /-- `spr_attr[i]` -/
  attr : Byte
  /-- `spr_x[i]` -/
  x : Byte
  deriving DecidableEq, Repr

/-- A sprite unit at power-on: all 0 (rule R37). -/
def SpriteUnit.zero : SpriteUnit := ⟨0, 0, 0, 0⟩

/-- The PPU's registers, object memories, counters, latches and palette (rules R22 to R35). -/
structure Ppu where
  /-- `ctrl` (R22) -/
  ctrl : Byte
  /-- `mask` (R23) -/
  mask : Byte
  /-- the PPU's `status` (R24) -/
  status : Byte
  /-- `oam_address` (R25) -/
  oamAddress : Byte
  /-- `v`, VRAM address (R26) -/
  v : Scroll
  /-- `t`, temporary address (R26) -/
  t : Scroll
  /-- `fine_x` (R27) -/
  fineX : BitVec 3
  /-- `w`, the write toggle (R27) -/
  w : Bool
  /-- `read_buffer` (R28) -/
  readBuffer : Byte
  /-- primary `OAM`, 256 bytes (R29) -/
  oam : Memory
  /-- `secondary_oam`, 32 bytes (R30) -/
  secondaryOam : Vector Byte 32
  /-- `sprite_count`, 0 to 8 (R30) -/
  spriteCount : Nat
  /-- `sprite_overflow` (R30) -/
  spriteOverflow : Bool
  /-- `sprite0_selected` (R30) -/
  sprite0Selected : Bool
  /-- `scanline`, 0 to 261 (R31) -/
  scanline : Nat
  /-- `dot`, 0 to 340 (R31) -/
  dot : Nat
  /-- `nmi_line` (R32) -/
  nmiLine : Bool
  /-- `vbl_read_latch` (R32) -/
  vblReadLatch : Bool
  /-- `nt_latch` (R33) -/
  ntLatch : Byte
  /-- `at_latch`, 2 bits (R33) -/
  atLatch : BitVec 2
  /-- `pt_lo_latch` (R33) -/
  ptLoLatch : Byte
  /-- `pt_hi_latch` (R33) -/
  ptHiLatch : Byte
  /-- `bg_shift_lo` (R33) -/
  bgShiftLo : BitVec 16
  /-- `bg_shift_hi` (R33) -/
  bgShiftHi : BitVec 16
  /-- `at_shift_lo` (R33) -/
  atShiftLo : BitVec 16
  /-- `at_shift_hi` (R33) -/
  atShiftHi : BitVec 16
  /-- the sprite output units (R34) -/
  sprites : Vector SpriteUnit 8
  /-- `line_sprite_count`, 0 to 8 (R34) -/
  lineSpriteCount : Nat
  /-- `line_has_sprite0` (R34) -/
  lineHasSprite0 : Bool
  /-- `PALETTE`, 32 entries of 6 bits (R35, R49) -/
  palette : Vector (BitVec 6) 32
  deriving DecidableEq, Repr

/-- One pixel handed to the presentation layer (rule R178): `pixel(s, x)` is a 6-bit colour number. -/
structure Pixel where
  scanline : Nat
  x : Nat
  colour : BitVec 6
  deriving DecidableEq, Repr

/-- The machine: the two agents, the storage arrays (rule R35), the parameters, the one input, and what a
tick gives to the outside. -/
structure State where
  /-- the CPU core -/
  cpu : Cpu
  /-- the PPU core -/
  ppu : Ppu
  /-- internal `RAM`, 2048 bytes (R35, R40) -/
  ram : Memory
  /-- cartridge `PRG`: the byte at `offset` of bank `k` has address `16384 * k + offset` (R35, R44) -/
  prg : Memory
  /-- `PRG_RAM`, 8192 bytes, reached only when the parameter says it is present (R35, R44) -/
  prgRam : Memory
  /-- cartridge `CHR`, 8192 bytes (R35, R44) -/
  chr : Memory
  /-- `VRAM`, 2048 bytes (R35, R48) -/
  vram : Memory
  /-- the parameters of rule R7 -/
  params : Params
  /-- `irq_line`, the level the core samples at the next instruction boundary (R7, R188): an input -/
  irqLine : Bool
  /-- what the last `cpu.step()` or `cpu.reset()` returned (R11 `cycles <- n`): an output, the model's own field -/
  cycles : Nat
  /-- the pixels handed over since the last tick began, oldest first (R178): an output, the model's own field -/
  pixels : List Pixel
  deriving DecidableEq, Repr

/-- The CPU right after reset (rules R37, R202). `PC` is the word at $FFFC of a cartridge with nothing
loaded, whose bytes read 0 (DESIGN CHOICE, log entry 2). -/
def Cpu.reset : Cpu where
  a := 0x00
  x := 0x00
  y := 0x00
  sp := 0xFD
  pc := 0x0000
  p := 0x24
  nmiPending := false
  halted := false

/-- The PPU right after the reset sequence: the power-on values of rule R37, advanced 21 dots. -/
def Ppu.reset : Ppu where
  ctrl := 0x00
  mask := 0x00
  status := 0x00
  oamAddress := 0x00
  v := 0
  t := 0
  fineX := 0
  w := false
  readBuffer := 0x00
  oam := []
  secondaryOam := Vector.replicate 32 0xFF
  spriteCount := 0
  spriteOverflow := false
  sprite0Selected := false
  scanline := 0
  dot := 21
  nmiLine := false
  vblReadLatch := false
  ntLatch := 0
  atLatch := 0
  ptLoLatch := 0
  ptHiLatch := 0
  bgShiftLo := 0
  bgShiftHi := 0
  atShiftLo := 0
  atShiftHi := 0
  sprites := Vector.replicate 8 SpriteUnit.zero
  lineSpriteCount := 0
  lineHasSprite0 := false
  palette := Vector.replicate 32 0

/-- The machine right after reset, every parameter at its default and nothing loaded (rules R37, R202,
R203; log entries 2, 3). The reset returned 7 cycles, and its 21 dots handed over 20 backdrop pixels.
Laws/Reset.lean proves that this is what power-on and the reset sequence give. -/
def State.reset : State where
  cpu := Cpu.reset
  ppu := Ppu.reset
  ram := []
  prg := []
  prgRam := []
  chr := []
  vram := []
  params := Params.default
  irqLine := false
  cycles := 7
  pixels := (List.range 20).map fun x => ⟨0, x, 0⟩

end Sys2Proof.Machine
end

