-- ==== Sys2Proof/Machine/Memory.lean ====
section
/-! DEFINITION. A memory as a list of cells in one canonical form: what an unlisted address reads as, one
read, one write, and the predicate that the form holds. -/

namespace Sys2Proof.Machine

/-- What a byte that nothing has written reads as: $00, the default of `RAM_INIT`, `VRAM_INIT` and
`OAM_INIT` and the contents of PRG RAM (rules R7, R37). For `PRG` and `CHR`, which have no default, it is a
DESIGN CHOICE (log entry 1). -/
def Memory.absent : Byte := 0x00

/-- The byte at an address. -/
def Memory.read : Memory → Nat → Byte
  | [], _ => Memory.absent
  | (a, b) :: rest, k => if a = k then b else Memory.read rest k

/-- A byte is put in front of a list whose addresses are all higher, unless it is what an unlisted address
reads as. -/
def Memory.cons (k : Nat) (b : Byte) (m : Memory) : Memory :=
  if b = Memory.absent then m else (k, b) :: m

/-- The byte at an address is replaced. -/
def Memory.write : Memory → Nat → Byte → Memory
  | [], k, b => Memory.cons k b []
  | (a, x) :: rest, k, b =>
    if a < k then (a, x) :: Memory.write rest k b
    else if a = k then Memory.cons k b rest
    else Memory.cons k b ((a, x) :: rest)

/-- Every address of the memory is at least `lo`, they rise strictly, and no cell holds the absent byte. -/
def Memory.sortedFrom : Nat → Memory → Bool
  | _, [] => true
  | lo, (a, b) :: rest => decide (lo ≤ a) && !(b == Memory.absent) && Memory.sortedFrom (a + 1) rest

/-- The canonical form: equal memories are equal lists. -/
def Memory.wf (m : Memory) : Bool := Memory.sortedFrom 0 m

/-- Every address is below the size of the array. -/
def Memory.below (size : Nat) (m : Memory) : Bool := m.all fun c => decide (c.1 < size)

end Sys2Proof.Machine
end

