-- ==== Sys2Proof/Machine/Mapper.lean ====
section
/-! DEFINITION. The address decode of the CPU bus and the default mapper (20_memory.md rules R38 to R44),
and the nametable mirroring (rule R48). -/

namespace Sys2Proof.Machine

/-- What a CPU address selects (rule R39): the decode is total. -/
inductive CpuCell where
  /-- a byte of internal RAM (R40) -/
  | ram (offset : Nat)
  /-- a PPU register port, 0 to 7 for $2000 to $2007 (R41) -/
  | port (n : Nat)
  /-- a byte of PRG RAM (R44) -/
  | prgRam (offset : Nat)
  /-- a byte of PRG ROM (R44) -/
  | prg (bank offset : Nat)
  /-- no device: the stub $4000 to $401F, and what the mapper maps to nothing (R42, R44) -/
  | nothing
  deriving DecidableEq, Repr

/-- `translate_cpu_address` of the default mapper (rule R44), for $4020 to $FFFF. -/
def translateCpuAddress (q : Params) (a : Nat) : CpuCell :=
  if a < 0x6000 then .nothing
  else if a < 0x8000 then (if q.hasPrgRam then .prgRam (a - 0x6000) else .nothing)
  else if a < 0xC000 then .prg 0 (a - 0x8000)
  else .prg (match q.prgBanks with | .one => 0 | .two => 1) (a - 0xC000)

/-- The decode of a CPU address (rule R39). -/
def cpuCell (q : Params) (addr : Word) : CpuCell :=
  let a := addr.toNat
  if a < 0x2000 then .ram (a % 0x0800)
  else if a < 0x4000 then .port (a % 8)
  else if a < 0x4020 then .nothing
  else translateCpuAddress q a

/-- The place of a byte of PRG in the state's list: bank by bank. -/
def prgIndex (bank offset : Nat) : Nat := 0x4000 * bank + offset

/-- The index into VRAM of a nametable address: `n` the nametable number, `off` the offset in it (rule R48). -/
def nametableIndex (m : Mirroring) (a : PpuAddr) : Nat :=
  let n := (a.toNat / 0x400) % 4
  let off := a.toNat % 0x400
  match m with
  | .vertical => (n % 2) * 1024 + off
  | .horizontal => (n / 2) * 1024 + off

end Sys2Proof.Machine
end

