-- ==== Sys2Proof/Machine/Update.lean ====
section
/-! DEFINITION. Writes of single registers, each under one name. -/

namespace Sys2Proof.Machine

/-- `A <- b` -/
def State.setA (s : State) (b : Byte) : State := { s with cpu := { s.cpu with a := b } }
/-- `X <- b` -/
def State.setX (s : State) (b : Byte) : State := { s with cpu := { s.cpu with x := b } }
/-- `Y <- b` -/
def State.setY (s : State) (b : Byte) : State := { s with cpu := { s.cpu with y := b } }
/-- `SP <- b` -/
def State.setSp (s : State) (b : Byte) : State := { s with cpu := { s.cpu with sp := b } }
/-- `PC <- w` -/
def State.setPc (s : State) (w : Word) : State := { s with cpu := { s.cpu with pc := w } }
/-- `P <- b` -/
def State.setP (s : State) (b : Byte) : State := { s with cpu := { s.cpu with p := b } }
/-- `halted <- b` -/
def State.setHalted (s : State) (b : Bool) : State := { s with cpu := { s.cpu with halted := b } }
/-- `nmi_pending <- b` -/
def State.setNmiPending (s : State) (b : Bool) : State := { s with cpu := { s.cpu with nmiPending := b } }
/-- `cycles <- n` -/
def State.setCycles (s : State) (n : Nat) : State := { s with cycles := n }
/-- the PPU's fields are replaced -/
def State.setPpu (s : State) (q : Ppu) : State := { s with ppu := q }

end Sys2Proof.Machine
end

