-- ==== Sys2Proof/Machine/PpuBus.lean ====
section
/-! DEFINITION. The PPU's own address space: 20_memory.md rules R45 to R49. -/

namespace Sys2Proof.Machine

/-- The palette entry of a PPU address $3F00 to $3FFF: every 32 bytes the same, and entries $10, $14, $18,
$1C are entries $00, $04, $08, $0C (rule R49). -/
def paletteIndex (a : PpuAddr) : Nat :=
  let i := a.toNat % 0x20
  if i = 0x10 ∨ i = 0x14 ∨ i = 0x18 ∨ i = 0x1C then i - 0x10 else i

/-- Entry `i` of the palette. -/
def Ppu.colour (q : Ppu) (i : Nat) : BitVec 6 := q.palette[i]?.getD 0

/-- `PpuRead(a)` (rule R46). It has no side effect. $3000 to $3EFF is the nametables again, at `a - $1000`:
the nametable number and the offset of rule R48 are the same for both. -/
def ppuRead (s : State) (a : PpuAddr) : Byte :=
  if a.toNat < 0x2000 then s.chr.read a.toNat
  else if a.toNat < 0x3F00 then s.vram.read (nametableIndex s.params.mirroring a)
  else (s.ppu.colour (paletteIndex a)).setWidth 8

/-- `PpuWrite(a, x)` (rule R46). -/
def ppuWrite (s : State) (a : PpuAddr) (x : Byte) : State :=
  if a.toNat < 0x2000 then
    if s.params.chrWritable then { s with chr := s.chr.write a.toNat x } else s
  else if a.toNat < 0x3F00 then
    { s with vram := s.vram.write (nametableIndex s.params.mirroring a) x }
  else
    s.setPpu { s.ppu with palette := s.ppu.palette.setIfInBounds (paletteIndex a) (field 0 6 x) }

/-- The PPU bus address of a natural number: the space is 14 bits wide (rule R45). -/
def ppuAddr (n : Nat) : PpuAddr := BitVec.ofNat 14 n

/-- The address `v & $3FFF` (rule R45). -/
def Ppu.busAddress (q : Ppu) : PpuAddr := field 0 14 q.v

end Sys2Proof.Machine
end

