-- ==== Sys2Proof/Machine/Ports.lean ====
section
/-! DEFINITION. The eight PPU register ports (47_ppu_register_ports.md). Ports are numbered 0 to 7 for
$2000 to $2007. -/

namespace Sys2Proof.Machine

/-- $2000 PPUCTRL, write (rule R149). -/
def writePpuCtrl (d : Byte) (q : Ppu) : Ppu := { q with ctrl := d, t := putField 10 (field 0 2 d) q.t }

/-- $2001 PPUMASK, write (rule R150). -/
def writePpuMask (d : Byte) (q : Ppu) : Ppu := { q with mask := d }

/-- $2002 PPUSTATUS, read: what the read leaves (rule R151). -/
def readPpuStatus (q : Ppu) : Ppu :=
  { q with status := putBit 7 false q.status, w := false, vblReadLatch := true }

/-- $2003 OAMADDR, write (rule R152). -/
def writeOamAddr (d : Byte) (q : Ppu) : Ppu := { q with oamAddress := d }

/-- $2004 OAMDATA, write (rule R153). -/
def writeOamData (d : Byte) (q : Ppu) : Ppu :=
  { q with oam := q.oam.write q.oamAddress.toNat d, oamAddress := q.oamAddress + 1 }

/-- $2005 PPUSCROLL, write (rule R154). -/
def writePpuScroll (d : Byte) (q : Ppu) : Ppu :=
  if q.w then { q with t := putField 5 (field 3 5 d) (putField 12 (field 0 3 d) q.t), w := false }
  else { q with t := putField 0 (field 3 5 d) q.t, fineX := field 0 3 d, w := true }

/-- $2006 PPUADDR, write (rule R155). -/
def writePpuAddr (d : Byte) (q : Ppu) : Ppu :=
  if q.w then { q with t := putField 0 d q.t, v := putField 0 d q.t, w := false }
  else { q with t := putBit 14 false (putField 8 (field 0 6 d) q.t), w := true }

/-- The PPUDATA increment (rule R156): plain, modulo 32768. -/
def incrementV (q : Ppu) : Ppu := { q with v := q.v + if q.ctrl.getLsbD 2 then 32 else 1 }

/-- $2007 PPUDATA, write (rule R157). -/
def writePpuData (d : Byte) (s : State) : State :=
  let s' := ppuWrite s s.ppu.busAddress d
  s'.setPpu (incrementV s'.ppu)

/-- $2007 PPUDATA, read: the byte returned (rule R158). -/
def ppuDataResult (s : State) : Byte :=
  if s.ppu.busAddress.toNat < 0x3F00 then s.ppu.readBuffer else ppuRead s s.ppu.busAddress

/-- $2007 PPUDATA, read: what goes into `read_buffer` (rule R158): the addressed byte, or for a palette
address the nametable byte under it. -/
def ppuDataBuffer (s : State) : Byte :=
  if s.ppu.busAddress.toNat < 0x3F00 then ppuRead s s.ppu.busAddress
  else ppuRead s (s.ppu.busAddress - 0x1000)

/-- $2007 PPUDATA, read: what the read leaves (rule R158). -/
def readPpuData (s : State) : State :=
  s.setPpu (incrementV { s.ppu with readBuffer := ppuDataBuffer s })

/-- A CPU read of port `n`: the byte and the state it leaves. The write-only ports return `OPEN_BUS` and
change nothing (rule R159). -/
def portRead (n : Nat) (s : State) : Byte × State :=
  match n with
  | 2 => (s.ppu.status, s.setPpu (readPpuStatus s.ppu))
  | 4 => (s.ppu.oam.read s.ppu.oamAddress.toNat, s)
  | 7 => (ppuDataResult s, readPpuData s)
  | _ => (s.params.openBus, s)

/-- A CPU write to port `n`. A write to $2002 is ignored (rule R159). -/
def portWrite (n : Nat) (d : Byte) (s : State) : State :=
  match n with
  | 0 => s.setPpu (writePpuCtrl d s.ppu)
  | 1 => s.setPpu (writePpuMask d s.ppu)
  | 3 => s.setPpu (writeOamAddr d s.ppu)
  | 4 => s.setPpu (writeOamData d s.ppu)
  | 5 => s.setPpu (writePpuScroll d s.ppu)
  | 6 => s.setPpu (writePpuAddr d s.ppu)
  | 7 => writePpuData d s
  | _ => s

end Sys2Proof.Machine
end

