-- ==== Sys2Proof/Machine/Ops.lean ====
section
/-! DEFINITION. The primitives of 00_scope.md rule R11 over the state: the CPU bus, the stack, entering a
handler and returning from one. -/

namespace Sys2Proof.Machine

/-- `MemRead(addr, 1)`: the byte, and the state after the read's side effect (rules R39, R53). -/
def memRead (a : Word) (s : State) : Byte × State :=
  match cpuCell s.params a with
  | .ram i => (s.ram.read i, s)
  | .port n => portRead n s
  | .prgRam i => (s.prgRam.read i, s)
  | .prg k i => (s.prg.read (prgIndex k i), s)
  | .nothing => (s.params.openBus, s)

/-- `MemWrite(addr, 1, v)` (rules R39, R53). A write to ROM or to no device is ignored. -/
def memWrite (a : Word) (v : Byte) (s : State) : State :=
  match cpuCell s.params a with
  | .ram i => { s with ram := s.ram.write i v }
  | .port n => portWrite n v s
  | .prgRam i => { s with prgRam := s.prgRam.write i v }
  | .prg _ _ => s
  | .nothing => s

/-- Two byte reads, the low byte first: the 16-bit value and the state they leave (rules R50, R51). -/
def readPair (lo hi : Word) (s : State) : Word × State :=
  let l := memRead lo s
  let h := memRead hi l.2
  (joinBytes h.1 l.1, h.2)

/-- `MemRead16(addr)`: the second byte is at `(addr + 1) mod 65536`. -/
def memRead16 (a : Word) (s : State) : Word × State := readPair a (a + 1) s

/-- The address the stack pointer selects: `$0100 + SP` (rule R15). -/
def stackAddr (sp : Byte) : Word := 0x0100 + zext16 sp

/-- `Push(v)` (rule R96). -/
def push (v : Byte) (s : State) : State :=
  let s' := memWrite (stackAddr s.cpu.sp) v s
  s'.setSp (s'.cpu.sp - 1)

/-- `Pull()` (rule R96). -/
def pull (s : State) : Byte × State :=
  let s' := s.setSp (s.cpu.sp + 1)
  memRead (stackAddr s'.cpu.sp) s'

/-- `Push(hi(w)); Push(lo(w))`. -/
def pushWord (w : Word) (s : State) : State := push (loByte w) (push (hiByte w) s)

/-- `lo <- Pull(); hi <- Pull()`. -/
def pullWord (s : State) : Word × State :=
  let l := pull s
  let h := pull l.2
  (joinBytes h.1 l.1, h.2)

/-- `SetNZ(r)`. -/
def setNZ (r : Byte) (s : State) : State := s.setP (withNZ r s.cpu.p)

/-! ## Taking an exception and returning from one -/

/-- The shared entry of NMI, IRQ and BRK (rules R143, R190): the return address and a copy of the status go
on the stack, `P.I` is set, `PC` is loaded from the vector, 7 cycles. -/
def enterHandler (ret : Word) (pushed : Byte) (vec : Word) (s : State) : State :=
  let s1 := push pushed (pushWord ret s)
  let s2 := s1.setP (withI true s1.cpu.p)
  let r := memRead16 vec s2
  (r.2.setPc r.1).setCycles 7

/-- `IntEntry(vec)` (rule R190): `PC` is the address of the instruction not yet fetched, and the pushed copy
of the status has B clear and bit 5 set. -/
def interruptEntry (vec : Word) (s : State) : State :=
  enterHandler s.cpu.pc (pushedByInterrupt s.cpu.p) vec s

/-- The NMI vector (rule R193). -/
def nmiVector : Word := 0xFFFA
/-- The reset vector (rule R193). -/
def resetVector : Word := 0xFFFC
/-- The vector of IRQ and BRK (rule R193). -/
def irqVector : Word := 0xFFFE

/-- NMI service (rule R191). -/
def nmiService (s : State) : State := interruptEntry nmiVector (s.setNmiPending false)

/-- IRQ service (rule R192). -/
def irqService (s : State) : State := interruptEntry irqVector s

/-- The condition of rule R188 for taking an IRQ, once the CPU is neither halted nor has an NMI pending. -/
def irqTaken (s : State) : Bool := s.irqLine && !flagI s.cpu.p

/-- Loading `P` from the byte on top of the stack, as PLP and RTI do (rules R100, R144). -/
def pullStatus (s : State) : State :=
  let r := pull s
  r.2.setP (pulledStatus r.1 r.2.cpu.p)

/-- The return from a handler (rule R144): the status, then the exact return address. -/
def returnFromInterrupt (s : State) : State :=
  let r := pullWord (pullStatus s)
  (r.2.setPc r.1).setCycles 6

end Sys2Proof.Machine
end

