-- ==== Sys2Proof/Machine/Operands.lean ====
section
/-! DEFINITION. The addressing modes (30_encoding.md rules R63 to R75), the three ways an instruction uses
an effective address (rule R83) and the cycle counts by mode (rules R76, R207). -/

namespace Sys2Proof.Machine

/-- An effective address: `ea`, whether a page was crossed, and the state after the pointer reads. -/
structure Resolved where
  addr : Word
  crossed : Bool
  st : State

/-- `ea <- (base + index) mod 65536; crossed <- (hi(ea) != hi(base))` (rules R70, R71, R74). -/
def indexed (base : Word) (index : Byte) (s : State) : Resolved :=
  ⟨base + zext16 index, hiByte (base + zext16 index) != hiByte base, s⟩

/-- The effective address of a memory mode. The zero-page sums and the second pointer byte wrap inside
page 0 because they are added as bytes. -/
def resolve (m : Addr) (s : State) : Resolved :=
  match m with
  | .zp b => ⟨zext16 b, false, s⟩
  | .zpx b => ⟨zext16 (b + s.cpu.x), false, s⟩
  | .zpy b => ⟨zext16 (b + s.cpu.y), false, s⟩
  | .abs w => ⟨w, false, s⟩
  | .abx w => indexed w s.cpu.x s
  | .aby w => indexed w s.cpu.y s
  | .izx b =>
    let z := b + s.cpu.x
    let r := readPair (zext16 z) (zext16 (z + 1)) s
    ⟨r.1, false, r.2⟩
  | .izy b =>
    let r := readPair (zext16 b) (zext16 (b + 1)) s
    indexed r.1 r.2.cpu.y r.2

/-- Cycles of a read at a memory mode (rule R207, column read): abs,X, abs,Y and (ind),Y pay one more when a
page is crossed. -/
def readCycles (m : Addr) (crossed : Bool) : Nat :=
  match m with
  | .zp _ => 3
  | .zpx _ | .zpy _ | .abs _ => 4
  | .abx _ | .aby _ => 4 + bit crossed
  | .izx _ => 6
  | .izy _ => 5 + bit crossed

/-- Cycles of a store at a memory mode (rule R207, column write): no penalty. -/
def writeCycles : Addr → Nat
  | .zp _ => 3
  | .zpx _ | .zpy _ | .abs _ => 4
  | .abx _ | .aby _ => 5
  | .izx _ | .izy _ => 6

/-- Cycles of a read-modify-write at a memory mode (rule R207): no penalty. The table has no entry for
(indirect,X) and (indirect),Y, which no read-modify-write instruction has; the numbers there are never used
by a well-formed instruction. -/
def modifyCycles : Addr → Nat
  | .zp _ => 5
  | .zpx _ | .zpy _ | .abs _ => 6
  | .abx _ | .aby _ => 7
  | .izx _ | .izy _ => 8

/-- A read instruction's operand (rule R83): the byte, and the state after the pointer reads and the one
data read, with the instruction's cycle count. -/
def readSrc (src : Src) (s : State) : Byte × State :=
  match src with
  | .imm b => (b, s.setCycles 2)
  | .mem m =>
    let r := resolve m s
    let d := memRead r.addr r.st
    (d.1, d.2.setCycles (readCycles m r.crossed))

/-- A write instruction (rule R83): one `MemWrite(ea, 1, v)` and no read of `ea`. -/
def store (m : Addr) (v : Byte) (s : State) : State :=
  let r := resolve m s
  (memWrite r.addr v r.st).setCycles (writeCycles m)

/-- A read-modify-write of the byte at `ea` (rules R83, R111): one read, then one write of `f m` at the same
`ea`; then the flags, from the byte read and the old status. -/
def modifyMem (m : Addr) (f : Byte → Byte) (flags : Byte → Byte → Byte) (s : State) : State :=
  let r := resolve m s
  let d := memRead r.addr r.st
  let s' := memWrite r.addr (f d.1) d.2
  (s'.setP (flags d.1 s'.cpu.p)).setCycles (modifyCycles m)

/-- A shift or rotate of the accumulator (2 cycles, no data access) or of a byte of memory. -/
def modify (d : Dst) (f : Byte → Byte) (flags : Byte → Byte → Byte) (s : State) : State :=
  match d with
  | .acc => ((s.setA (f s.cpu.a)).setP (flags s.cpu.a s.cpu.p)).setCycles 2
  | .mem m => modifyMem m f flags s

/-- The target of a JMP (rules R69, R72) with its cycle count (rule R123). The pointer's high byte is read
from the same page as its low byte. -/
def jumpTarget (t : Target) (s : State) : Word × State :=
  match t with
  | .abs w => (w, s.setCycles 3)
  | .ind w =>
    let r := readPair w (joinBytes (hiByte w) (loByte w + 1)) s
    (r.1, r.2.setCycles 5)

/-- The target of a branch (rule R75): relative to `PC`, the address of the next instruction. -/
def branchTarget (off : Byte) (pc : Word) : Word := pc + sext16 off

/-- The shared form of the eight branches (rule R126). -/
def branch (cond : Bool) (off : Byte) (s : State) : State :=
  let target := branchTarget off s.cpu.pc
  if cond then (s.setPc target).setCycles (3 + bit (hiByte target != hiByte s.cpu.pc))
  else s.setCycles 2

end Sys2Proof.Machine
end

