-- ==== Sys2Proof/Machine/Alu.lean ====
section
/-! DEFINITION. Logic, arithmetic and compare (42_logic_arith_compare.md). -/

namespace Sys2Proof.Machine

/-- The result of an instruction that puts a byte into `A` with N and Z from it. -/
def setAccumulator (r : Byte) (s : State) : State := setNZ r (s.setA r)

/-- ADC's effect with the operand `m` (rule R105). -/
def addToAccumulator (m : Byte) (s : State) : State :=
  (s.setA (addResult s.cpu.a m (flagC s.cpu.p))).setP (addFlags s.cpu.a m s.cpu.p)

/-- ORA (rule R102): `r <- A | m; A <- r; SetNZ(r)`. -/
def execOra (src : Src) (s : State) : Host.Outcome State Fault Refusal :=
  let r := readSrc src s
  .next (setAccumulator (r.2.cpu.a ||| r.1) r.2)

/-- AND (rule R103): `r <- A & m; A <- r; SetNZ(r)`. -/
def execAnd (src : Src) (s : State) : Host.Outcome State Fault Refusal :=
  let r := readSrc src s
  .next (setAccumulator (r.2.cpu.a &&& r.1) r.2)

/-- EOR (rule R104): `r <- A ^ m; A <- r; SetNZ(r)`. -/
def execEor (src : Src) (s : State) : Host.Outcome State Fault Refusal :=
  let r := readSrc src s
  .next (setAccumulator (r.2.cpu.a ^^^ r.1) r.2)

/-- ADC (rule R105): binary, whatever D holds. -/
def execAdc (src : Src) (s : State) : Host.Outcome State Fault Refusal :=
  let r := readSrc src s
  .next (addToAccumulator r.1 r.2)

/-- SBC (rule R106): ADC with the operand replaced by its one's complement. -/
def execSbc (src : Src) (s : State) : Host.Outcome State Fault Refusal :=
  let r := readSrc src s
  .next (addToAccumulator (complement r.1) r.2)

/-- CMP (rule R107): flags of `A` against the operand. -/
def execCmp (src : Src) (s : State) : Host.Outcome State Fault Refusal :=
  let r := readSrc src s
  .next (r.2.setP (compareFlags r.2.cpu.a r.1 r.2.cpu.p))

/-- CPX (rule R108): flags of `X` against the operand. -/
def execCpx (src : Src) (s : State) : Host.Outcome State Fault Refusal :=
  let r := readSrc src s
  .next (r.2.setP (compareFlags r.2.cpu.x r.1 r.2.cpu.p))

/-- CPY (rule R109): flags of `Y` against the operand. -/
def execCpy (src : Src) (s : State) : Host.Outcome State Fault Refusal :=
  let r := readSrc src s
  .next (r.2.setP (compareFlags r.2.cpu.y r.1 r.2.cpu.p))

/-- BIT (rule R110): Z from `A & m`, N and V from bits 7 and 6 of `m`. -/
def execBit (m : Addr) (s : State) : Host.Outcome State Fault Refusal :=
  let r := readSrc (.mem m) s
  .next (r.2.setP (bitFlags r.2.cpu.a r.1 r.2.cpu.p))

end Sys2Proof.Machine
end

