-- ==== Sys2Proof/Machine/Control.lean ====
section
/-! DEFINITION. Jumps, subroutines and branches (44_jump_branch_subroutine.md). `PC` of the state is the address of the
next instruction: the bytes of this one were fetched. -/

namespace Sys2Proof.Machine

/-- JMP (rule R123): `PC <- ea`. -/
def execJmp (target : Target) (s : State) : Host.Outcome State Fault Refusal :=
  let r := jumpTarget target s
  .next (r.2.setPc r.1)

/-- JSR (rule R124): the address of the last byte of the JSR is pushed, high byte first. -/
def execJsr (w : Word) (s : State) : Host.Outcome State Fault Refusal :=
  .next (((pushWord (s.cpu.pc - 1) s).setPc w).setCycles 6)

/-- RTS (rule R125): `PC` is the pulled word plus 1. -/
def execRts (s : State) : Host.Outcome State Fault Refusal :=
  let r := pullWord s
  .next ((r.2.setPc (r.1 + 1)).setCycles 6)

/-- BPL (rule R127): rule R126 with `P.N == 0`. -/
def execBpl (off : Byte) (s : State) : Host.Outcome State Fault Refusal :=
  .next (branch (!flagN s.cpu.p) off s)

/-- BMI (rule R128): rule R126 with `P.N == 1`. -/
def execBmi (off : Byte) (s : State) : Host.Outcome State Fault Refusal :=
  .next (branch (flagN s.cpu.p) off s)

/-- BVC (rule R129): rule R126 with `P.V == 0`. -/
def execBvc (off : Byte) (s : State) : Host.Outcome State Fault Refusal :=
  .next (branch (!flagV s.cpu.p) off s)

/-- BVS (rule R130): rule R126 with `P.V == 1`. -/
def execBvs (off : Byte) (s : State) : Host.Outcome State Fault Refusal :=
  .next (branch (flagV s.cpu.p) off s)

/-- BCC (rule R131): rule R126 with `P.C == 0`. -/
def execBcc (off : Byte) (s : State) : Host.Outcome State Fault Refusal :=
  .next (branch (!flagC s.cpu.p) off s)

/-- BCS (rule R132): rule R126 with `P.C == 1`. -/
def execBcs (off : Byte) (s : State) : Host.Outcome State Fault Refusal :=
  .next (branch (flagC s.cpu.p) off s)

/-- BNE (rule R133): rule R126 with `P.Z == 0`. -/
def execBne (off : Byte) (s : State) : Host.Outcome State Fault Refusal :=
  .next (branch (!flagZ s.cpu.p) off s)

/-- BEQ (rule R134): rule R126 with `P.Z == 1`. -/
def execBeq (off : Byte) (s : State) : Host.Outcome State Fault Refusal :=
  .next (branch (flagZ s.cpu.p) off s)

end Sys2Proof.Machine
end

