-- ==== Sys2Proof/Machine/LoadStore.lean ====
section
/-! DEFINITION. Loads, stores and register transfers (40_load_store_transfer.md). -/

namespace Sys2Proof.Machine

/-- LDA, load accumulator (rule R84): `m <- operand; A <- m; SetNZ(m)`. -/
def execLda (src : Src) (s : State) : Host.Outcome State Fault Refusal :=
  let r := readSrc src s
  .next (setNZ r.1 (r.2.setA r.1))

/-- LDX, load X (rule R85): `m <- operand; X <- m; SetNZ(m)`. -/
def execLdx (src : Src) (s : State) : Host.Outcome State Fault Refusal :=
  let r := readSrc src s
  .next (setNZ r.1 (r.2.setX r.1))

/-- LDY, load Y (rule R86): `m <- operand; Y <- m; SetNZ(m)`. -/
def execLdy (src : Src) (s : State) : Host.Outcome State Fault Refusal :=
  let r := readSrc src s
  .next (setNZ r.1 (r.2.setY r.1))

/-- STA, store A (rule R87): `MemWrite(ea, 1, A)`; no flag, no read of `ea`. -/
def execSta (m : Addr) (s : State) : Host.Outcome State Fault Refusal :=
  .next (store m s.cpu.a s)

/-- STX, store X (rule R88): `MemWrite(ea, 1, X)`; no flag, no read of `ea`. -/
def execStx (m : Addr) (s : State) : Host.Outcome State Fault Refusal :=
  .next (store m s.cpu.x s)

/-- STY, store Y (rule R89): `MemWrite(ea, 1, Y)`; no flag, no read of `ea`. -/
def execSty (m : Addr) (s : State) : Host.Outcome State Fault Refusal :=
  .next (store m s.cpu.y s)

/-- TAX (rule R90): `X <- A; SetNZ(A)`. -/
def execTax (s : State) : Host.Outcome State Fault Refusal :=
  .next ((setNZ s.cpu.a (s.setX s.cpu.a)).setCycles 2)

/-- TAY (rule R91): `Y <- A; SetNZ(A)`. -/
def execTay (s : State) : Host.Outcome State Fault Refusal :=
  .next ((setNZ s.cpu.a (s.setY s.cpu.a)).setCycles 2)

/-- TXA (rule R92): `A <- X; SetNZ(X)`. -/
def execTxa (s : State) : Host.Outcome State Fault Refusal :=
  .next ((setNZ s.cpu.x (s.setA s.cpu.x)).setCycles 2)

/-- TYA (rule R93): `A <- Y; SetNZ(Y)`. -/
def execTya (s : State) : Host.Outcome State Fault Refusal :=
  .next ((setNZ s.cpu.y (s.setA s.cpu.y)).setCycles 2)

/-- TSX (rule R94): `X <- SP; SetNZ(SP)`. -/
def execTsx (s : State) : Host.Outcome State Fault Refusal :=
  .next ((setNZ s.cpu.sp (s.setX s.cpu.sp)).setCycles 2)

/-- TXS (rule R95): `SP <- X`; the one transfer that writes no flag. -/
def execTxs (s : State) : Host.Outcome State Fault Refusal :=
  .next ((s.setSp s.cpu.x).setCycles 2)

end Sys2Proof.Machine
end

