-- ==== Sys2Proof/Machine/Shift.lean ====
section
/-! DEFINITION. Shifts, rotates, increments and decrements (43_shift_rotate_incdec.md). -/

namespace Sys2Proof.Machine

/-- ASL (rule R112): `r <- (m << 1) mod 256; P.C <- m[7]; SetNZ(r)`. -/
def execAsl (d : Dst) (s : State) : Host.Outcome State Fault Refusal :=
  .next (modify d aslResult (fun m p => shiftFlags (m.getLsbD 7) (aslResult m) p) s)

/-- LSR (rule R113): `r <- m >> 1; P.C <- m[0]; SetNZ(r)`. -/
def execLsr (d : Dst) (s : State) : Host.Outcome State Fault Refusal :=
  .next (modify d lsrResult (fun m p => shiftFlags (m.getLsbD 0) (lsrResult m) p) s)

/-- ROL (rule R114): `r <- ((m << 1) | P.C) mod 256; P.C <- m[7]; SetNZ(r)`, with the carry before. -/
def execRol (d : Dst) (s : State) : Host.Outcome State Fault Refusal :=
  let c := flagC s.cpu.p
  .next (modify d (rolResult c) (fun m p => shiftFlags (m.getLsbD 7) (rolResult c m) p) s)

/-- ROR (rule R115): `r <- (m >> 1) | (P.C << 7); P.C <- m[0]; SetNZ(r)`, with the carry before. -/
def execRor (d : Dst) (s : State) : Host.Outcome State Fault Refusal :=
  let c := flagC s.cpu.p
  .next (modify d (rorResult c) (fun m p => shiftFlags (m.getLsbD 0) (rorResult c m) p) s)

/-- INC (rule R116): `r <- (m + 1) mod 256; SetNZ(r)`. -/
def execInc (m : Addr) (s : State) : Host.Outcome State Fault Refusal :=
  .next (modifyMem m (fun b => b + 1) (fun b p => withNZ (b + 1) p) s)

/-- DEC (rule R117): `r <- (m - 1) mod 256; SetNZ(r)`. -/
def execDec (m : Addr) (s : State) : Host.Outcome State Fault Refusal :=
  .next (modifyMem m (fun b => b - 1) (fun b p => withNZ (b - 1) p) s)

/-- INX (rule R118): `X <- (X + 1) mod 256; SetNZ(X)`. -/
def execInx (s : State) : Host.Outcome State Fault Refusal :=
  .next ((setNZ (s.cpu.x + 1) (s.setX (s.cpu.x + 1))).setCycles 2)

/-- INY (rule R119): `Y <- (Y + 1) mod 256; SetNZ(Y)`. -/
def execIny (s : State) : Host.Outcome State Fault Refusal :=
  .next ((setNZ (s.cpu.y + 1) (s.setY (s.cpu.y + 1))).setCycles 2)

/-- DEX (rule R120): `X <- (X - 1) mod 256; SetNZ(X)`. -/
def execDex (s : State) : Host.Outcome State Fault Refusal :=
  .next ((setNZ (s.cpu.x - 1) (s.setX (s.cpu.x - 1))).setCycles 2)

/-- DEY (rule R121): `Y <- (Y - 1) mod 256; SetNZ(Y)`. -/
def execDey (s : State) : Host.Outcome State Fault Refusal :=
  .next ((setNZ (s.cpu.y - 1) (s.setY (s.cpu.y - 1))).setCycles 2)

end Sys2Proof.Machine
end

