-- ==== Sys2Proof/Machine/Stack.lean ====
section
/-! DEFINITION. The stack instructions (41_stack.md). -/

namespace Sys2Proof.Machine

/-- PHA (rule R97): `Push(A)`. -/
def execPha (s : State) : Host.Outcome State Fault Refusal :=
  .next ((push s.cpu.a s).setCycles 3)

/-- PHP (rule R98): `Push(P | $30)`. -/
def execPhp (s : State) : Host.Outcome State Fault Refusal :=
  .next ((push (pushedByProgram s.cpu.p) s).setCycles 3)

/-- PLA (rule R99): `m <- Pull(); A <- m; SetNZ(m)`. -/
def execPla (s : State) : Host.Outcome State Fault Refusal :=
  let r := pull s
  .next ((setNZ r.1 (r.2.setA r.1)).setCycles 4)

/-- PLP (rule R100): `m <- Pull(); P <- (m & $CF) | (P & $30)`. -/
def execPlp (s : State) : Host.Outcome State Fault Refusal :=
  .next ((pullStatus s).setCycles 4)

end Sys2Proof.Machine
end

