-- ==== Sys2Proof/Machine/System.lean ====
section
/-! DEFINITION. Flag, no-operation and system instructions (45_flag_nop_system.md). -/

namespace Sys2Proof.Machine

/-- An instruction that writes one flag and nothing else: 2 cycles. -/
def flagOp (f : Byte → Byte) (s : State) : State := (s.setP (f s.cpu.p)).setCycles 2

/-- CLC (rule R135): `P.C <- 0`. -/
def execClc (s : State) : Host.Outcome State Fault Refusal :=
  .next (flagOp (withC false) s)

/-- SEC (rule R136): `P.C <- 1`. -/
def execSec (s : State) : Host.Outcome State Fault Refusal :=
  .next (flagOp (withC true) s)

/-- CLI (rule R137): `P.I <- 0`. -/
def execCli (s : State) : Host.Outcome State Fault Refusal :=
  .next (flagOp (withI false) s)

/-- SEI (rule R138): `P.I <- 1`. -/
def execSei (s : State) : Host.Outcome State Fault Refusal :=
  .next (flagOp (withI true) s)

/-- CLV (rule R139): `P.V <- 0`. -/
def execClv (s : State) : Host.Outcome State Fault Refusal :=
  .next (flagOp (withV false) s)

/-- CLD (rule R140): `P.D <- 0`. -/
def execCld (s : State) : Host.Outcome State Fault Refusal :=
  .next (flagOp (withD false) s)

/-- SED (rule R141): `P.D <- 1`. -/
def execSed (s : State) : Host.Outcome State Fault Refusal :=
  .next (flagOp (withD true) s)

/-- NOP (rule R142): nothing but the opcode fetch. -/
def execNop (s : State) : Host.Outcome State Fault Refusal :=
  .next (s.setCycles 2)

/-- BRK (rule R143): the handler at the IRQ vector is entered, whatever `P.I` is, with the return address
`PC0 + 2` (one past the `PC` left by the fetch) and B and bit 5 set in the pushed status. -/
def execBrk (s : State) : Host.Outcome State Fault Refusal :=
  .next (enterHandler (s.cpu.pc + 1) (pushedByProgram s.cpu.p) irqVector s)

/-- RTI (rule R144). -/
def execRti (s : State) : Host.Outcome State Fault Refusal :=
  .next (returnFromInterrupt s)

end Sys2Proof.Machine
end

