-- ==== Sys2Proof/Machine/Undefined.lean ====
section
/-! DEFINITION. The 105 undefined opcodes (46_undefined_opcodes.md). -/

namespace Sys2Proof.Machine

/-- The halt (rule R145): `halted <- 1`, `PC` is put back to the undefined byte, 1 cycle, nothing else. All
105 bytes behave alike. -/
def execUndefined (_op : Byte) (s : State) : Host.Outcome State Fault Refusal :=
  .next (((s.setHalted true).setPc (s.cpu.pc - 1)).setCycles 1)

end Sys2Proof.Machine
end

