-- ==== Sys2Proof/Machine/Scroll.lean ====
section
/-! DEFINITION. The layout of `v` and `t` (10_state.md rule R26) and the changes the frame machine makes to
`v` (48_ppu_frame_machine.md rules R174 to R177). -/

namespace Sys2Proof.Machine

/-- coarse X, bits 4:0 -/
def coarseX (v : Scroll) : BitVec 5 := field 0 5 v
/-- coarse Y, bits 9:5 -/
def coarseY (v : Scroll) : BitVec 5 := field 5 5 v
/-- fine Y, bits 14:12 -/
def fineY (v : Scroll) : BitVec 3 := field 12 3 v

/-- The coarse X increment (rule R174). -/
def incrementCoarseX (v : Scroll) : Scroll :=
  if coarseX v = 31 then putBit 10 (!v.getLsbD 10) (putField 0 (0 : BitVec 5) v)
  else putField 0 (coarseX v + 1) v

/-- The Y increment (rule R175). -/
def incrementY (v : Scroll) : Scroll :=
  if (fineY v).toNat < 7 then putField 12 (fineY v + 1) v
  else
    let v0 := putField 12 (0 : BitVec 3) v
    if coarseY v = 29 then putBit 11 (!v.getLsbD 11) (putField 5 (0 : BitVec 5) v0)
    else if coarseY v = 31 then putField 5 (0 : BitVec 5) v0
    else putField 5 (coarseY v + 1) v0

/-- The horizontal reload (rule R176): `v[10] <- t[10]; v[4:0] <- t[4:0]`. -/
def reloadHorizontal (t v : Scroll) : Scroll := putBit 10 (t.getLsbD 10) (putField 0 (coarseX t) v)

/-- The vertical reload (rule R177): `v[14:11] <- t[14:11]; v[9:5] <- t[9:5]`. -/
def reloadVertical (t v : Scroll) : Scroll := putField 11 (field 11 4 t) (putField 5 (coarseY t) v)

end Sys2Proof.Machine
end

