-- ==== Sys2Proof/Machine/Background.lean ====
section
/-! DEFINITION. The background fetch pipeline of the frame machine (48_ppu_frame_machine.md rules R170 to
R174). -/

namespace Sys2Proof.Machine

/-- The shift of the four shifters (rule R172). -/
def shiftBackground (q : Ppu) : Ppu :=
  { q with
    bgShiftLo := q.bgShiftLo <<< 1
    bgShiftHi := q.bgShiftHi <<< 1
    atShiftLo := q.atShiftLo <<< 1
    atShiftHi := q.atShiftHi <<< 1 }

/-- The address of the nametable byte: `$2000 | (v & $0FFF)` (rule R170). -/
def nametableAddr (v : Scroll) : PpuAddr := ppuAddr (0x2000 ||| (v.toNat &&& 0x0FFF))

/-- The address of the attribute byte: `$23C0 | (v & $0C00) | ((v >> 4) & $38) | ((v >> 2) & $07)` (rule R170). -/
def attributeAddr (v : Scroll) : PpuAddr :=
  ppuAddr (((0x23C0 ||| (v.toNat &&& 0x0C00)) ||| ((v.toNat >>> 4) &&& 0x38)) ||| ((v.toNat >>> 2) &&& 0x07))

/-- The quadrant shift: `((v >> 4) & 4) | (v & 2)` (rule R170). -/
def attributeShift (v : Scroll) : Nat := ((v.toNat >>> 4) &&& 4) ||| (v.toNat &&& 2)

/-- The address of the low pattern byte: `(ctrl[4] << 12) | (nt_latch << 4) | v[14:12]` (rule R170). -/
def backgroundPatternAddr (q : Ppu) : Nat :=
  ((bit (q.ctrl.getLsbD 4) <<< 12) ||| (q.ntLatch.toNat <<< 4)) ||| (fineY q.v).toNat

/-- `nt_latch <- PpuRead($2000 | (v & $0FFF))` (rules R170, R171). -/
def fetchNametable (s : State) : State :=
  s.setPpu { s.ppu with ntLatch := ppuRead s (nametableAddr s.ppu.v) }

/-- The attribute sub-fetch (rule R170). -/
def fetchAttribute (s : State) : State :=
  let b := ppuRead s (attributeAddr s.ppu.v)
  s.setPpu { s.ppu with atLatch := field 0 2 (b >>> attributeShift s.ppu.v) }

/-- The pattern-low sub-fetch (rule R170). -/
def fetchPatternLow (s : State) : State :=
  s.setPpu { s.ppu with ptLoLatch := ppuRead s (ppuAddr (backgroundPatternAddr s.ppu)) }

/-- The pattern-high sub-fetch (rule R170). -/
def fetchPatternHigh (s : State) : State :=
  s.setPpu { s.ppu with ptHiLatch := ppuRead s (ppuAddr (backgroundPatternAddr s.ppu + 8)) }

/-- A byte of one repeated bit: `$FF if b else $00`. -/
def repeatBit (b : Bool) : Byte := if b then 0xFF else 0x00

/-- The shifter reload (rule R173). -/
def reloadShifters (q : Ppu) : Ppu :=
  { q with
    bgShiftLo := putField 0 q.ptLoLatch q.bgShiftLo
    bgShiftHi := putField 0 q.ptHiLatch q.bgShiftHi
    atShiftLo := putField 0 (repeatBit (q.atLatch.getLsbD 0)) q.atShiftLo
    atShiftHi := putField 0 (repeatBit (q.atLatch.getLsbD 1)) q.atShiftHi }

/-- The end of a tile: pattern high, then the reload (R173), then the coarse X increment (R174). -/
def finishTile (s : State) : State :=
  let s1 := fetchPatternHigh s
  let q := reloadShifters s1.ppu
  s1.setPpu { q with v := incrementCoarseX q.v }

/-- The fetch action of a dot in 1 to 256 or 321 to 336, by its phase `(d - 1) mod 8` (rule R170). -/
def backgroundFetch (s : State) : State :=
  let ph := (s.ppu.dot - 1) % 8
  if ph = 1 then fetchNametable s
  else if ph = 3 then fetchAttribute s
  else if ph = 5 then fetchPatternLow s
  else if ph = 7 then finishTile s
  else s

end Sys2Proof.Machine
end

