-- ==== Sys2Proof/Machine/Sprites.lean ====
section
/-! DEFINITION. The sprite unit of the frame machine: clear, evaluation and pattern fetch
(48_ppu_frame_machine.md rules R167 to R169). -/

namespace Sys2Proof.Machine

/-- `H`, the sprite height (rules R168, R169). -/
def Ppu.spriteHeight (q : Ppu) : Nat := if q.ctrl.getLsbD 5 then 16 else 8

/-- Byte `i` of secondary OAM. -/
def Ppu.secondaryByte (q : Ppu) (i : Nat) : Byte := q.secondaryOam[i]?.getD 0

/-- The secondary-OAM clear of dots 1 to 64 (rule R167). -/
def clearSecondary (q : Ppu) : Ppu :=
  { q with
    secondaryOam := q.secondaryOam.setIfInBounds ((q.dot - 1) / 2) 0xFF
    spriteCount := if q.dot = 1 then 0 else q.spriteCount
    sprite0Selected := if q.dot = 1 then false else q.sprite0Selected }

/-- What the evaluation pass carries from one sprite to the next (rule R168). -/
structure Evaluation where
  /-- `k`, the slots filled so far -/
  count : Nat
  /-- the slots -/
  slots : Vector Byte 32
  /-- whether sprite 0 was selected -/
  sprite0 : Bool
  /-- whether a ninth match was found -/
  overflow : Bool
  deriving DecidableEq, Repr

/-- Sprite `n` is in range of the scanline: `0 <= scanline - y < H` as integers (rule R168). -/
def spriteInRange (q : Ppu) (n : Nat) : Bool :=
  let y := (q.oam.read (4 * n)).toNat
  decide (y ≤ q.scanline) && decide (q.scanline - y < q.spriteHeight)

/-- The four bytes of sprite `n` go into slot `k`. -/
def copySprite (oam : Memory) (n k : Nat) (slots : Vector Byte 32) : Vector Byte 32 :=
  (((slots.setIfInBounds (4 * k) (oam.read (4 * n))).setIfInBounds
    (4 * k + 1) (oam.read (4 * n + 1))).setIfInBounds
    (4 * k + 2) (oam.read (4 * n + 2))).setIfInBounds
    (4 * k + 3) (oam.read (4 * n + 3))

/-- One sprite of the pass (rule R168). -/
def evaluateSprite (q : Ppu) (e : Evaluation) (n : Nat) : Evaluation :=
  if spriteInRange q n then
    if e.count < 8 then
      { e with
        count := e.count + 1
        slots := copySprite q.oam n e.count e.slots
        sprite0 := if n = 0 then true else e.sprite0 }
    else { e with overflow := true }
  else e

/-- The whole pass over sprites 0 to 63 (rule R168). -/
def evaluation (q : Ppu) : Evaluation :=
  (List.range 64).foldl (evaluateSprite q) ⟨0, q.secondaryOam, q.sprite0Selected, false⟩

/-- The sprite evaluation, one action at dot 256 (rule R168). A ninth match sets `sprite_overflow` and
`status[5]`; without one neither changes. -/
def evaluateSprites (q : Ppu) : Ppu :=
  let e := evaluation q
  { q with
    secondaryOam := e.slots
    spriteCount := e.count
    sprite0Selected := e.sprite0
    spriteOverflow := q.spriteOverflow || e.overflow
    status := if e.overflow then putBit 5 true q.status else q.status }

/-- The pattern row of a sprite with Y byte `y` (rule R169): `scanline - y`, and `(H - 1) - row` when it is
flipped vertically. Where a subtraction leaves the naturals the row is the free value of log entry 6. -/
def spriteRow (h scanline y : Nat) (flip : Bool) : Nat :=
  if scanline < y then Config.freeSpriteRow h scanline y
  else if flip then
    if scanline - y < h then h - 1 - (scanline - y) else Config.freeSpriteRow h scanline y
  else scanline - y

/-- The address of a sprite's low pattern byte (rule R169). -/
def spritePatternAddr (h : Nat) (table : Bool) (tile : Byte) (row : Nat) : Nat :=
  if h = 8 then ((bit table <<< 12) ||| (tile.toNat <<< 4)) ||| row
  else
    ((bit (tile.getLsbD 0) <<< 12) |||
      (((tile &&& 0xFE).toNat + if 8 ≤ row then 1 else 0) <<< 4)) ||| (row &&& 7)

/-- The output unit loaded from slot `i` (rule R169): both pattern reads, the horizontal flip. -/
def fetchSprite (s : State) (i : Nat) : SpriteUnit :=
  let q := s.ppu
  let attr := q.secondaryByte (4 * i + 2)
  let row := spriteRow q.spriteHeight q.scanline (q.secondaryByte (4 * i)).toNat (attr.getLsbD 7)
  let addr := spritePatternAddr q.spriteHeight (q.ctrl.getLsbD 3) (q.secondaryByte (4 * i + 1)) row
  let lo := ppuRead s (ppuAddr addr)
  let hi := ppuRead s (ppuAddr (addr + 8))
  { patLo := if attr.getLsbD 6 then bitReverse lo else lo
    patHi := if attr.getLsbD 6 then bitReverse hi else hi
    attr := attr
    x := q.secondaryByte (4 * i + 3) }

/-- Unit `i` of the sprite output units. -/
def Ppu.spriteUnit (q : Ppu) (i : Nat) : SpriteUnit := q.sprites[i]?.getD SpriteUnit.zero

/-- What the last dot of slot `i` leaves in unit `i` (rule R169). -/
def loadedUnit (s : State) (i : Nat) : SpriteUnit :=
  if i < s.ppu.spriteCount then fetchSprite s i
  else { s.ppu.spriteUnit i with patLo := 0, patHi := 0 }

/-- Dots 257 to 320 with rendering enabled (rule R169). -/
def spriteFetchDot (s : State) : State :=
  let q := s.ppu
  let i := (q.dot - 257) / 8
  s.setPpu
    { q with
      oamAddress := 0
      lineSpriteCount := if q.dot = 257 then q.spriteCount else q.lineSpriteCount
      lineHasSprite0 := if q.dot = 257 then q.sprite0Selected else q.lineHasSprite0
      sprites := if (q.dot - 257) % 8 = 7 then q.sprites.setIfInBounds i (loadedUnit s i) else q.sprites }

end Sys2Proof.Machine
end

