-- ==== Sys2Proof/Machine/PixelOut.lean ====
section
/-! DEFINITION. The pixel output and the sprite-0 hit (48_ppu_frame_machine.md rules R178, R179). -/

namespace Sys2Proof.Machine

/-- What one layer shows at a pixel: the 2-bit pattern value (0 is transparent) and the palette number. -/
structure Layer where
  value : BitVec 2
  palette : BitVec 3
  deriving DecidableEq, Repr

/-- What the sprite layer shows: the layer, the priority bit `behind` and `is0`. -/
structure SpriteLayer where
  layer : Layer
  behind : Bool
  isSprite0 : Bool
  deriving DecidableEq, Repr

/-- `(hi << 1) | lo` of two one-bit values. -/
def twoBits (hi lo : Bool) : BitVec 2 := BitVec.ofBool hi ++ BitVec.ofBool lo

/-- `bg` and `bgpal` at screen column `x` (rule R178). -/
def backgroundLayer (q : Ppu) (x : Nat) : Layer :=
  if q.mask.getLsbD 3 && (decide (8 ≤ x) || q.mask.getLsbD 1) then
    let b := 15 - q.fineX.toNat
    ⟨twoBits (q.bgShiftHi.getLsbD b) (q.bgShiftLo.getLsbD b),
     (twoBits (q.atShiftHi.getLsbD b) (q.atShiftLo.getLsbD b)).setWidth 3⟩
  else ⟨0, 0⟩

/-- What unit `i` shows at column `x`; none when the column is outside it or its pixel is transparent. -/
def unitLayer (q : Ppu) (x i : Nat) : Option SpriteLayer :=
  let u := q.spriteUnit i
  if u.x.toNat ≤ x ∧ x - u.x.toNat ≤ 7 then
    let off := x - u.x.toNat
    let p := twoBits (u.patHi.getLsbD (7 - off)) (u.patLo.getLsbD (7 - off))
    if p = 0 then none
    else some ⟨⟨p, 4 + (field 0 2 u.attr).setWidth 3⟩, u.attr.getLsbD 5, decide (i = 0) && q.lineHasSprite0⟩
  else none

/-- The sprite layer at column `x`: the lowest unit that shows a pixel wins (rule R178). -/
def spriteLayer (q : Ppu) (x : Nat) : Option SpriteLayer :=
  if q.mask.getLsbD 4 && (decide (8 ≤ x) || q.mask.getLsbD 2) then
    (List.range q.lineSpriteCount).findSome? (unitLayer q x)
  else none

/-- The palette entry a layer selects: `(palette << 2) | value`. -/
def Layer.entry (l : Layer) : Nat := (l.palette ++ l.value).toNat

/-- The palette entry of the pixel (rule R178). -/
def pixelEntry (bg : Layer) (sp : Option SpriteLayer) : Nat :=
  match sp with
  | none => if bg.value = 0 then 0 else bg.entry
  | some sl => if bg.value = 0 then sl.layer.entry else if sl.behind then bg.entry else sl.layer.entry

/-- The colour sent out: the palette entry, masked for greyscale (rule R178). -/
def Ppu.colourOut (q : Ppu) (entry : Nat) : BitVec 6 :=
  q.colour entry &&& if q.mask.getLsbD 0 then 0x30 else 0x3F

/-- The sprite-0 hit of a pixel (rule R179). -/
def sprite0Hit (bg : Layer) (sp : Option SpriteLayer) (x : Nat) : Bool :=
  match sp with
  | none => false
  | some sl => bg.value != 0 && sl.isSprite0 && decide (x ≠ 255)

/-- A pixel is handed to the presentation layer. -/
def emitPixel (s : State) (entry : Nat) : State :=
  { s with pixels := s.pixels ++ [⟨s.ppu.scanline, s.ppu.dot - 1, s.ppu.colourOut entry⟩] }

/-- The pixel output of a dot with rendering enabled (rules R178, R179). -/
def pixelDot (s : State) : State :=
  let q := s.ppu
  let x := q.dot - 1
  let bg := backgroundLayer q x
  let sp := spriteLayer q x
  let s' := emitPixel s (pixelEntry bg sp)
  if sprite0Hit bg sp x then s'.setPpu { q with status := putBit 6 true q.status } else s'

/-- The backdrop pixel of a dot with rendering disabled (rule R178). -/
def backdropDot (s : State) : State := emitPixel s 0

end Sys2Proof.Machine
end

