-- ==== Sys2Proof/Machine/Dot.lean ====
section
/-! DEFINITION. One `ppu.step()` (48_ppu_frame_machine.md rules R160 to R166, R171) and the observation of
the NMI line. -/

namespace Sys2Proof.Machine

/-- Rendering is enabled: show background or show sprites (rule R163). -/
def Ppu.rendering (q : Ppu) : Bool := q.mask.getLsbD 3 || q.mask.getLsbD 4

/-- A render line: the visible lines and the pre-render line (rule R160). -/
def isRenderLine (scanline : Nat) : Bool := decide (scanline ≤ 239) || decide (scanline = 261)

/-- VBlank entry at (241, 1) (rule R164), suppressed when port $2002 was read just before. -/
def enterVBlank (q : Ppu) : Ppu :=
  if q.vblReadLatch then q
  else { q with status := putBit 7 true q.status, nmiLine := q.nmiLine || q.ctrl.getLsbD 7 }

/-- The pre-render clear at (261, 1) (rule R166). -/
def clearFlags (q : Ppu) : Ppu :=
  { q with
    status := putBit 7 false (putBit 6 false (putBit 5 false q.status))
    spriteOverflow := false }

/-- Part 1 of the step (rule R160): the flag events. -/
def flagEvents (q : Ppu) : Ppu :=
  if q.scanline = 241 ∧ q.dot = 1 then enterVBlank q
  else if q.scanline = 261 ∧ q.dot = 1 then clearFlags q
  else q

/-- Part 2a: the sprite unit's actions that rendering does not gate. -/
def spriteUnitDot (q : Ppu) : Ppu :=
  if 1 ≤ q.dot ∧ q.dot ≤ 64 then clearSecondary q
  else if q.dot = 256 then evaluateSprites q
  else q

/-- The dots with a pixel on a visible line. -/
def Ppu.pixelTime (q : Ppu) : Bool := decide (q.scanline ≤ 239) && (decide (1 ≤ q.dot) && decide (q.dot ≤ 256))

/-- The dots in which the background pipeline works. -/
def Ppu.fetchTime (q : Ppu) : Bool :=
  (decide (1 ≤ q.dot) && decide (q.dot ≤ 256)) || (decide (321 ≤ q.dot) && decide (q.dot ≤ 336))

/-- `v` is replaced. -/
def setV (s : State) (v : Scroll) : State := s.setPpu { s.ppu with v := v }

/-- The pixel of a dot, with rendering enabled. -/
def pixelPart (s : State) : State := if s.ppu.pixelTime then pixelDot s else s

/-- The shift and the background fetch of a dot. -/
def backgroundPart (s : State) : State :=
  if s.ppu.fetchTime then backgroundFetch (s.setPpu (shiftBackground s.ppu)) else s

/-- The Y increment at dot 256 (R175) and the horizontal reload at dot 257 (R176). -/
def scrollPart (s : State) : State :=
  if s.ppu.dot = 256 then setV s (incrementY s.ppu.v)
  else if s.ppu.dot = 257 then setV s (reloadHorizontal s.ppu.t s.ppu.v)
  else s

/-- The sprite pattern fetch of dots 257 to 320 (R169). -/
def spriteFetchPart (s : State) : State :=
  if 257 ≤ s.ppu.dot ∧ s.ppu.dot ≤ 320 then spriteFetchDot s else s

/-- The vertical reload on the pre-render line (R177). -/
def verticalPart (s : State) : State :=
  if s.ppu.scanline = 261 ∧ 280 ≤ s.ppu.dot ∧ s.ppu.dot ≤ 304 then
    setV s (reloadVertical s.ppu.t s.ppu.v)
  else s

/-- The two extra nametable reads, at dots 338 and 340 (R171). -/
def extraFetchPart (s : State) : State :=
  if s.ppu.dot = 338 ∨ s.ppu.dot = 340 then fetchNametable s else s

/-- Part 2b of the step (rule R160), in the order it lists. -/
def renderedDot (s : State) : State :=
  extraFetchPart (verticalPart (spriteFetchPart (scrollPart (backgroundPart (pixelPart s)))))

/-- Part 2c of the step (rule R160): the backdrop. -/
def blankDot (s : State) : State := if s.ppu.pixelTime then backdropDot s else s

/-- Part 2 of the step on a render line. -/
def renderLineDot (s : State) : State :=
  let s' := s.setPpu (spriteUnitDot s.ppu)
  if s'.ppu.rendering then renderedDot s' else blankDot s'

/-- The advance of the position (rule R162). -/
def advance (q : Ppu) : Ppu :=
  if q.dot + 1 = 341 then
    { q with dot := 0, scanline := if q.scanline + 1 = 262 then 0 else q.scanline + 1 }
  else { q with dot := q.dot + 1 }

/-- Parts 3 and 4 of the step: the read latch is cleared and the position advances. -/
def endDot (q : Ppu) : Ppu := advance { q with vblReadLatch := false }

/-- `ppu.step()` (rule R160). -/
def ppuStep (s : State) : State :=
  let s1 := s.setPpu (flagEvents s.ppu)
  let s2 := if isRenderLine s1.ppu.scanline then renderLineDot s1 else s1
  s2.setPpu (endDot s2.ppu)

/-- `ppu.nmi_line()` (rule R165): the value observed and what the observation leaves. -/
def nmiLine (q : Ppu) : Bool × Ppu := (q.nmiLine, { q with nmiLine := false })

/-- One dot of the Clock (rule R180): `ppu.step()`, then the NMI line is observed and latched for the CPU. -/
def clockDot (s : State) : State :=
  let s1 := ppuStep s
  let r := nmiLine s1.ppu
  let s2 := s1.setPpu r.2
  if r.1 then s2.setNmiPending true else s2

/-- `repeat n times`. -/
def clockDots : Nat → State → State
  | 0, s => s
  | n + 1, s => clockDots n (clockDot s)

end Sys2Proof.Machine
end

