-- ==== Sys2Proof/Machine/Clock.lean ====
section
/-! DEFINITION. The instruction fetch, `cpu.step()` (30_encoding.md rule R60) and the Clock's `tick()`
(49_system_clock.md rule R180), and placing an instruction's bytes where the fetch reads them. -/

namespace Sys2Proof.Machine

/-- One instruction byte: `MemRead(PC, 1)`, then `PC <- (PC + 1) mod 65536` (rule R61). -/
def fetchByte (s : State) : Byte × State :=
  let r := memRead s.cpu.pc s
  (r.1, r.2.setPc (r.2.cpu.pc + 1))

/-- `n` instruction bytes in ascending address order. -/
def fetchBytes : Nat → State → List Byte × State
  | 0, s => ([], s)
  | n + 1, s =>
    let r := fetchByte s
    let rest := fetchBytes n r.2
    (r.1 :: rest.1, rest.2)

/-- The opcode byte and the operand bytes it asks for, each an ordinary bus read with its side effect
(rules R53, R61). -/
def fetchInstr (s : State) : List Byte × State :=
  let op := fetchByte s
  let rest := fetchBytes (operandCount op.1) op.2
  (op.1 :: rest.1, rest.2)

/-- Step 4 of rule R60: one instruction. -/
def instructionStep (s : State) : Host.Outcome State Fault Refusal :=
  let f := fetchInstr s
  match decode f.1 with
  | .ok (i, _) => exec i f.2
  | .error e => .fault (.decodeRejected e)

/-- The halted step (rule R146). -/
def haltedStep (s : State) : State := s.setCycles 1

/-- `cpu.step()` (rule R60): halted, then NMI, then IRQ, then one instruction. -/
def cpuStep (s : State) : Host.Outcome State Fault Refusal :=
  if s.cpu.halted then .next (haltedStep s)
  else if s.cpu.nmiPending then .next (nmiService s)
  else if irqTaken s then .next (irqService s)
  else instructionStep s

/-- The dots of a tick (rule R180): three for each cycle the CPU step returned. -/
def runPpu (s : State) : State := clockDots (3 * s.cycles) s

/-- `tick()` (rule R180): the CPU step, then its dots. The pixels of the tick before are gone. -/
def tick (s : State) : Host.Outcome State Fault Refusal :=
  match cpuStep { s with pixels := [] } with
  | .next s' => .next (runPpu s')
  | .fault f => .fault f
  | .refused r => .refused r

/-- The machine's step: a tick. A mapper other than the fixed one is refused (rule R43). -/
def machineStep (s : State) : Host.Outcome State Fault Refusal :=
  if s.params.mapperId = 0 then tick s else .refused (.unsupportedMapper s.params.mapperId)

/-! ## Placing an instruction -/

/-- The storage byte a CPU address selects becomes `b`, as a loader or harness writes it (ROM included);
none where the address selects no storage (a port, the stub, an unmapped address). -/
def placeByte (a : Word) (b : Byte) (s : State) : Option State :=
  match cpuCell s.params a with
  | .ram i => some { s with ram := s.ram.write i b }
  | .prgRam i => some { s with prgRam := s.prgRam.write i b }
  | .prg k i => some { s with prg := s.prg.write (prgIndex k i) b }
  | .port _ => none
  | .nothing => none

/-- Bytes at ascending addresses, modulo 65536. -/
def placeBytes : Word → List Byte → State → Option State
  | _, [], s => some s
  | a, b :: bs, s => (placeByte a b s).bind (placeBytes (a + 1) bs)

/-- A state whose next step fetches an instruction: not halted, no NMI pending, no IRQ that would be taken,
the fixed mapper. -/
def readyToFetch (s : State) : State :=
  { s with
    cpu := { s.cpu with halted := false, nmiPending := false }
    irqLine := s.irqLine && flagI s.cpu.p
    params := { s.params with mapperId := 0 } }

/-- The bytes are stored where the step fetches its next instruction. If `PC` (or one of the two addresses
after it) selects no storage, `PC` is first set to $0000, which is RAM. -/
def placeInstr (bytes : List Byte) (s : State) : State :=
  let r := readyToFetch s
  match placeBytes r.cpu.pc bytes r with
  | some s' => s'
  | none => (placeBytes 0 bytes (r.setPc 0)).getD r

end Sys2Proof.Machine
end

