-- ==== Sys2Proof/Machine/Step.lean ====
section
/-! DEFINITION. The machine's step, and placing an instruction where it fetches next. -/

namespace Sys2Proof.Machine

/-- One step of the machine is one `tick()` of the Clock (49_system_clock.md rule R180). -/
def step (s : State) : Host.Outcome State Fault Refusal := machineStep s

/-- `s` with the instruction whose bits are `w` stored where `step` fetches its next instruction. -/
def State.withFetchWord (s : State) (nbits w : Nat) : State := placeInstr (wordBytes nbits w) s

end Sys2Proof.Machine
end

