-- ==== Sys2Proof/Machine/Reset.lean ====
section
/-! DEFINITION. `cpu.reset()`, the reset sequence and power-on (70_reset_and_hazards.md rules R202, R203;
10_state.md rule R37). -/

namespace Sys2Proof.Machine

/-- `cpu.reset()` (rule R202): the only bus accesses are the two vector reads; 7 cycles. -/
def cpuReset (s : State) : State :=
  let r := memRead16 resetVector s
  { r.2 with
    cpu :=
      { a := s.params.resetA, x := s.params.resetX, y := s.params.resetY, sp := 0xFD, p := 0x24
        pc := r.1, nmiPending := false, halted := false }
    cycles := 7 }

/-- The reset sequence (rule R202): `cpu.reset()`, then the Clock's 21 dots. -/
def resetSequence (s : State) : State := clockDots 21 (cpuReset s)

/-- The PPU as it is created at power-on (rule R37), before the 21 dots. -/
def Ppu.powerOn (oamInit : Memory) (paletteInit : Vector (BitVec 6) 32) : Ppu :=
  { Ppu.reset with oam := oamInit, palette := paletteInit, dot := 0 }

/-- The state created at power-on with the cartridge attached (rule R203): the parameters, `PRG`, `CHR`, and
the `_INIT` contents. The CPU's fields are then set by `cpu.reset()`. -/
def created (q : Params) (prg chr ramInit vramInit oamInit : Memory) (paletteInit : Vector (BitVec 6) 32) :
    State :=
  { State.reset with
    ppu := Ppu.powerOn oamInit paletteInit
    ram := ramInit
    prg := prg
    prgRam := []
    chr := chr
    vram := vramInit
    params := q
    pixels := [] }

/-- Power-on (rule R203): creation, then the reset sequence. -/
def powerOn (q : Params) (prg chr ramInit vramInit oamInit : Memory) (paletteInit : Vector (BitVec 6) 32) :
    State :=
  resetSequence (created q prg chr ramInit vramInit oamInit paletteInit)

end Sys2Proof.Machine
end

