-- ==== Sys2Proof/Safety.lean ====
section
/-! DEFINITION. What counts as a legal state and a safe run, and the terms claims are stated in: one byte of
the machine's storage, what an access may touch, how a status byte changed. -/

namespace Sys2Proof.Machine

/-! ## Legal states -/

/-- A memory in canonical form inside its array. -/
structure Memory.Legal (size : Nat) (m : Memory) : Prop where
  wf : Memory.wf m = true
  below : Memory.below size m = true

/-- The ranges and agreements 10_state.md gives the PPU's fields: the position (R31), the counts (R30, R34),
`sprite_overflow` with `status[5]` (R30, 90_conflicts.md C7), the size of OAM (R29). -/
structure Ppu.Legal (q : Ppu) : Prop where
  scanline : q.scanline ≤ 261
  dot : q.dot ≤ 340
  spriteCount : q.spriteCount ≤ 8
  lineSpriteCount : q.lineSpriteCount ≤ 8
  overflow : q.status.getLsbD 5 = q.spriteOverflow
  oam : q.oam.Legal 256

/-- The storage arrays are in canonical form and no larger than rule R35 says (`PRG` two banks of 16384). -/
structure State.StorageLegal (s : State) : Prop where
  ram : s.ram.Legal 2048
  prg : s.prg.Legal 32768
  prgRam : s.prgRam.Legal 8192
  chr : s.chr.Legal 8192
  vram : s.vram.Legal 2048

/-- A legal state at an instruction boundary: ranges, canonical memories, and the two PPU latches that are 0
between ticks (R32: the Clock observes `nmi_line` after every dot, `vbl_read_latch` is cleared by every
dot). -/
structure State.Inv (s : State) : Prop where
  ppu : s.ppu.Legal
  storage : s.StorageLegal
  nmiLine : s.ppu.nmiLine = false
  vblReadLatch : s.ppu.vblReadLatch = false

/-- A run is safe as long as the CPU is not halted: "every claim about a program takes "`halted` = 0
throughout" as part of what it proves" (46_undefined_opcodes.md rule R147). -/
def State.Running (s : State) : Prop := s.cpu.halted = false

/-- The position in the frame as one number: `341 * scanline + dot`, 0 to 89341 in a legal state (R161). -/
def Ppu.position (q : Ppu) : Nat := 341 * q.scanline + q.dot

/-! ## One byte of storage -/

/-- The byte a CPU read at `a` would return. For an address that is not a PPU port this is the byte of
storage there (or `OPEN_BUS`), and reading it has no side effect. -/
def peek (a : Word) (s : State) : Byte := (memRead a s).1

/-- The 16-bit value at a vector, low byte first (R193). -/
def vectorWord (vec : Word) (s : State) : Word := joinBytes (peek (vec + 1) s) (peek vec s)

/-- The address selects a PPU port. -/
def isPort (q : Params) (a : Word) : Bool :=
  match cpuCell q a with
  | .port _ => true
  | .ram _ | .prgRam _ | .prg _ _ | .nothing => false

/-- The address selects a byte a CPU write can change: internal RAM or PRG RAM. -/
def isWritable (q : Params) (a : Word) : Bool :=
  match cpuCell q a with
  | .ram _ | .prgRam _ => true
  | .port _ | .prg _ _ | .nothing => false

/-- Nothing but the CPU's registers and the cycle count changed. -/
def OnlyCpu (s t : State) : Prop := t = { s with cpu := t.cpu, cycles := t.cycles }

/-- Every byte of the machine's storage reads as before: at every CPU address that is no port, at every PPU
address, in OAM; and the cartridge, the parameters, the input and the pixel output are untouched. -/
structure StorageKept (s t : State) : Prop where
  cpu : ∀ a, isPort s.params a = false → peek a t = peek a s
  ppu : ∀ a, ppuRead t a = ppuRead s a
  oam : ∀ k, t.ppu.oam.read k = s.ppu.oam.read k
  prg : t.prg = s.prg
  params : t.params = s.params
  irqLine : t.irqLine = s.irqLine
  pixels : t.pixels = s.pixels

/-- What one CPU write of `v` at `ea` leaves of storage: every byte but the one `ea` selects (under all its
mirror addresses) reads as before; that one reads `v` where it can be written; and only a write to a port
reaches the PPU, with the port's effect. -/
structure StoredAt (ea : Word) (v : Byte) (s t : State) : Prop where
  others : ∀ a, isPort s.params a = false → cpuCell s.params a ≠ cpuCell s.params ea → peek a t = peek a s
  stored : isWritable s.params ea = true → ∀ a, cpuCell s.params a = cpuCell s.params ea → peek a t = v
  readOnly : isWritable s.params ea = false → ∀ a, isPort s.params a = false → peek a t = peek a s
  noPort : isPort s.params ea = false →
    t.ppu = s.ppu ∧ ∀ a, ppuRead t a = ppuRead s a
  port : ∀ n, cpuCell s.params ea = .port n →
    t.ppu = (portWrite n v s).ppu ∧ ∀ a, ppuRead t a = ppuRead (portWrite n v s) a
  prg : t.prg = s.prg
  params : t.params = s.params
  irqLine : t.irqLine = s.irqLine
  pixels : t.pixels = s.pixels

/-! ## Operands and status bytes -/

/-- The operand of a read instruction: the immediate byte, or the byte at the effective address. -/
def operandByte (src : Src) (s : State) : Byte :=
  match src with
  | .imm b => b
  | .mem m => peek (resolve m s).addr s

/-- The cycles of a read instruction (R76, R207). -/
def operandCycles (src : Src) (s : State) : Nat :=
  match src with
  | .imm _ => 2
  | .mem m => readCycles m (resolve m s).crossed

/-- The PPU after a read instruction's data read: unchanged, unless the operand is a port. -/
def ppuAfterRead (src : Src) (s : State) : Ppu :=
  match src with
  | .imm _ => s.ppu
  | .mem m =>
    match cpuCell s.params (resolve m s).addr with
    | .port n => (portRead n s).2.ppu
    | .ram _ | .prgRam _ | .prg _ _ | .nothing => s.ppu

/-- The frame of a read instruction: storage kept, the PPU as the port read leaves it, the cycle count. -/
structure ReadFrame (src : Src) (s t : State) : Prop where
  storage : StorageKept s t
  ppu : t.ppu = ppuAfterRead src s
  cycles : t.cycles = operandCycles src s

/-- The status byte `p'` is `p` but for the flags whose bits are listed. -/
def FlagsKeptBut (bits : List Nat) (p p' : Byte) : Prop := ∀ i, i ∉ bits → p'.getLsbD i = p.getLsbD i

/-- N and Z of `p'` are those of the byte `r`, and no other bit changed. -/
def SetsNZ (r p p' : Byte) : Prop :=
  flagZ p' = decide (r = 0) ∧ flagN p' = r.getLsbD 7 ∧ FlagsKeptBut [7, 1] p p'

/-- What a register-only instruction does: the registers of `c` (all but `P`), N and Z from `r`, 2 cycles,
and nothing outside the CPU. -/
structure RegisterResult (s t : State) (c : Cpu) (r : Byte) : Prop where
  only : OnlyCpu s t
  cpu : t.cpu = { c with p := t.cpu.p }
  flags : SetsNZ r s.cpu.p t.cpu.p
  cycles : t.cycles = 2

/-- What a handler entry leaves (R143, R190): three stack bytes, `SP`, `P.I`, `PC`; 7 cycles. -/
structure HandlerEntered (ret : Word) (pushed : Byte) (vec : Word) (s t : State) : Prop where
  retHigh : peek (stackAddr s.cpu.sp) t = hiByte ret
  retLow : peek (stackAddr (s.cpu.sp - 1)) t = loByte ret
  status : peek (stackAddr (s.cpu.sp - 2)) t = pushed
  cpu : t.cpu = { s.cpu with
    sp := s.cpu.sp - 3, p := t.cpu.p, pc := joinBytes (peek (vec + 1) s) (peek vec s)
    nmiPending := t.cpu.nmiPending }
  interruptDisable : flagI t.cpu.p = true
  flags : FlagsKeptBut [2] s.cpu.p t.cpu.p
  cycles : t.cycles = 7
  others : ∀ a, isPort s.params a = false →
    (∀ k : Byte, k.toNat < 3 → cpuCell s.params a ≠ cpuCell s.params (stackAddr (s.cpu.sp - k))) →
      peek a t = peek a s
  ppu : t.ppu = s.ppu
  ppuStorage : ∀ a, ppuRead t a = ppuRead s a
  prg : t.prg = s.prg
  params : t.params = s.params
  irqLine : t.irqLine = s.irqLine
  pixels : t.pixels = s.pixels

/-- What a read-modify-write of the byte at `ea` leaves (R83, R111): one read with its side effect, then one
write of `v` at the state the read left; of the CPU only the flags change. -/
structure ModifiedAt (ea : Word) (v : Byte) (s t : State) : Prop where
  stored : StoredAt ea v (memRead ea s).2 t
  cpu : t.cpu = { s.cpu with p := t.cpu.p }

/-! ## Encoding tables -/

/-- The opcode table of an instruction with the eight accumulator modes (R84, R102 to R107), in the order of
the spec's tables: immediate, zero page, zero page,X, absolute, absolute,X, absolute,Y, (indirect,X),
(indirect),Y. -/
structure AccumulatorTable (f : Src → Instr) (im zp zpx ab abx aby izx izy : Byte) : Prop where
  im : ∀ n, encode (f (.imm n)) = some [im, n]
  zp : ∀ n, encode (f (.mem (.zp n))) = some [zp, n]
  zpx : ∀ n, encode (f (.mem (.zpx n))) = some [zpx, n]
  ab : ∀ w, encode (f (.mem (.abs w))) = some [ab, loByte w, hiByte w]
  abx : ∀ w, encode (f (.mem (.abx w))) = some [abx, loByte w, hiByte w]
  aby : ∀ w, encode (f (.mem (.aby w))) = some [aby, loByte w, hiByte w]
  izx : ∀ n, encode (f (.mem (.izx n))) = some [izx, n]
  izy : ∀ n, encode (f (.mem (.izy n))) = some [izy, n]

/-- The opcode table of a shift or rotate (R112 to R115): accumulator, zero page, zero page,X, absolute,
absolute,X. -/
structure ShiftTable (f : Dst → Instr) (acc zp zpx ab abx : Byte) : Prop where
  acc : encode (f .acc) = some [acc]
  zp : ∀ n, encode (f (.mem (.zp n))) = some [zp, n]
  zpx : ∀ n, encode (f (.mem (.zpx n))) = some [zpx, n]
  ab : ∀ w, encode (f (.mem (.abs w))) = some [ab, loByte w, hiByte w]
  abx : ∀ w, encode (f (.mem (.abx w))) = some [abx, loByte w, hiByte w]

/-- The opcode table of INC or DEC (R116, R117): zero page, zero page,X, absolute, absolute,X. -/
structure IncDecTable (f : Addr → Instr) (zp zpx ab abx : Byte) : Prop where
  zp : ∀ n, encode (f (.zp n)) = some [zp, n]
  zpx : ∀ n, encode (f (.zpx n)) = some [zpx, n]
  ab : ∀ w, encode (f (.abs w)) = some [ab, loByte w, hiByte w]
  abx : ∀ w, encode (f (.abx w)) = some [abx, loByte w, hiByte w]

/-- The opcode table of CPX or CPY (R108, R109): immediate, zero page, absolute. -/
structure CompareIndexTable (f : Src → Instr) (im zp ab : Byte) : Prop where
  im : ∀ n, encode (f (.imm n)) = some [im, n]
  zp : ∀ n, encode (f (.mem (.zp n))) = some [zp, n]
  ab : ∀ w, encode (f (.mem (.abs w))) = some [ab, loByte w, hiByte w]

end Sys2Proof.Machine
end

