-- ==== Sys2Proof/Certificates/Slice0/Obligations.lean ====
section
/-! DEFINITION. The statements for the provers. Each cites the rules of spec/ it formalises in OBLIGATIONS.json.
In a statement about `exec`, `PC` of the state is the address after the instruction's bytes (the fetch moved it);
`StepRunsTheInstructionAtPc` joins such statements to `step`. -/

open Sys2Proof Sys2Proof.Machine

/-! ## Encoding and decoding -/

/-- Decoding what the encoder gives is the instruction again, with whatever follows it left over (R61, R77). -/
def Obligations.DecodeOfEncodeIsTheInstruction : Prop :=
  ∀ i : Instr, i.WellFormed →
    ∃ bs, encode i = some bs ∧ bs.length = i.length ∧ ∀ rest, decode (bs ++ rest) = .ok (i, rest)

/-- Encoding what the decoder reads gives the bytes it read, and only instructions of the machine are read. -/
def Obligations.EncodeOfDecodeIsTheBytes : Prop :=
  ∀ (bs rest : List Byte) (i : Instr), decode bs = .ok (i, rest) →
    i.WellFormed ∧ ∃ hd, encode i = some hd ∧ bs = hd ++ rest

/-- Words written out from the spec's tables decode to the instructions they stand for. -/
def Obligations.WrittenOutWordsDecode : Prop :=
  decodeTableWord 16 0x80A9 = some (.lda (.imm 0x80)) ∧ decodeTableWord 24 0x20008D = some (.sta (.abs 0x2000)) ∧
    decodeTableWord 16 0x10B6 = some (.ldx (.mem (.zpy 0x10))) ∧ decodeTableWord 8 0x08 = some .php ∧
    decodeTableWord 16 0x10F1 = some (.sbc (.mem (.izy 0x10))) ∧ decodeTableWord 8 0x6A = some (.ror .acc) ∧
    decodeTableWord 24 0x12346C = some (.jmp (.ind 0x1234)) ∧ decodeTableWord 16 0xFBD0 = some (.bne 0xFB) ∧
    decodeTableWord 8 0x40 = some .rti ∧ decodeTableWord 8 0x02 = some (.undefined 0x02)

/-- An opcode byte is undefined exactly when it is one of the 105 of R78, all different; 151 are defined; and an
undefined byte is an instruction of one byte. -/
def Obligations.UndefinedOpcodesAreThe105 : Prop :=
  undefinedOpcodes.length = 105 ∧ undefinedOpcodes.Nodup ∧
    ((List.range 256).filter fun n => !undefinedOpcodes.contains (BitVec.ofNat 8 n)).length = 151 ∧
    ∀ (op : Byte) (rest : List Byte) (i : Instr) (r : List Byte), decode (op :: rest) = .ok (i, r) →
      ((∃ b, i = .undefined b) ↔ op ∈ undefinedOpcodes) ∧ (op ∈ undefinedOpcodes → i = .undefined op ∧ r = rest)

/-! ## The step -/

/-- A step runs the decoded instruction: `step` is `exec` of what the fetched bytes decode to, on the state the fetch
leaves, then three dots for each cycle `exec` took. Every bus read of the fetch has its side effect. -/
def Obligations.StepRunsTheDecodedInstruction : Prop :=
  ∀ (s t : State) (i : Instr) (rest : List Byte), s.params.mapperId = 0 → s.cpu.halted = false →
    s.cpu.nmiPending = false → ¬ (s.irqLine = true ∧ flagI s.cpu.p = false) →
    decode (fetchInstr { s with pixels := [] }).1 = .ok (i, rest) →
    exec i (fetchInstr { s with pixels := [] }).2 = .next t →
    step s = .next (clockDots (3 * t.cycles) t)

/-- The same for bytes in storage: if the bytes at `PC` (none of them a port) are those of the instruction `i`, the step
is `exec i` with `PC` moved past them and nothing else changed, then the dots. -/
def Obligations.StepRunsTheInstructionAtPc : Prop :=
  ∀ (s t : State) (i : Instr) (bs : List Byte), s.params.mapperId = 0 → s.cpu.halted = false →
    s.cpu.nmiPending = false → ¬ (s.irqLine = true ∧ flagI s.cpu.p = false) →
    encode i = some bs →
    (∀ (k : Nat) (h : k < bs.length), isPort s.params (s.cpu.pc + BitVec.ofNat 16 k) = false ∧
      peek (s.cpu.pc + BitVec.ofNat 16 k) s = bs[k]) →
    exec i ({ s with pixels := [] }.setPc (s.cpu.pc + BitVec.ofNat 16 i.length)) = .next t →
    step s = .next (clockDots (3 * t.cycles) t)

/-- Every state of the fixed mapper has a successor: a tick, which takes 1 to 7 cycles and advances the PPU by exactly three
dots for each, around the frame of 89342 dots, its position in range again. Any other mapper is refused by name: that the
step itself refuses it is the model's choice (log entry 8, DEDUCED from R43; 92_eei_decisions.md D20 puts the refusal at
load). -/
def Obligations.TickAlwaysAnswersAndRunsThreeDotsPerCycle : Prop :=
  ∀ s : State,
    (s.params.mapperId = 0 → s.ppu.scanline ≤ 261 → s.ppu.dot ≤ 340 →
      ∃ t, step s = .next t ∧ 1 ≤ t.cycles ∧ t.cycles ≤ 7 ∧ t.ppu.scanline ≤ 261 ∧ t.ppu.dot ≤ 340 ∧
        t.ppu.position = (s.ppu.position + 3 * t.cycles) % 89342) ∧
    (s.params.mapperId ≠ 0 → step s = .refused (.unsupportedMapper s.params.mapperId))

/-- What is tested at an instruction boundary, in this order: halted, NMI, IRQ (only with `P.I` = 0), the instruction. -/
def Obligations.InterruptPriorityAtTheBoundary : Prop :=
  ∀ s : State,
    (s.cpu.halted = true → cpuStep s = .next (s.setCycles 1)) ∧
    (s.cpu.halted = false → s.cpu.nmiPending = true → ∃ t, cpuStep s = .next t ∧ t.cpu.pc = vectorWord 0xFFFA s ∧
      t.cpu.nmiPending = false ∧ t.cycles = 7) ∧
    (s.cpu.halted = false → s.cpu.nmiPending = false → s.irqLine = true → flagI s.cpu.p = false →
      ∃ t, cpuStep s = .next t ∧ t.cpu.pc = vectorWord 0xFFFE s ∧ t.irqLine = true ∧ t.cycles = 7) ∧
    (s.cpu.halted = false → s.cpu.nmiPending = false → (s.irqLine = false ∨ flagI s.cpu.p = true) →
      ∃ i, decode (fetchInstr s).1 = .ok (i, []) ∧ i.WellFormed ∧
        (fetchInstr s).2.cpu.pc = s.cpu.pc + BitVec.ofNat 16 i.length ∧ cpuStep s = exec i (fetchInstr s).2)

/-! ## Invariants and whole-machine rules -/

/-- The state after reset is legal. -/
def Obligations.ResetIsLegal : Prop := State.reset.Inv

/-- Every step keeps a legal state legal: the position and counts in range, `sprite_overflow` equal to `status[5]`,
every memory canonical and inside its array, the two PPU latches 0 between ticks. -/
def Obligations.StepKeepsLegal : Prop := ∀ s t : State, s.Inv → step s = .next t → t.Inv

/-- Bits 5 and 4 of `P` are storage that no step writes (R18); PRG and a read-only CHR never change. That the parameters and
the input `irq_line` stand in the state and no step changes them is the model's choice (log entry 3, DESIGN CHOICE, and
log entry 5, DEDUCED). -/
def Obligations.StepKeepsConstantBitsAndCartridge : Prop :=
  ∀ s t : State, step s = .next t →
    t.cpu.p.getLsbD 5 = s.cpu.p.getLsbD 5 ∧ t.cpu.p.getLsbD 4 = s.cpu.p.getLsbD 4 ∧
      t.prg = s.prg ∧ t.params = s.params ∧ t.irqLine = s.irqLine ∧
      (s.params.chrWritable = false → t.chr = s.chr)

/-- Only an undefined opcode halts the CPU, and no step takes it out of the halt. -/
def Obligations.OnlyAnUndefinedOpcodeHalts : Prop :=
  ∀ s t : State, step s = .next t →
    (s.cpu.halted = true → t.cpu.halted = true) ∧
    (s.cpu.halted = false → t.cpu.halted = true →
      s.cpu.nmiPending = false ∧ ¬ (s.irqLine = true ∧ flagI s.cpu.p = false) ∧
        peek s.cpu.pc s ∈ undefinedOpcodes ∧ t.cpu.pc = s.cpu.pc)

/-- While halted a step is three dots and nothing else: no bus access, so no port's side effect; no CPU state changes but
`nmi_pending`, which the dots can only set; memory stays; 1 cycle. -/
def Obligations.HaltedStepOnlyRunsThePpu : Prop :=
  ∀ s : State, s.Inv → s.params.mapperId = 0 → s.cpu.halted = true →
    ∃ t, step s = .next t ∧ t = clockDots 3 { s with pixels := [], cycles := 1 } ∧
      t.cpu = { s.cpu with nmiPending := t.cpu.nmiPending } ∧
      (s.cpu.nmiPending = true → t.cpu.nmiPending = true) ∧ t.cycles = 1 ∧
      t.ppu.position = (s.ppu.position + 3) % 89342 ∧ t.ram = s.ram ∧ t.prgRam = s.prgRam ∧ t.chr = s.chr ∧
      t.vram = s.vram ∧ t.ppu.oam = s.ppu.oam ∧ t.ppu.palette = s.ppu.palette

/-- A new NMI request comes only from the dot (241, 1) of the frame, with `ctrl[7]` set. -/
def Obligations.NmiIsRaisedOnlyAtVBlankEntry : Prop :=
  ∀ s t : State, s.Inv → step s = .next t → s.cpu.nmiPending = false → t.cpu.nmiPending = true →
    t.ppu.ctrl.getLsbD 7 = true ∧
      ∃ k, k < 3 * t.cycles ∧ (s.ppu.position + k) % 89342 = 341 * 241 + 1

/-! ## Interrupt entry and return -/

/-- NMI service, and IRQ service when no NMI is pending, `irq_line` is true and `P.I` is 0: the entry at $FFFA or $FFFE with
the address of the instruction not yet fetched and a status copy with B = 0 and bit 5 = 1; an NMI request is
consumed, and no other register changes. -/
def Obligations.InterruptServiceEntersTheHandler : Prop :=
  ∀ s : State, s.StorageLegal → s.cpu.halted = false →
    (s.cpu.nmiPending = true →
      ∃ (t : State) (b : Byte), cpuStep s = .next t ∧ HandlerEntered s.cpu.pc b 0xFFFA s t ∧
        b.getLsbD 4 = false ∧ b.getLsbD 5 = true ∧ FlagsKeptBut [5, 4] s.cpu.p b ∧ t.cpu.nmiPending = false) ∧
    (s.cpu.nmiPending = false → s.irqLine = true → flagI s.cpu.p = false →
      ∃ (t : State) (b : Byte), cpuStep s = .next t ∧ HandlerEntered s.cpu.pc b 0xFFFE s t ∧
        b.getLsbD 4 = false ∧ b.getLsbD 5 = true ∧ FlagsKeptBut [5, 4] s.cpu.p b ∧ t.cpu.nmiPending = false)

/-- BRK, whose opcode is at `pc0`: the entry at $FFFE with return address `pc0 + 2` and B = 1 and bit 5 = 1 in the pushed
status, whatever `P.I` is. -/
def Obligations.BrkEntersTheHandler : Prop :=
  encode .brk = some [0x00] ∧
  ∀ (s : State) (pc0 : Word), s.StorageLegal → s.cpu.pc = pc0 + 1 →
    ∃ (t : State) (b : Byte), exec .brk s = .next t ∧ HandlerEntered (pc0 + 2) b 0xFFFE s t ∧
      b.getLsbD 4 = true ∧ b.getLsbD 5 = true ∧ FlagsKeptBut [5, 4] s.cpu.p b ∧
      t.cpu.nmiPending = s.cpu.nmiPending

/-- RTI: the status from the first pulled byte (bits 5 and 4 stay), then the exact return address, low byte first;
nothing else changes. -/
def Obligations.RtiRestoresStatusAndPc : Prop :=
  encode .rti = some [0x40] ∧
  ∀ s : State, ∃ t, exec .rti s = .next t ∧ OnlyCpu s t ∧ t.cycles = 6 ∧
    t.cpu = { s.cpu with
      sp := s.cpu.sp + 3, p := t.cpu.p
      pc := joinBytes (peek (stackAddr (s.cpu.sp + 3)) s) (peek (stackAddr (s.cpu.sp + 2)) s) } ∧
    FlagsKeptBut [5, 4] (peek (stackAddr (s.cpu.sp + 1)) s) t.cpu.p ∧
    t.cpu.p.getLsbD 5 = s.cpu.p.getLsbD 5 ∧ t.cpu.p.getLsbD 4 = s.cpu.p.getLsbD 4

/-- RTI undoes an NMI or IRQ entry exactly: every register of the interrupted code is back. -/
def Obligations.RtiUndoesAnInterruptEntry : Prop :=
  ∀ s : State, s.StorageLegal → s.cpu.halted = false →
    (s.cpu.nmiPending = true ∨ (s.irqLine = true ∧ flagI s.cpu.p = false)) →
    ∃ t u, cpuStep s = .next t ∧ exec .rti t = .next u ∧ u.cpu = { s.cpu with nmiPending := false }

/-! ## Stack instructions -/

/-- PHA and PHP: one byte at `$0100 + SP`, then `SP` minus 1; PHP pushes `P` with bits 5 and 4 set. -/
def Obligations.PushesWriteTheStack : Prop :=
  encode .pha = some [0x48] ∧ encode .php = some [0x08] ∧
  ∀ s : State, s.StorageLegal →
    (∃ t, exec .pha s = .next t ∧ StoredAt (stackAddr s.cpu.sp) s.cpu.a s t ∧
      peek (stackAddr s.cpu.sp) t = s.cpu.a ∧ t.cpu = { s.cpu with sp := s.cpu.sp - 1 } ∧ t.cycles = 3) ∧
    (∃ (t : State) (b : Byte), exec .php s = .next t ∧ StoredAt (stackAddr s.cpu.sp) b s t ∧
      peek (stackAddr s.cpu.sp) t = b ∧ b.getLsbD 5 = true ∧ b.getLsbD 4 = true ∧
      FlagsKeptBut [5, 4] s.cpu.p b ∧ t.cpu = { s.cpu with sp := s.cpu.sp - 1 } ∧ t.cycles = 3)

/-- PLA and PLP: `SP` plus 1, then the byte at `$0100 + SP`; PLP leaves bits 5 and 4 of `P`. -/
def Obligations.PullsReadTheStack : Prop :=
  encode .pla = some [0x68] ∧ encode .plp = some [0x28] ∧
  ∀ s : State,
    (∃ t, exec .pla s = .next t ∧ OnlyCpu s t ∧ t.cycles = 4 ∧
      t.cpu = { s.cpu with sp := s.cpu.sp + 1, a := peek (stackAddr (s.cpu.sp + 1)) s, p := t.cpu.p } ∧
      SetsNZ (peek (stackAddr (s.cpu.sp + 1)) s) s.cpu.p t.cpu.p) ∧
    (∃ t, exec .plp s = .next t ∧ OnlyCpu s t ∧ t.cycles = 4 ∧
      t.cpu = { s.cpu with sp := s.cpu.sp + 1, p := t.cpu.p } ∧
      FlagsKeptBut [5, 4] (peek (stackAddr (s.cpu.sp + 1)) s) t.cpu.p ∧
      t.cpu.p.getLsbD 5 = s.cpu.p.getLsbD 5 ∧ t.cpu.p.getLsbD 4 = s.cpu.p.getLsbD 4)

/-! ## Loads, stores, transfers -/

/-- LDA, LDX, LDY in every form: the operand into the register, N and Z from it, no other register or flag, and of the
rest of the machine only what the operand read itself does to a PPU port. -/
def Obligations.LoadsPutTheOperandInTheRegister : Prop :=
  AccumulatorTable .lda 0xA9 0xA5 0xB5 0xAD 0xBD 0xB9 0xA1 0xB1 ∧
  (∀ n w, encode (.ldx (.imm n)) = some [0xA2, n] ∧ encode (.ldx (.mem (.zp n))) = some [0xA6, n] ∧
    encode (.ldx (.mem (.zpy n))) = some [0xB6, n] ∧
    encode (.ldx (.mem (.abs w))) = some [0xAE, loByte w, hiByte w] ∧
    encode (.ldx (.mem (.aby w))) = some [0xBE, loByte w, hiByte w]) ∧
  (∀ n w, encode (.ldy (.imm n)) = some [0xA0, n] ∧ encode (.ldy (.mem (.zp n))) = some [0xA4, n] ∧
    encode (.ldy (.mem (.zpx n))) = some [0xB4, n] ∧
    encode (.ldy (.mem (.abs w))) = some [0xAC, loByte w, hiByte w] ∧
    encode (.ldy (.mem (.abx w))) = some [0xBC, loByte w, hiByte w]) ∧
  ∀ (src : Src) (s : State),
    (∃ t, exec (.lda src) s = .next t ∧ t.cpu = { s.cpu with a := operandByte src s, p := t.cpu.p } ∧
      SetsNZ (operandByte src s) s.cpu.p t.cpu.p ∧ ReadFrame src s t) ∧
    (∃ t, exec (.ldx src) s = .next t ∧ t.cpu = { s.cpu with x := operandByte src s, p := t.cpu.p } ∧
      SetsNZ (operandByte src s) s.cpu.p t.cpu.p ∧ ReadFrame src s t) ∧
    (∃ t, exec (.ldy src) s = .next t ∧ t.cpu = { s.cpu with y := operandByte src s, p := t.cpu.p } ∧
      SetsNZ (operandByte src s) s.cpu.p t.cpu.p ∧ ReadFrame src s t)

/-- STA, STX, STY in every form: one write of the register at the effective address, no register and no flag changed, no
other byte of storage changed. -/
def Obligations.StoresWriteTheRegister : Prop :=
  (∀ n w, encode (.sta (.zp n)) = some [0x85, n] ∧ encode (.sta (.zpx n)) = some [0x95, n] ∧
    encode (.sta (.abs w)) = some [0x8D, loByte w, hiByte w] ∧
    encode (.sta (.abx w)) = some [0x9D, loByte w, hiByte w] ∧
    encode (.sta (.aby w)) = some [0x99, loByte w, hiByte w] ∧
    encode (.sta (.izx n)) = some [0x81, n] ∧ encode (.sta (.izy n)) = some [0x91, n]) ∧
  (∀ n w, encode (.stx (.zp n)) = some [0x86, n] ∧ encode (.stx (.zpy n)) = some [0x96, n] ∧
    encode (.stx (.abs w)) = some [0x8E, loByte w, hiByte w]) ∧
  (∀ n w, encode (.sty (.zp n)) = some [0x84, n] ∧ encode (.sty (.zpx n)) = some [0x94, n] ∧
    encode (.sty (.abs w)) = some [0x8C, loByte w, hiByte w]) ∧
  ∀ (m : Addr) (s : State), s.StorageLegal →
    (∃ t, exec (.sta m) s = .next t ∧ StoredAt (resolve m s).addr s.cpu.a s t ∧ t.cpu = s.cpu ∧
      t.cycles = writeCycles m) ∧
    (∃ t, exec (.stx m) s = .next t ∧ StoredAt (resolve m s).addr s.cpu.x s t ∧ t.cpu = s.cpu ∧
      t.cycles = writeCycles m) ∧
    (∃ t, exec (.sty m) s = .next t ∧ StoredAt (resolve m s).addr s.cpu.y s t ∧ t.cpu = s.cpu ∧
      t.cycles = writeCycles m)

/-- The six transfers, INX, INY, DEX and DEY: the register moved, or plus or minus 1 modulo 256; N and Z from it (TXS: no
flag); C and V untouched; 2 cycles; nothing else. -/
def Obligations.RegisterTransfersAndCounts : Prop :=
  (encode .tax = some [0xAA] ∧ encode .tay = some [0xA8] ∧ encode .txa = some [0x8A] ∧ encode .tya = some [0x98] ∧
    encode .tsx = some [0xBA] ∧ encode .txs = some [0x9A]) ∧
  (encode .inx = some [0xE8] ∧ encode .iny = some [0xC8] ∧ encode .dex = some [0xCA] ∧ encode .dey = some [0x88]) ∧
  ∀ s : State,
    (∃ t, exec .tax s = .next t ∧ RegisterResult s t { s.cpu with x := s.cpu.a } s.cpu.a) ∧
    (∃ t, exec .tay s = .next t ∧ RegisterResult s t { s.cpu with y := s.cpu.a } s.cpu.a) ∧
    (∃ t, exec .txa s = .next t ∧ RegisterResult s t { s.cpu with a := s.cpu.x } s.cpu.x) ∧
    (∃ t, exec .tya s = .next t ∧ RegisterResult s t { s.cpu with a := s.cpu.y } s.cpu.y) ∧
    (∃ t, exec .tsx s = .next t ∧ RegisterResult s t { s.cpu with x := s.cpu.sp } s.cpu.sp) ∧
    exec .txs s = .next { s with cpu := { s.cpu with sp := s.cpu.x }, cycles := 2 } ∧
    (∃ t, exec .inx s = .next t ∧ t.cpu.x.toNat = (s.cpu.x.toNat + 1) % 256 ∧
      RegisterResult s t { s.cpu with x := t.cpu.x } t.cpu.x) ∧
    (∃ t, exec .iny s = .next t ∧ t.cpu.y.toNat = (s.cpu.y.toNat + 1) % 256 ∧
      RegisterResult s t { s.cpu with y := t.cpu.y } t.cpu.y) ∧
    (∃ t, exec .dex s = .next t ∧ t.cpu.x.toNat = (s.cpu.x.toNat + 255) % 256 ∧
      RegisterResult s t { s.cpu with x := t.cpu.x } t.cpu.x) ∧
    (∃ t, exec .dey s = .next t ∧ t.cpu.y.toNat = (s.cpu.y.toNat + 255) % 256 ∧
      RegisterResult s t { s.cpu with y := t.cpu.y } t.cpu.y)

/-! ## Logic, arithmetic, compare -/

/-- ORA, AND, EOR in every form: bit by bit the or, and, exclusive or of `A` and the operand; N and Z from it. -/
def Obligations.LogicInstructionsCombineBitwise : Prop :=
  AccumulatorTable .ora 0x09 0x05 0x15 0x0D 0x1D 0x19 0x01 0x11 ∧
  AccumulatorTable .and 0x29 0x25 0x35 0x2D 0x3D 0x39 0x21 0x31 ∧
  AccumulatorTable .eor 0x49 0x45 0x55 0x4D 0x5D 0x59 0x41 0x51 ∧
  ∀ (src : Src) (s : State),
    (∃ t, exec (.ora src) s = .next t ∧ t.cpu = { s.cpu with a := t.cpu.a, p := t.cpu.p } ∧
      (∀ i, t.cpu.a.getLsbD i = (s.cpu.a.getLsbD i || (operandByte src s).getLsbD i)) ∧
      SetsNZ t.cpu.a s.cpu.p t.cpu.p ∧ ReadFrame src s t) ∧
    (∃ t, exec (.and src) s = .next t ∧ t.cpu = { s.cpu with a := t.cpu.a, p := t.cpu.p } ∧
      (∀ i, t.cpu.a.getLsbD i = (s.cpu.a.getLsbD i && (operandByte src s).getLsbD i)) ∧
      SetsNZ t.cpu.a s.cpu.p t.cpu.p ∧ ReadFrame src s t) ∧
    (∃ t, exec (.eor src) s = .next t ∧ t.cpu = { s.cpu with a := t.cpu.a, p := t.cpu.p } ∧
      (∀ i, t.cpu.a.getLsbD i = (s.cpu.a.getLsbD i ^^ (operandByte src s).getLsbD i)) ∧
      SetsNZ t.cpu.a s.cpu.p t.cpu.p ∧ ReadFrame src s t)

/-- ADC in every form: `A + m + C` in binary whatever D is; C the carry out of the byte, V the signed overflow (the rule's
bit formula, and the sum outside -128 to 127), N and Z from the result. -/
def Obligations.AdcAddsWithCarry : Prop :=
  AccumulatorTable .adc 0x69 0x65 0x75 0x6D 0x7D 0x79 0x61 0x71 ∧
  ∀ (src : Src) (s : State), ∃ t, exec (.adc src) s = .next t ∧
    t.cpu = { s.cpu with a := t.cpu.a, p := t.cpu.p } ∧
    let m := operandByte src s
    let c := if flagC s.cpu.p then 1 else 0
    t.cpu.a.toNat = (s.cpu.a.toNat + m.toNat + c) % 256 ∧
    flagC t.cpu.p = decide (256 ≤ s.cpu.a.toNat + m.toNat + c) ∧
    flagV t.cpu.p = (((s.cpu.a ^^^ t.cpu.a) &&& (m ^^^ t.cpu.a)) &&& 0x80 != 0) ∧
    (flagV t.cpu.p = true ↔ s.cpu.a.toInt + m.toInt + (c : Int) < -128 ∨ 127 < s.cpu.a.toInt + m.toInt + (c : Int)) ∧
    flagZ t.cpu.p = decide (t.cpu.a = 0) ∧ flagN t.cpu.p = t.cpu.a.getLsbD 7 ∧
    FlagsKeptBut [7, 6, 1, 0] s.cpu.p t.cpu.p ∧ ReadFrame src s t

/-- SBC in every form: `A - m - (1 - C)`; C = 1 exactly when there is no borrow, V the signed overflow. -/
def Obligations.SbcSubtractsWithBorrow : Prop :=
  AccumulatorTable .sbc 0xE9 0xE5 0xF5 0xED 0xFD 0xF9 0xE1 0xF1 ∧
  ∀ (src : Src) (s : State), ∃ t, exec (.sbc src) s = .next t ∧
    t.cpu = { s.cpu with a := t.cpu.a, p := t.cpu.p } ∧
    let m := operandByte src s
    let b := if flagC s.cpu.p then 0 else 1
    t.cpu.a.toNat = (256 + s.cpu.a.toNat - m.toNat - b) % 256 ∧
    flagC t.cpu.p = decide (m.toNat + b ≤ s.cpu.a.toNat) ∧
    flagV t.cpu.p = (((s.cpu.a ^^^ m) &&& (s.cpu.a ^^^ t.cpu.a)) &&& 0x80 != 0) ∧
    (flagV t.cpu.p = true ↔ s.cpu.a.toInt - m.toInt - (b : Int) < -128 ∨ 127 < s.cpu.a.toInt - m.toInt - (b : Int)) ∧
    flagZ t.cpu.p = decide (t.cpu.a = 0) ∧ flagN t.cpu.p = t.cpu.a.getLsbD 7 ∧
    FlagsKeptBut [7, 6, 1, 0] s.cpu.p t.cpu.p ∧ ReadFrame src s t

/-- CMP, CPX, CPY in every form: C is the unsigned `r >= m`, Z is `r == m`, N is bit 7 of the difference modulo 256; no
register is written and V stays. -/
def Obligations.ComparesSetOnlyFlags : Prop :=
  AccumulatorTable .cmp 0xC9 0xC5 0xD5 0xCD 0xDD 0xD9 0xC1 0xD1 ∧
  CompareIndexTable .cpx 0xE0 0xE4 0xEC ∧ CompareIndexTable .cpy 0xC0 0xC4 0xCC ∧
  ∀ (src : Src) (s : State),
    (∃ t, exec (.cmp src) s = .next t ∧ t.cpu = { s.cpu with p := t.cpu.p } ∧
      flagC t.cpu.p = decide ((operandByte src s).toNat ≤ s.cpu.a.toNat) ∧
      flagZ t.cpu.p = decide (s.cpu.a = operandByte src s) ∧
      flagN t.cpu.p = decide (128 ≤ (256 + s.cpu.a.toNat - (operandByte src s).toNat) % 256) ∧
      FlagsKeptBut [7, 1, 0] s.cpu.p t.cpu.p ∧ ReadFrame src s t) ∧
    (∃ t, exec (.cpx src) s = .next t ∧ t.cpu = { s.cpu with p := t.cpu.p } ∧
      flagC t.cpu.p = decide ((operandByte src s).toNat ≤ s.cpu.x.toNat) ∧
      flagZ t.cpu.p = decide (s.cpu.x = operandByte src s) ∧
      flagN t.cpu.p = decide (128 ≤ (256 + s.cpu.x.toNat - (operandByte src s).toNat) % 256) ∧
      FlagsKeptBut [7, 1, 0] s.cpu.p t.cpu.p ∧ ReadFrame src s t) ∧
    (∃ t, exec (.cpy src) s = .next t ∧ t.cpu = { s.cpu with p := t.cpu.p } ∧
      flagC t.cpu.p = decide ((operandByte src s).toNat ≤ s.cpu.y.toNat) ∧
      flagZ t.cpu.p = decide (s.cpu.y = operandByte src s) ∧
      flagN t.cpu.p = decide (128 ≤ (256 + s.cpu.y.toNat - (operandByte src s).toNat) % 256) ∧
      FlagsKeptBut [7, 1, 0] s.cpu.p t.cpu.p ∧ ReadFrame src s t)

/-- BIT: Z from `A & m`, N and V from bits 7 and 6 of `m`; `A` and the other flags stay. -/
def Obligations.BitTestsMemory : Prop :=
  (∀ n w, encode (.bit (.zp n)) = some [0x24, n] ∧
    encode (.bit (.abs w)) = some [0x2C, loByte w, hiByte w]) ∧
  ∀ (m : Addr) (s : State), ∃ t, exec (.bit m) s = .next t ∧ t.cpu = { s.cpu with p := t.cpu.p } ∧
    (flagZ t.cpu.p = true ↔
      ∀ i, ¬ (s.cpu.a.getLsbD i = true ∧ (operandByte (.mem m) s).getLsbD i = true)) ∧
    flagN t.cpu.p = (operandByte (.mem m) s).getLsbD 7 ∧ flagV t.cpu.p = (operandByte (.mem m) s).getLsbD 6 ∧
    FlagsKeptBut [7, 6, 1] s.cpu.p t.cpu.p ∧ ReadFrame (.mem m) s t

/-! ## Shifts, rotates, increments -/

/-- ASL and ROL, of the accumulator (2 cycles, no data access) and of a byte `x` of memory (one read and one write of the
result at the same address, the fixed cycle count): times 2, ROL with the old carry in; C is the old bit 7, N and Z
from the result. -/
def Obligations.AslAndRolShiftLeft : Prop :=
  ShiftTable .asl 0x0A 0x06 0x16 0x0E 0x1E ∧ ShiftTable .rol 0x2A 0x26 0x36 0x2E 0x3E ∧
  (∀ s : State,
    let a := s.cpu.a.toNat
    let c := if flagC s.cpu.p then 1 else 0
    (∃ t, exec (.asl .acc) s = .next t ∧ OnlyCpu s t ∧ t.cpu = { s.cpu with a := t.cpu.a, p := t.cpu.p } ∧
      t.cpu.a.toNat = 2 * a % 256 ∧ flagC t.cpu.p = decide (128 ≤ a) ∧ flagZ t.cpu.p = decide (t.cpu.a = 0) ∧
      flagN t.cpu.p = t.cpu.a.getLsbD 7 ∧ FlagsKeptBut [7, 1, 0] s.cpu.p t.cpu.p ∧ t.cycles = 2) ∧
    (∃ t, exec (.rol .acc) s = .next t ∧ OnlyCpu s t ∧ t.cpu = { s.cpu with a := t.cpu.a, p := t.cpu.p } ∧
      t.cpu.a.toNat = (2 * a + c) % 256 ∧ flagC t.cpu.p = decide (128 ≤ a) ∧ flagZ t.cpu.p = decide (t.cpu.a = 0) ∧
      flagN t.cpu.p = t.cpu.a.getLsbD 7 ∧ FlagsKeptBut [7, 1, 0] s.cpu.p t.cpu.p ∧ t.cycles = 2)) ∧
  ∀ (m : Addr) (s : State), s.StorageLegal →
    let ea := (resolve m s).addr
    let x := (peek ea s).toNat
    let c := if flagC s.cpu.p then 1 else 0
    (∃ (t : State) (r : Byte), exec (.asl (.mem m)) s = .next t ∧ ModifiedAt ea r s t ∧
      r.toNat = 2 * x % 256 ∧ flagC t.cpu.p = decide (128 ≤ x) ∧ flagZ t.cpu.p = decide (r = 0) ∧
      flagN t.cpu.p = r.getLsbD 7 ∧ FlagsKeptBut [7, 1, 0] s.cpu.p t.cpu.p ∧ t.cycles = modifyCycles m) ∧
    (∃ (t : State) (r : Byte), exec (.rol (.mem m)) s = .next t ∧ ModifiedAt ea r s t ∧
      r.toNat = (2 * x + c) % 256 ∧ flagC t.cpu.p = decide (128 ≤ x) ∧ flagZ t.cpu.p = decide (r = 0) ∧
      flagN t.cpu.p = r.getLsbD 7 ∧ FlagsKeptBut [7, 1, 0] s.cpu.p t.cpu.p ∧ t.cycles = modifyCycles m)

/-- LSR and ROR, of the accumulator and of a byte `x` of memory: half, ROR with the old carry in at bit 7; C is the old
bit 0, N and Z from the result. -/
def Obligations.LsrAndRorShiftRight : Prop :=
  ShiftTable .lsr 0x4A 0x46 0x56 0x4E 0x5E ∧ ShiftTable .ror 0x6A 0x66 0x76 0x6E 0x7E ∧
  (∀ s : State,
    let a := s.cpu.a.toNat
    let c := if flagC s.cpu.p then 1 else 0
    (∃ t, exec (.lsr .acc) s = .next t ∧ OnlyCpu s t ∧ t.cpu = { s.cpu with a := t.cpu.a, p := t.cpu.p } ∧
      t.cpu.a.toNat = a / 2 ∧ flagC t.cpu.p = decide (a % 2 = 1) ∧ flagZ t.cpu.p = decide (t.cpu.a = 0) ∧
      flagN t.cpu.p = false ∧ FlagsKeptBut [7, 1, 0] s.cpu.p t.cpu.p ∧ t.cycles = 2) ∧
    (∃ t, exec (.ror .acc) s = .next t ∧ OnlyCpu s t ∧ t.cpu = { s.cpu with a := t.cpu.a, p := t.cpu.p } ∧
      t.cpu.a.toNat = a / 2 + 128 * c ∧ flagC t.cpu.p = decide (a % 2 = 1) ∧ flagZ t.cpu.p = decide (t.cpu.a = 0) ∧
      flagN t.cpu.p = flagC s.cpu.p ∧ FlagsKeptBut [7, 1, 0] s.cpu.p t.cpu.p ∧ t.cycles = 2)) ∧
  ∀ (m : Addr) (s : State), s.StorageLegal →
    let ea := (resolve m s).addr
    let x := (peek ea s).toNat
    let c := if flagC s.cpu.p then 1 else 0
    (∃ (t : State) (r : Byte), exec (.lsr (.mem m)) s = .next t ∧ ModifiedAt ea r s t ∧
      r.toNat = x / 2 ∧ flagC t.cpu.p = decide (x % 2 = 1) ∧ flagZ t.cpu.p = decide (r = 0) ∧
      flagN t.cpu.p = false ∧ FlagsKeptBut [7, 1, 0] s.cpu.p t.cpu.p ∧ t.cycles = modifyCycles m) ∧
    (∃ (t : State) (r : Byte), exec (.ror (.mem m)) s = .next t ∧ ModifiedAt ea r s t ∧
      r.toNat = x / 2 + 128 * c ∧ flagC t.cpu.p = decide (x % 2 = 1) ∧ flagZ t.cpu.p = decide (r = 0) ∧
      flagN t.cpu.p = flagC s.cpu.p ∧ FlagsKeptBut [7, 1, 0] s.cpu.p t.cpu.p ∧ t.cycles = modifyCycles m)

/-- INC and DEC: one read, one write of the byte plus or minus 1 modulo 256 at the same address, N and Z from it. -/
def Obligations.IncAndDecChangeMemoryByOne : Prop :=
  IncDecTable .inc 0xE6 0xF6 0xEE 0xFE ∧ IncDecTable .dec 0xC6 0xD6 0xCE 0xDE ∧
  ∀ (m : Addr) (s : State), s.StorageLegal →
    let ea := (resolve m s).addr
    (∃ (t : State) (r : Byte), exec (.inc m) s = .next t ∧ ModifiedAt ea r s t ∧
      r.toNat = ((peek ea s).toNat + 1) % 256 ∧ SetsNZ r s.cpu.p t.cpu.p ∧ t.cycles = modifyCycles m) ∧
    (∃ (t : State) (r : Byte), exec (.dec m) s = .next t ∧ ModifiedAt ea r s t ∧
      r.toNat = ((peek ea s).toNat + 255) % 256 ∧ SetsNZ r s.cpu.p t.cpu.p ∧ t.cycles = modifyCycles m)

/-! ## Jumps, subroutines, branches -/

/-- JMP: absolute, and indirect with the high byte of the target read from the same page as the low byte. -/
def Obligations.JmpSetsThePc : Prop :=
  (∀ w, encode (.jmp (.abs w)) = some [0x4C, loByte w, hiByte w] ∧
    encode (.jmp (.ind w)) = some [0x6C, loByte w, hiByte w]) ∧
  ∀ (w : Word) (s : State),
    exec (.jmp (.abs w)) s = .next { s with cpu := { s.cpu with pc := w }, cycles := 3 } ∧
    (∃ t, exec (.jmp (.ind w)) s = .next t ∧ t.cycles = 5 ∧ StorageKept s t ∧
      (let high := BitVec.ofNat 16 (256 * (w.toNat / 256) + (w.toNat + 1) % 256)
       t.cpu = { s.cpu with pc := joinBytes (peek high (memRead w s).2) (peek w s) } ∧
       t.ppu = (memRead high (memRead w s).2).2.ppu))

/-- JSR at `pc0` pushes the address of its last byte, high byte first, and jumps; RTS makes `PC` the pulled word plus 1, low
byte pulled first; RTS undoes a JSR, every register as it was when the JSR had been fetched. -/
def Obligations.JsrAndRts : Prop :=
  (∀ w, encode (.jsr w) = some [0x20, loByte w, hiByte w]) ∧ encode .rts = some [0x60] ∧
  (∀ (w pc0 : Word) (s : State), s.StorageLegal → s.cpu.pc = pc0 + 3 →
    ∃ t, exec (.jsr w) s = .next t ∧ t.cpu = { s.cpu with pc := w, sp := s.cpu.sp - 2 } ∧ t.cycles = 6 ∧
      peek (stackAddr s.cpu.sp) t = hiByte (pc0 + 2) ∧ peek (stackAddr (s.cpu.sp - 1)) t = loByte (pc0 + 2) ∧
      (∀ a, isPort s.params a = false → cpuCell s.params a ≠ cpuCell s.params (stackAddr s.cpu.sp) →
        cpuCell s.params a ≠ cpuCell s.params (stackAddr (s.cpu.sp - 1)) → peek a t = peek a s) ∧
      t = { s with cpu := t.cpu, cycles := t.cycles, ram := t.ram } ∧
      ∃ u, exec .rts t = .next u ∧ u.cpu = s.cpu) ∧
  ∀ s : State, ∃ t, exec .rts s = .next t ∧ OnlyCpu s t ∧ t.cycles = 6 ∧
    t.cpu = { s.cpu with
      sp := s.cpu.sp + 2
      pc := joinBytes (peek (stackAddr (s.cpu.sp + 2)) s) (peek (stackAddr (s.cpu.sp + 1)) s) + 1 }

/-- The eight branches: taken exactly on their flag, to `PC` plus the signed offset; 2 cycles when not taken, 3 when taken,
4 when taken to another page than the next instruction's; nothing else changes. -/
def Obligations.BranchesFollowTheirFlag : Prop :=
  (∀ n, encode (.bpl n) = some [0x10, n] ∧ encode (.bmi n) = some [0x30, n] ∧ encode (.bvc n) = some [0x50, n] ∧
    encode (.bvs n) = some [0x70, n] ∧ encode (.bcc n) = some [0x90, n] ∧ encode (.bcs n) = some [0xB0, n] ∧
    encode (.bne n) = some [0xD0, n] ∧ encode (.beq n) = some [0xF0, n]) ∧
  ∀ (n : Byte) (s : State) (i : Instr) (cond : Bool),
    (i, cond) ∈ [(Instr.bpl n, !flagN s.cpu.p), (Instr.bmi n, flagN s.cpu.p), (Instr.bvc n, !flagV s.cpu.p),
      (Instr.bvs n, flagV s.cpu.p), (Instr.bcc n, !flagC s.cpu.p), (Instr.bcs n, flagC s.cpu.p),
      (Instr.bne n, !flagZ s.cpu.p), (Instr.beq n, flagZ s.cpu.p)] →
    ∃ t, exec i s = .next t ∧ OnlyCpu s t ∧ t.cpu = { s.cpu with pc := t.cpu.pc } ∧
      (cond = false → t.cpu.pc = s.cpu.pc ∧ t.cycles = 2) ∧
      (cond = true → (t.cpu.pc.toNat : Int) = ((s.cpu.pc.toNat : Int) + n.toInt) % 65536 ∧
        t.cycles = if t.cpu.pc.toNat / 256 = s.cpu.pc.toNat / 256 then 3 else 4)

/-! ## Flag instructions, NOP, undefined opcodes -/

/-- CLC, SEC, CLI, SEI, CLV, CLD, SED write exactly their one flag in 2 cycles and nothing else; NOP nothing at all. -/
def Obligations.FlagInstructionsAndNop : Prop :=
  (encode .clc = some [0x18] ∧ encode .sec = some [0x38] ∧ encode .cli = some [0x58] ∧ encode .sei = some [0x78] ∧
    encode .clv = some [0xB8] ∧ encode .cld = some [0xD8] ∧ encode .sed = some [0xF8] ∧ encode .nop = some [0xEA]) ∧
  (∀ (s : State) (i : Instr) (k : Nat) (b : Bool),
    (i, k, b) ∈ [(Instr.clc, 0, false), (Instr.sec, 0, true), (Instr.cli, 2, false), (Instr.sei, 2, true),
      (Instr.clv, 6, false), (Instr.cld, 3, false), (Instr.sed, 3, true)] →
    ∃ t, exec i s = .next t ∧ OnlyCpu s t ∧ t.cpu = { s.cpu with p := t.cpu.p } ∧ t.cycles = 2 ∧
      t.cpu.p.getLsbD k = b ∧ FlagsKeptBut [k] s.cpu.p t.cpu.p) ∧
  ∀ s : State, exec .nop s = .next { s with cycles := 2 }

/-- An undefined opcode fetched from `pc0` halts: `halted` set, `PC` back at the byte, 1 cycle, nothing else changed; all
105 bytes alike. -/
def Obligations.UndefinedOpcodeHalts : Prop :=
  ∀ (s : State) (op : Byte) (pc0 : Word), s.cpu.pc = pc0 + 1 →
    exec (.undefined op) s = .next { s with cpu := { s.cpu with halted := true, pc := pc0 }, cycles := 1 }

/-! ## Addressing and the CPU bus -/

/-- The effective address of every memory mode, and when a page is crossed; no access of the computation changes
anything. -/
def Obligations.EffectiveAddresses : Prop :=
  ∀ (b : Byte) (w : Word) (s : State),
    let word := fun lo hi : Nat => (peek (BitVec.ofNat 16 lo) s).toNat + 256 * (peek (BitVec.ofNat 16 hi) s).toNat
    let px := (b.toNat + s.cpu.x.toNat) % 256
    let ptrX := word px ((px + 1) % 256)
    let ptrY := word b.toNat ((b.toNat + 1) % 256)
    (∀ m : Addr, (resolve m s).st = s) ∧
    ((resolve (.zp b) s).addr.toNat = b.toNat ∧ (resolve (.zp b) s).crossed = false) ∧
    ((resolve (.zpx b) s).addr.toNat = px ∧ (resolve (.zpx b) s).crossed = false) ∧
    ((resolve (.zpy b) s).addr.toNat = (b.toNat + s.cpu.y.toNat) % 256 ∧ (resolve (.zpy b) s).crossed = false) ∧
    ((resolve (.abs w) s).addr = w ∧ (resolve (.abs w) s).crossed = false) ∧
    ((resolve (.abx w) s).addr.toNat = (w.toNat + s.cpu.x.toNat) % 65536 ∧
      (resolve (.abx w) s).crossed = decide (256 ≤ w.toNat % 256 + s.cpu.x.toNat)) ∧
    ((resolve (.aby w) s).addr.toNat = (w.toNat + s.cpu.y.toNat) % 65536 ∧
      (resolve (.aby w) s).crossed = decide (256 ≤ w.toNat % 256 + s.cpu.y.toNat)) ∧
    ((resolve (.izx b) s).addr.toNat = ptrX ∧ (resolve (.izx b) s).crossed = false) ∧
    ((resolve (.izy b) s).addr.toNat = (ptrY + s.cpu.y.toNat) % 65536 ∧
      (resolve (.izy b) s).crossed = decide (256 ≤ ptrY % 256 + s.cpu.y.toNat))

/-- The cycle counts by addressing mode and access class: only read instructions pay for a crossed page. -/
def Obligations.CycleCountsByMode : Prop :=
  ∀ (b : Byte) (w : Word) (s : State) (n : Nat),
    (operandCycles (.imm b) s = 2 ∧ operandCycles (.mem (.zp b)) s = 3 ∧ operandCycles (.mem (.zpx b)) s = 4 ∧
      operandCycles (.mem (.zpy b)) s = 4 ∧ operandCycles (.mem (.abs w)) s = 4 ∧
      operandCycles (.mem (.izx b)) s = 6) ∧
    (n = w.toNat % 256 + s.cpu.x.toNat →
      operandCycles (.mem (.abx w)) s = if 256 ≤ n then 5 else 4) ∧
    (n = w.toNat % 256 + s.cpu.y.toNat →
      operandCycles (.mem (.aby w)) s = if 256 ≤ n then 5 else 4) ∧
    (n = (peek (zext16 b) s).toNat + s.cpu.y.toNat →
      operandCycles (.mem (.izy b)) s = if 256 ≤ n then 6 else 5) ∧
    (writeCycles (.zp b) = 3 ∧ writeCycles (.zpx b) = 4 ∧ writeCycles (.zpy b) = 4 ∧ writeCycles (.abs w) = 4 ∧
      writeCycles (.abx w) = 5 ∧ writeCycles (.aby w) = 5 ∧ writeCycles (.izx b) = 6 ∧ writeCycles (.izy b) = 6) ∧
    (modifyCycles (.zp b) = 5 ∧ modifyCycles (.zpx b) = 6 ∧ modifyCycles (.abs w) = 6 ∧ modifyCycles (.abx w) = 7)

/-! ## The PPU ports -/

/-- The CPU map: the decode is total and an access never an error. Internal RAM: 2048 bytes, the same under all four
mirrors. The ports: port `a & 7` under every mirror. The stub and unmapped addresses read `OPEN_BUS` and ignore writes.
The mapper: the address selects nothing, a byte of cartridge RAM or a byte of a PRG bank, as the fixed mapping says; ROM
ignores writes. No access outside the ports has a side effect. The pattern tables are the one CHR bank. -/
def Obligations.CpuMemoryMap : Prop :=
  ∀ (a b : Word) (v : Byte) (s : State), s.StorageLegal →
    (a.toNat < 0x2000 → memRead a s = (peek a s, s) ∧ memWrite a v s = { s with ram := (memWrite a v s).ram } ∧
      peek a s = s.ram.read (a.toNat % 0x800) ∧
      (b.toNat < 0x2000 →
        peek b (memWrite a v s) = if a.toNat % 0x800 = b.toNat % 0x800 then v else peek b s)) ∧
    (0x2000 ≤ a.toNat → a.toNat < 0x4000 →
      memRead a s = portRead (a.toNat % 8) s ∧ memWrite a v s = portWrite (a.toNat % 8) v s) ∧
    (0x4000 ≤ a.toNat → a.toNat < 0x6000 → memRead a s = (s.params.openBus, s) ∧ memWrite a v s = s) ∧
    (0x4020 ≤ a.toNat →
      (cpuCell s.params a = .nothing ∧ memRead a s = (s.params.openBus, s) ∧ memWrite a v s = s) ∨
      (∃ o, cpuCell s.params a = .prgRam o ∧ o < 8192 ∧ memRead a s = (s.prgRam.read o, s) ∧
        memWrite a v s = { s with prgRam := s.prgRam.write o v }) ∨
      (∃ k o, cpuCell s.params a = .prg k o ∧ k < 2 ∧ o < 16384 ∧
        memRead a s = (s.prg.read (16384 * k + o), s) ∧ memWrite a v s = s)) ∧
    (0x6000 ≤ a.toNat → a.toNat < 0x8000 → s.params.hasPrgRam = false →
      memRead a s = (s.params.openBus, s) ∧ memWrite a v s = s) ∧
    (0x6000 ≤ a.toNat → a.toNat < 0x8000 → s.params.hasPrgRam = true →
      memRead a s = (s.prgRam.read (a.toNat - 0x6000), s) ∧ peek a (memWrite a v s) = v ∧
        memWrite a v s = { s with prgRam := (memWrite a v s).prgRam } ∧
        (0x6000 ≤ b.toNat → b.toNat < 0x8000 → b ≠ a → peek b (memWrite a v s) = peek b s)) ∧
    (0x8000 ≤ a.toNat → memWrite a v s = s ∧ (memRead a s).2 = s ∧
      peek a s = s.prg.read (match s.params.prgBanks with
        | .one => (a.toNat - 0x8000) % 0x4000
        | .two => a.toNat - 0x8000)) ∧
    ∀ c : PpuAddr, c.toNat < 0x2000 → ppuRead s c = s.chr.read c.toNat

/-- A read of PPUSTATUS under any mirror: all 8 stored bits, then VBlank cleared, `w` reset, the read latch set; the next
read has bit 7 clear and the other bits as before. -/
def Obligations.StatusReadClearsVBlank : Prop :=
  ∀ (a : Word) (s : State), 0x2000 ≤ a.toNat → a.toNat < 0x4000 → a.toNat % 8 = 2 →
    (memRead a s).1 = s.ppu.status ∧
    (memRead a s).2 = { s with ppu := { s.ppu with
      status := (memRead a s).2.ppu.status, w := false, vblReadLatch := true } } ∧
    (memRead a s).2.ppu.status.getLsbD 7 = false ∧
    FlagsKeptBut [7] s.ppu.status (memRead a s).2.ppu.status ∧
    peek a (memRead a s).2 = (memRead a s).2.ppu.status

/-- Writes of PPUCTRL, PPUMASK and OAMADDR under any mirror: the byte stored, PPUCTRL also `t[11:10]`; nothing else, so
in particular no NMI. -/
def Obligations.ControlPortWrites : Prop :=
  ∀ (a : Word) (d : Byte) (s : State), 0x2000 ≤ a.toNat → a.toNat < 0x4000 →
    (a.toNat % 8 = 0 →
      memWrite a d s = { s with ppu := { s.ppu with ctrl := d, t := (memWrite a d s).ppu.t } } ∧
      ∀ i, (memWrite a d s).ppu.t.getLsbD i =
        if i = 11 then d.getLsbD 1 else if i = 10 then d.getLsbD 0 else s.ppu.t.getLsbD i) ∧
    (a.toNat % 8 = 1 → memWrite a d s = { s with ppu := { s.ppu with mask := d } }) ∧
    (a.toNat % 8 = 3 → memWrite a d s = { s with ppu := { s.ppu with oamAddress := d } })

/-- The two-step ports, gated by one shared `w`. PPUSCROLL: coarse X and fine X, then fine Y and coarse Y. PPUADDR: the high
6 bits with bit 14 cleared, then the low byte and the copy of `t` into `v`. -/
def Obligations.TwoStepPortWrites : Prop :=
  ∀ (a : Word) (d : Byte) (s : State), 0x2000 ≤ a.toNat → a.toNat < 0x4000 →
    let t := memWrite a d s
    (a.toNat % 8 = 5 → s.ppu.w = false →
      t = { s with ppu := { s.ppu with t := t.ppu.t, fineX := t.ppu.fineX, w := true } } ∧
      t.ppu.fineX.toNat = d.toNat % 8 ∧
      ∀ i, t.ppu.t.getLsbD i = if i < 5 then d.getLsbD (i + 3) else s.ppu.t.getLsbD i) ∧
    (a.toNat % 8 = 5 → s.ppu.w = true →
      t = { s with ppu := { s.ppu with t := t.ppu.t, w := false } } ∧
      ∀ i, i < 15 → t.ppu.t.getLsbD i =
        if 12 ≤ i then d.getLsbD (i - 12) else if 5 ≤ i ∧ i < 10 then d.getLsbD (i - 2) else s.ppu.t.getLsbD i) ∧
    (a.toNat % 8 = 6 → s.ppu.w = false →
      t = { s with ppu := { s.ppu with t := t.ppu.t, w := true } } ∧
      t.ppu.t.toNat = 256 * (d.toNat % 64) + s.ppu.t.toNat % 256) ∧
    (a.toNat % 8 = 6 → s.ppu.w = true →
      t = { s with ppu := { s.ppu with t := t.ppu.t, v := t.ppu.t, w := false } } ∧
      t.ppu.t.toNat = 256 * (s.ppu.t.toNat / 256) + d.toNat)

/-- A write of PPUDATA: the byte to `v & $3FFF` of the PPU space, `v` on by 1 or 32 modulo 32768, `read_buffer` and the
CPU's storage untouched. -/
def Obligations.DataPortWrite : Prop :=
  ∀ (a : Word) (d : Byte) (s : State), 0x2000 ≤ a.toNat → a.toNat < 0x4000 → a.toNat % 8 = 7 →
    let t := memWrite a d s
    t.ppu.v.toNat = (s.ppu.v.toNat + if s.ppu.ctrl.getLsbD 2 then 32 else 1) % 32768 ∧
    t = { s with ppu := { s.ppu with v := t.ppu.v, palette := t.ppu.palette }, vram := t.vram, chr := t.chr } ∧
    ∀ b, ppuRead t b = ppuRead (ppuWrite s (BitVec.ofNat 14 s.ppu.v.toNat) d) b

/-- A read of PPUDATA below $3F00: the old buffer, and the addressed byte into the buffer; at $3F00 and above: the palette
entry at once, and the nametable byte under it into the buffer; `v` on by 1 or 32. -/
def Obligations.DataPortRead : Prop :=
  ∀ (a : Word) (s : State), 0x2000 ≤ a.toNat → a.toNat < 0x4000 → a.toNat % 8 = 7 →
    let va := s.ppu.v.toNat % 16384
    let t := (memRead a s).2
    t = { s with ppu := { s.ppu with v := t.ppu.v, readBuffer := t.ppu.readBuffer } } ∧
    t.ppu.v.toNat = (s.ppu.v.toNat + if s.ppu.ctrl.getLsbD 2 then 32 else 1) % 32768 ∧
    (va < 0x3F00 → (memRead a s).1 = s.ppu.readBuffer ∧ t.ppu.readBuffer = ppuRead s (BitVec.ofNat 14 va)) ∧
    (0x3F00 ≤ va → (memRead a s).1 = ppuRead s (BitVec.ofNat 14 va) ∧
      t.ppu.readBuffer = ppuRead s (BitVec.ofNat 14 (va - 0x1000)))

/-- OAMDATA: a write stores at `oam_address` and increments it modulo 256; a read returns that byte and changes nothing. -/
def Obligations.OamDataPort : Prop :=
  ∀ (a : Word) (d : Byte) (s : State), s.ppu.Legal → 0x2000 ≤ a.toNat → a.toNat < 0x4000 → a.toNat % 8 = 4 →
    memRead a s = (s.ppu.oam.read s.ppu.oamAddress.toNat, s) ∧
    memWrite a d s = { s with ppu := { s.ppu with
      oam := (memWrite a d s).ppu.oam, oamAddress := (memWrite a d s).ppu.oamAddress } } ∧
    (memWrite a d s).ppu.oamAddress.toNat = (s.ppu.oamAddress.toNat + 1) % 256 ∧
    ∀ k, (memWrite a d s).ppu.oam.read k = if k = s.ppu.oamAddress.toNat then d else s.ppu.oam.read k

/-- The direction a port does not support: reads of the five write-only ports give `OPEN_BUS`, a write to PPUSTATUS is
ignored; nothing changes. -/
def Obligations.PortsInTheWrongDirection : Prop :=
  ∀ (a : Word) (d : Byte) (s : State), 0x2000 ≤ a.toNat → a.toNat < 0x4000 →
    (a.toNat % 8 ∈ [0, 1, 3, 5, 6] → memRead a s = (s.params.openBus, s)) ∧ (a.toNat % 8 = 2 → memWrite a d s = s)

/-- The PPU's own map: pattern tables from CHR, nametables mirrored as the cartridge says, $3000 to $3EFF again, the
palette every 32 bytes with its four shared entries; what is written is read back and no other byte changes. -/
def Obligations.PpuAddressMap : Prop :=
  ∀ (a b : PpuAddr) (d : Byte) (s : State), s.StorageLegal →
    (a.toNat < 0x2000 → ppuRead s a = s.chr.read a.toNat ∧
      (s.params.chrWritable = false → ppuWrite s a d = s) ∧
      (s.params.chrWritable = true → ppuRead (ppuWrite s a d) b = if b = a then d else ppuRead s b)) ∧
    (0x2000 ≤ a.toNat → a.toNat < 0x3F00 → ∃ k, k < 2048 ∧
      k = (match s.params.mirroring with
        | .vertical => (a.toNat / 0x400) % 2 * 1024 + a.toNat % 0x400
        | .horizontal => (a.toNat / 0x800) % 2 * 1024 + a.toNat % 0x400) ∧
      ppuRead s a = s.vram.read k ∧ (ppuWrite s a d).vram.read k = d ∧
      ppuWrite s a d = { s with vram := (ppuWrite s a d).vram } ∧
      ∀ j, j ≠ k → (ppuWrite s a d).vram.read j = s.vram.read j) ∧
    (0x3F00 ≤ a.toNat → ∃ k, k < 32 ∧
      k = (if a.toNat % 32 % 4 = 0 then a.toNat % 16 else a.toNat % 32) ∧
      (ppuRead s a).toNat = (s.ppu.colour k).toNat ∧
      ppuWrite s a d = { s with ppu := { s.ppu with palette := (ppuWrite s a d).ppu.palette } } ∧
      ∀ j, j < 32 → ((ppuWrite s a d).ppu.colour j).toNat = if j = k then d.toNat % 64 else (s.ppu.colour j).toNat)

/-! ## The dot machine -/

/-- VBlank entry, the dot (241, 1): the flag, and the NMI request if `ctrl[7]` is 1, unless PPUSTATUS was just read; in
any case nothing else of the machine changes but the position. -/
def Obligations.VBlankEntryDot : Prop :=
  ∀ s : State, s.ppu.scanline = 241 → s.ppu.dot = 1 → s.ppu.nmiLine = false →
    let t := clockDot s
    t = { s with
      ppu := { s.ppu with status := t.ppu.status, dot := 2, vblReadLatch := false }
      cpu := { s.cpu with nmiPending := t.cpu.nmiPending } } ∧
    FlagsKeptBut [7] s.ppu.status t.ppu.status ∧
    (s.ppu.vblReadLatch = false → t.ppu.status.getLsbD 7 = true ∧
      t.cpu.nmiPending = (s.cpu.nmiPending || s.ppu.ctrl.getLsbD 7)) ∧
    (s.ppu.vblReadLatch = true → t.ppu.status = s.ppu.status ∧ t.cpu.nmiPending = s.cpu.nmiPending)

/-- The pre-render clear, the dot (261, 1), whatever `mask` holds: bits 7, 6, 5 of `status` and `sprite_overflow` are 0, the
other bits stay, and neither `nmi_line` nor `nmi_pending` is cleared (the Clock's observation only moves a set `nmi_line`
to `nmi_pending`). No dot but (241, 1) changes the NMI line, none but these two the VBlank flag. At dot 0 of any scanline
and on the scanlines 240 to 260 but for (241, 1), whatever `mask` holds, a dot changes only the position and
`vbl_read_latch`. -/
def Obligations.PreRenderClearAndVBlankElsewhere : Prop :=
  ∀ s : State,
    (s.ppu.scanline = 261 → s.ppu.dot = 1 →
      (∀ i, (ppuStep s).ppu.status.getLsbD i = (decide (i < 5) && s.ppu.status.getLsbD i)) ∧
      (ppuStep s).ppu.spriteOverflow = false ∧ (ppuStep s).ppu.nmiLine = s.ppu.nmiLine ∧ (ppuStep s).cpu = s.cpu ∧
      (clockDot s).ppu.status = (ppuStep s).ppu.status ∧ (clockDot s).ppu.spriteOverflow = false ∧
      (clockDot s).cpu = { s.cpu with nmiPending := s.cpu.nmiPending || s.ppu.nmiLine }) ∧
    (¬ (s.ppu.scanline = 241 ∧ s.ppu.dot = 1) → (ppuStep s).ppu.nmiLine = s.ppu.nmiLine ∧
      (¬ (s.ppu.scanline = 261 ∧ s.ppu.dot = 1) →
        (ppuStep s).ppu.status.getLsbD 7 = s.ppu.status.getLsbD 7)) ∧
    ((s.ppu.dot = 0 ∨ 240 ≤ s.ppu.scanline ∧ s.ppu.scanline ≤ 260) →
      ¬ (s.ppu.scanline = 241 ∧ s.ppu.dot = 1) →
      ppuStep s = { s with ppu := { s.ppu with
        vblReadLatch := false
        dot := if s.ppu.dot = 340 then 0 else s.ppu.dot + 1
        scanline := if s.ppu.dot = 340 then (if s.ppu.scanline = 261 then 0 else s.ppu.scanline + 1)
          else s.ppu.scanline } })

/-- Sprite evaluation at dot 256 of a render line, rendering on or off: the sprites in range, in OAM order, the first
eight into the slots, the others only flagging overflow. -/
def Obligations.SpriteEvaluationFillsTheSlots : Prop :=
  ∀ s : State, (s.ppu.scanline ≤ 239 ∨ s.ppu.scanline = 261) → s.ppu.dot = 256 →
    let h := if s.ppu.ctrl.getLsbD 5 then 16 else 8
    let found := (List.range 64).filter fun n =>
      decide ((s.ppu.oam.read (4 * n)).toNat ≤ s.ppu.scanline ∧
        s.ppu.scanline < (s.ppu.oam.read (4 * n)).toNat + h)
    let t := ppuStep s
    t.ppu.spriteCount = min 8 found.length ∧
    (∀ (k n j : Nat), k < 8 → found[k]? = some n → j < 4 →
      t.ppu.secondaryByte (4 * k + j) = s.ppu.oam.read (4 * n + j)) ∧
    (∀ i, 4 * t.ppu.spriteCount ≤ i → t.ppu.secondaryByte i = s.ppu.secondaryByte i) ∧
    t.ppu.spriteOverflow = (s.ppu.spriteOverflow || decide (8 < found.length)) ∧
    t.ppu.status.getLsbD 5 = (s.ppu.status.getLsbD 5 || decide (8 < found.length)) ∧
    t.ppu.sprite0Selected = (s.ppu.sprite0Selected || decide (0 ∈ found))

/-- The secondary-OAM clear, at the dots 1 to 64 of a render line, rendering on or off: one byte becomes $FF, the others
stay; dot 1 also zeroes the count and the sprite-0 latch; and the 64 dots from dot 1 on leave all 32 bytes $FF. -/
def Obligations.SecondaryOamClearDots : Prop :=
  ∀ s : State, (s.ppu.scanline ≤ 239 ∨ s.ppu.scanline = 261) →
    (1 ≤ s.ppu.dot → s.ppu.dot ≤ 64 →
      let t := ppuStep s
      (∀ i, i < 32 → t.ppu.secondaryByte i = if i = (s.ppu.dot - 1) / 2 then 0xFF else s.ppu.secondaryByte i) ∧
      t.ppu.spriteCount = (if s.ppu.dot = 1 then 0 else s.ppu.spriteCount) ∧
      t.ppu.sprite0Selected = (if s.ppu.dot = 1 then false else s.ppu.sprite0Selected)) ∧
    (s.ppu.dot = 1 → ∀ i, i < 32 → (ppuStep^[64] s).ppu.secondaryByte i = 0xFF)

/-- With rendering disabled a dot changes neither `v` nor `oam_address` nor any fetch latch, shifter or sprite unit, and
on a visible dot hands over the backdrop pixel. -/
def Obligations.RenderingDisabledStopsThePipeline : Prop :=
  ∀ s : State, s.ppu.mask.getLsbD 3 = false → s.ppu.mask.getLsbD 4 = false →
    let q := s.ppu
    let t := ppuStep s
    t.ppu = { q with
      status := t.ppu.status, nmiLine := t.ppu.nmiLine, spriteOverflow := t.ppu.spriteOverflow
      secondaryOam := t.ppu.secondaryOam, spriteCount := t.ppu.spriteCount
      sprite0Selected := t.ppu.sprite0Selected, vblReadLatch := false
      scanline := t.ppu.scanline, dot := t.ppu.dot } ∧
    t.pixels = s.pixels ++
      if q.scanline ≤ 239 ∧ 1 ≤ q.dot ∧ q.dot ≤ 256 then
        [⟨q.scanline, q.dot - 1, q.colour 0 &&& if q.mask.getLsbD 0 then 0x30 else 0x3F⟩]
      else []

/-- The changes of `v`, field by field, and the dots that make them on a render line with rendering enabled: coarse X at
the end of each tile, Y at dot 256, the horizontal copy at dot 257, the vertical copy on the pre-render line, and no
other dot. -/
def Obligations.ScrollUpdatesByDot : Prop :=
  (∀ (v t : Scroll),
    (∀ i, (incrementCoarseX v).getLsbD i =
      if i < 5 then (coarseX v + 1).getLsbD i
      else if i = 10 then (v.getLsbD 10 ^^ decide (coarseX v = 31)) else v.getLsbD i) ∧
    (fineY (incrementY v) = fineY v + 1 ∧ coarseX (incrementY v) = coarseX v ∧
      (incrementY v).getLsbD 10 = v.getLsbD 10 ∧
      (incrementY v).getLsbD 11 = (v.getLsbD 11 ^^ decide (fineY v = 7 ∧ coarseY v = 29)) ∧
      coarseY (incrementY v) =
        if fineY v ≠ 7 then coarseY v else if coarseY v = 29 then 0 else coarseY v + 1) ∧
    (∀ i, (reloadHorizontal t v).getLsbD i = if i < 5 ∨ i = 10 then t.getLsbD i else v.getLsbD i) ∧
    (∀ i, (reloadVertical t v).getLsbD i = if 5 ≤ i ∧ i ≠ 10 then t.getLsbD i else v.getLsbD i)) ∧
  ∀ s : State, (s.ppu.mask.getLsbD 3 = true ∨ s.ppu.mask.getLsbD 4 = true) →
    (s.ppu.scanline ≤ 239 ∨ s.ppu.scanline = 261) →
    let d := s.ppu.dot
    let tile := (8 ≤ d ∧ d ≤ 256 ∨ 328 ≤ d ∧ d ≤ 336) ∧ d % 8 = 0
    let v := s.ppu.v
    (tile → d ≠ 256 → (ppuStep s).ppu.v = incrementCoarseX v) ∧
    (d = 256 → (ppuStep s).ppu.v = incrementY (incrementCoarseX v)) ∧
    (d = 257 → (ppuStep s).ppu.v = reloadHorizontal s.ppu.t v) ∧
    (s.ppu.scanline = 261 → 280 ≤ d → d ≤ 304 → (ppuStep s).ppu.v = reloadVertical s.ppu.t v) ∧
    (¬ tile → d ≠ 257 → ¬ (s.ppu.scanline = 261 ∧ 280 ≤ d ∧ d ≤ 304) → (ppuStep s).ppu.v = v)

/-- The background fetches, by the phase of the dot, on a render line with rendering enabled: nametable byte, attribute
bits, pattern low, pattern high with the shifter reload; the shifters move by one bit at each of these dots. -/
def Obligations.BackgroundFetchesByPhase : Prop :=
  ∀ s : State, (s.ppu.mask.getLsbD 3 = true ∨ s.ppu.mask.getLsbD 4 = true) →
    (s.ppu.scanline ≤ 239 ∨ s.ppu.scanline = 261) →
    (1 ≤ s.ppu.dot ∧ s.ppu.dot ≤ 256 ∨ 321 ≤ s.ppu.dot ∧ s.ppu.dot ≤ 336) →
    let q := s.ppu
    let v := q.v.toNat
    let ph := (q.dot - 1) % 8
    let t := ppuStep s
    let rd := fun n => ppuRead s (BitVec.ofNat 14 n)
    let pattern := 4096 * (if q.ctrl.getLsbD 4 then 1 else 0) + 16 * q.ntLatch.toNat + v / 4096
    t.ppu.ntLatch = (if ph = 1 then rd (0x2000 + v % 4096) else q.ntLatch) ∧
    t.ppu.atLatch.toNat = (if ph = 3 then
        (rd (0x23C0 + 1024 * (v / 1024 % 4) + 8 * (v / 128 % 8) + v / 4 % 8)).toNat
          / 2 ^ (4 * (v / 64 % 2) + 2 * (v / 2 % 2)) % 4
      else q.atLatch.toNat) ∧
    t.ppu.ptLoLatch = (if ph = 5 then rd pattern else q.ptLoLatch) ∧
    t.ppu.ptHiLatch = (if ph = 7 then rd (pattern + 8) else q.ptHiLatch) ∧
    t.ppu.bgShiftLo.toNat = (if ph = 7 then 2 * q.bgShiftLo.toNat / 256 % 256 * 256 + q.ptLoLatch.toNat
      else 2 * q.bgShiftLo.toNat % 65536) ∧
    t.ppu.bgShiftHi.toNat = (if ph = 7 then 2 * q.bgShiftHi.toNat / 256 % 256 * 256 + (rd (pattern + 8)).toNat
      else 2 * q.bgShiftHi.toNat % 65536) ∧
    t.ppu.atShiftLo.toNat = (if ph = 7 then
        2 * q.atShiftLo.toNat / 256 % 256 * 256 + (if q.atLatch.getLsbD 0 then 255 else 0)
      else 2 * q.atShiftLo.toNat % 65536) ∧
    t.ppu.atShiftHi.toNat = (if ph = 7 then
        2 * q.atShiftHi.toNat / 256 % 256 * 256 + (if q.atLatch.getLsbD 1 then 255 else 0)
      else 2 * q.atShiftHi.toNat % 65536)

/-- The dots 337 to 340 of a render line with rendering enabled: at 338 and 340 the nametable latch is read again, and
nothing else changes but the position. -/
def Obligations.ExtraNametableReads : Prop :=
  ∀ s : State, (s.ppu.mask.getLsbD 3 = true ∨ s.ppu.mask.getLsbD 4 = true) →
    (s.ppu.scanline ≤ 239 ∨ s.ppu.scanline = 261) → 337 ≤ s.ppu.dot → s.ppu.dot ≤ 340 →
    ppuStep s = { s with ppu := { s.ppu with
      ntLatch := if s.ppu.dot = 338 ∨ s.ppu.dot = 340
        then ppuRead s (BitVec.ofNat 14 (0x2000 + s.ppu.v.toNat % 4096)) else s.ppu.ntLatch
      vblReadLatch := false, scanline := (ppuStep s).ppu.scanline, dot := (ppuStep s).ppu.dot } }

/-- The sprite pattern fetch resets `oam_address` at every dot 257 to 320 of a render line with rendering enabled, latches
the counts at dot 257, and loads a slot's unit at its last dot: both pattern bytes of its row, flipped as the attribute
says, transparent when the slot is empty. -/
def Obligations.SpriteFetchLoadsTheUnits : Prop :=
  ∀ s : State, (s.ppu.mask.getLsbD 3 = true ∨ s.ppu.mask.getLsbD 4 = true) →
    (s.ppu.scanline ≤ 239 ∨ s.ppu.scanline = 261) → 257 ≤ s.ppu.dot → s.ppu.dot ≤ 320 →
    let t := ppuStep s
    t.ppu.oamAddress = 0 ∧
    (s.ppu.dot = 257 →
      t.ppu.lineSpriteCount = s.ppu.spriteCount ∧ t.ppu.lineHasSprite0 = s.ppu.sprite0Selected) ∧
    (s.ppu.dot ≠ 257 →
      t.ppu.lineSpriteCount = s.ppu.lineSpriteCount ∧ t.ppu.lineHasSprite0 = s.ppu.lineHasSprite0) ∧
    ∀ i, i < 8 →
      (s.ppu.dot ≠ 264 + 8 * i → t.ppu.spriteUnit i = s.ppu.spriteUnit i) ∧
      (s.ppu.dot = 264 + 8 * i → s.ppu.spriteCount ≤ i →
        t.ppu.spriteUnit i = { s.ppu.spriteUnit i with patLo := 0, patHi := 0 }) ∧
      (s.ppu.dot = 264 + 8 * i → i < s.ppu.spriteCount →
        let h := if s.ppu.ctrl.getLsbD 5 then 16 else 8
        let y := (s.ppu.secondaryByte (4 * i)).toNat
        let tile := (s.ppu.secondaryByte (4 * i + 1)).toNat
        let attr := s.ppu.secondaryByte (4 * i + 2)
        y ≤ s.ppu.scanline → s.ppu.scanline < y + h →
        let row := if attr.getLsbD 7 then h - 1 - (s.ppu.scanline - y) else s.ppu.scanline - y
        let addr := if s.ppu.ctrl.getLsbD 5
          then 4096 * (tile % 2) + 16 * (tile / 2 * 2 + row / 8) + row % 8
          else 4096 * (if s.ppu.ctrl.getLsbD 3 then 1 else 0) + 16 * tile + row
        let plane := fun k => if attr.getLsbD 6 then (ppuRead s (BitVec.ofNat 14 k)).reverse
          else ppuRead s (BitVec.ofNat 14 k)
        t.ppu.spriteUnit i = ⟨plane addr, plane (addr + 8), attr, s.ppu.secondaryByte (4 * i + 3)⟩)

/-- The pixel of a visible dot with rendering enabled: the background value and palette, the lowest unit with an opaque
pixel, the priority bit, the palette entry and the greyscale mask. -/
def Obligations.PixelOutputByLayers : Prop :=
  ∀ s : State, (s.ppu.mask.getLsbD 3 = true ∨ s.ppu.mask.getLsbD 4 = true) → s.ppu.scanline ≤ 239 →
    1 ≤ s.ppu.dot → s.ppu.dot ≤ 256 →
    let q := s.ppu
    let x := q.dot - 1
    let b := 15 - q.fineX.toNat
    let two := fun hi lo : Bool => 2 * hi.toNat + lo.toNat
    let bgOn := q.mask.getLsbD 3 && (decide (8 ≤ x) || q.mask.getLsbD 1)
    let bg := if bgOn then two (q.bgShiftHi.getLsbD b) (q.bgShiftLo.getLsbD b) else 0
    let bgEntry := 4 * two (q.atShiftHi.getLsbD b) (q.atShiftLo.getLsbD b) + bg
    let value := fun i => two ((q.spriteUnit i).patHi.getLsbD (7 - (x - (q.spriteUnit i).x.toNat)))
      ((q.spriteUnit i).patLo.getLsbD (7 - (x - (q.spriteUnit i).x.toNat)))
    let shows := fun i => q.mask.getLsbD 4 = true ∧ (8 ≤ x ∨ q.mask.getLsbD 2 = true) ∧ i < q.lineSpriteCount ∧
      (q.spriteUnit i).x.toNat ≤ x ∧ x ≤ (q.spriteUnit i).x.toNat + 7 ∧ value i ≠ 0
    let out := fun entry => (ppuStep s).pixels =
      s.pixels ++ [⟨q.scanline, x, q.colour entry &&& if q.mask.getLsbD 0 then 0x30 else 0x3F⟩]
    ((∀ i, ¬ shows i) → out (if bg = 0 then 0 else bgEntry)) ∧
    ∀ i, shows i → (∀ j, j < i → ¬ shows j) →
      out (if bg ≠ 0 ∧ (q.spriteUnit i).attr.getLsbD 5 = true then bgEntry
        else 4 * (4 + (q.spriteUnit i).attr.toNat % 4) + value i)

/-- The sprite-0 hit: at a visible dot with rendering enabled `status[6]` becomes 1 exactly when an opaque background pixel
and an opaque pixel of unit 0 holding sprite 0 meet, left-column masks observed, and not at column 255; it is never
cleared there. -/
def Obligations.SpriteZeroHitDot : Prop :=
  ∀ s : State, (s.ppu.mask.getLsbD 3 = true ∨ s.ppu.mask.getLsbD 4 = true) → s.ppu.scanline ≤ 239 →
    1 ≤ s.ppu.dot → s.ppu.dot ≤ 256 →
    let q := s.ppu
    let x := q.dot - 1
    let b := 15 - q.fineX.toNat
    let u := q.spriteUnit 0
    let bg := q.mask.getLsbD 3 && (decide (8 ≤ x) || q.mask.getLsbD 1) &&
      (q.bgShiftHi.getLsbD b || q.bgShiftLo.getLsbD b)
    let sp := q.mask.getLsbD 4 && (decide (8 ≤ x) || q.mask.getLsbD 2) && decide (0 < q.lineSpriteCount) &&
      q.lineHasSprite0 && decide (u.x.toNat ≤ x ∧ x ≤ u.x.toNat + 7) &&
      (u.patHi.getLsbD (7 - (x - u.x.toNat)) || u.patLo.getLsbD (7 - (x - u.x.toNat)))
    (ppuStep s).ppu.status.getLsbD 6 = (q.status.getLsbD 6 || (bg && sp && decide (x ≠ 255)))

/-! ## Reset -/

/-- Power-on with any cartridge and any memory contents: the CPU as `cpu.reset()` says, the memories as given, the PPU at
scanline 0, dot 21 with nothing pending. -/
def Obligations.PowerOnState : Prop :=
  ∀ (q : Params) (prg chr ramInit vramInit oamInit : Memory) (pal : Vector (BitVec 6) 32),
    let s := powerOn q prg chr ramInit vramInit oamInit pal
    s.cpu = { a := q.resetA, x := q.resetX, y := q.resetY, sp := 0xFD, p := 0x24
              pc := joinBytes (peek 0xFFFD s) (peek 0xFFFC s), nmiPending := false, halted := false } ∧
    s.ppu = { Ppu.reset with oam := oamInit, palette := pal } ∧ s.cycles = 7 ∧
    s.ram = ramInit ∧ s.prg = prg ∧ s.prgRam = [] ∧ s.chr = chr ∧ s.vram = vramInit ∧ s.params = q

/-- A later reset: the CPU's registers set, then 21 dots, in which the position moves on, an NMI can be latched, and every
memory and the PPU's port registers are kept; the CPU is no longer halted. -/
def Obligations.WarmResetKeepsMemoryAndPpu : Prop :=
  ∀ s : State, s.ppu.Legal →
    let t := resetSequence s
    t = clockDots 21 { s with
      cpu := { a := s.params.resetA, x := s.params.resetX, y := s.params.resetY, sp := 0xFD, p := 0x24
               pc := vectorWord 0xFFFC s, nmiPending := false, halted := false }
      cycles := 7 } ∧
    t.cpu = { a := s.params.resetA, x := s.params.resetX, y := s.params.resetY, sp := 0xFD, p := 0x24
              pc := vectorWord 0xFFFC s, nmiPending := t.cpu.nmiPending, halted := false } ∧
    t.ppu.position = (s.ppu.position + 21) % 89342 ∧ t.cycles = 7 ∧ t.ram = s.ram ∧ t.prg = s.prg ∧
    t.prgRam = s.prgRam ∧ t.chr = s.chr ∧ t.vram = s.vram ∧ t.params = s.params ∧ t.irqLine = s.irqLine ∧
    t.ppu.oam = s.ppu.oam ∧ t.ppu.palette = s.ppu.palette ∧ t.ppu.ctrl = s.ppu.ctrl ∧ t.ppu.mask = s.ppu.mask ∧
    t.ppu.t = s.ppu.t ∧ t.ppu.fineX = s.ppu.fineX ∧ t.ppu.w = s.ppu.w ∧ t.ppu.readBuffer = s.ppu.readBuffer
end

