-- ==== Sys2Proof/Laws/Bits.lean ====
section
/-! SUPPORT. What the bit-field helpers do, bit by bit and as numbers. -/

namespace Sys2Proof

theorem putField_getLsbD {k n : Nat} (lo : Nat) (f : BitVec k) (x : BitVec n) (i : Nat) :
    (putField lo f x).getLsbD i =
      if lo ≤ i ∧ i < lo + k ∧ i < n then f.getLsbD (i - lo) else x.getLsbD i := by
  unfold putField
  simp only [BitVec.getLsbD_or, BitVec.getLsbD_and, BitVec.getLsbD_not, BitVec.getLsbD_shiftLeft,
    BitVec.getLsbD_setWidth, BitVec.getLsbD_allOnes]
  by_cases hn : i < n
  · by_cases hlo : lo ≤ i
    · have h2 : i - lo < n := by omega
      by_cases hk : i < lo + k
      · have h1 : i - lo < k := by omega
        simp [hn, hlo, hk, h1, h2, Nat.not_lt.mpr hlo]
      · have h1 : ¬ i - lo < k := by omega
        have h3 : f.getLsbD (i - lo) = false := BitVec.getLsbD_of_ge _ _ (by omega)
        simp [hn, hlo, hk, h1, h3]
    · simp [hn, hlo, Nat.lt_of_not_le hlo]
  · simp [hn, BitVec.getLsbD_of_ge x i (by omega)]

theorem putBit_getLsbD {n : Nat} (i : Nat) (b : Bool) (x : BitVec n) (j : Nat) :
    (putBit i b x).getLsbD j = if i = j ∧ j < n then b else x.getLsbD j := by
  unfold putBit
  rw [putField_getLsbD]
  by_cases h : i = j
  · subst h
    by_cases hn : i < n <;> simp [hn]
  · rw [if_neg (by omega), if_neg (by omega)]

theorem field_getLsbD {n : Nat} (lo k : Nat) (x : BitVec n) (i : Nat) :
    (field lo k x).getLsbD i = (decide (i < k) && x.getLsbD (lo + i)) := by
  simp [field]

@[simp] theorem joinBytes_hi_lo (w : Word) : joinBytes (hiByte w) (loByte w) = w := by
  unfold joinBytes hiByte loByte
  apply BitVec.eq_of_getLsbD_eq
  intro i hi
  simp only [BitVec.getLsbD_append, BitVec.getLsbD_extractLsb']
  by_cases h : i < 8
  · simp [h]
  · have h2 : i - 8 < 8 := by omega
    have h3 : 8 + (i - 8) = i := by omega
    simp [h, h2, h3]

@[simp] theorem loByte_joinBytes (hi lo : Byte) : loByte (joinBytes hi lo) = lo := by
  unfold joinBytes loByte
  apply BitVec.eq_of_getLsbD_eq
  intro i h
  rw [BitVec.getLsbD_extractLsb', BitVec.getLsbD_append]
  simp only [Nat.zero_add, h, decide_true, if_true, Bool.true_and]

@[simp] theorem hiByte_joinBytes (hi lo : Byte) : hiByte (joinBytes hi lo) = hi := by
  unfold joinBytes hiByte
  apply BitVec.eq_of_getLsbD_eq
  intro i h
  rw [BitVec.getLsbD_extractLsb', BitVec.getLsbD_append]
  have h2 : ¬ 8 + i < 8 := by omega
  have h3 : 8 + i - 8 = i := by omega
  simp only [h, h2, h3, decide_true, if_false, Bool.true_and]

theorem joinBytes_toNat (hi lo : Byte) : (joinBytes hi lo).toNat = 256 * hi.toNat + lo.toNat := by
  unfold joinBytes
  rw [BitVec.toNat_append, ← Nat.shiftLeft_add_eq_or_of_lt lo.isLt, Nat.shiftLeft_eq]
  omega

theorem loByte_toNat (w : Word) : (loByte w).toNat = w.toNat % 256 := by
  simp [loByte, BitVec.extractLsb'_toNat]

theorem hiByte_toNat (w : Word) : (hiByte w).toNat = w.toNat / 256 := by
  have := w.isLt
  simp only [hiByte, BitVec.extractLsb'_toNat, Nat.shiftRight_eq_div_pow]
  omega

@[simp] theorem zext16_toNat (b : Byte) : (zext16 b).toNat = b.toNat := by
  have := b.isLt
  simp only [zext16, BitVec.toNat_setWidth]
  omega

theorem bit_le_one (b : Bool) : bit b ≤ 1 := by cases b <;> simp [bit]

/-- A field that was put reads back. -/
theorem field_putField_self {k n : Nat} (lo : Nat) (f : BitVec k) (x : BitVec n) (h : lo + k ≤ n) :
    field lo k (putField lo f x) = f := by
  apply BitVec.eq_of_getLsbD_eq
  intro i hi
  rw [field_getLsbD, putField_getLsbD, if_pos (by omega), Nat.add_sub_cancel_left]
  simp only [hi, decide_true, Bool.true_and]

/-- A field outside the one that was put reads as before. -/
theorem field_putField_disjoint {k j n : Nat} (lo lo' : Nat) (f : BitVec k) (x : BitVec n)
    (h : lo' + j ≤ lo ∨ lo + k ≤ lo') : field lo' j (putField lo f x) = field lo' j x := by
  apply BitVec.eq_of_getLsbD_eq
  intro i hi
  rw [field_getLsbD, field_getLsbD, putField_getLsbD, if_neg (by omega)]

end Sys2Proof
end

