-- ==== Sys2Proof/Laws/Memory.lean ====
section
/-! SUPPORT. Reading after writing, and that a write keeps the canonical form. -/

namespace Sys2Proof.Machine

theorem Memory.sortedFrom_mono {lo lo' : Nat} {m : Memory} (h : Memory.sortedFrom lo m = true)
    (hle : lo' ≤ lo) : Memory.sortedFrom lo' m = true := by
  cases m with
  | nil => rfl
  | cons c rest =>
    obtain ⟨a, b⟩ := c
    simp only [Memory.sortedFrom, Bool.and_eq_true, decide_eq_true_eq] at h ⊢
    exact ⟨⟨by omega, h.1.2⟩, h.2⟩

theorem Memory.read_below {lo : Nat} {m : Memory} (h : Memory.sortedFrom lo m = true) {k : Nat}
    (hk : k < lo) : Memory.read m k = Memory.absent := by
  induction m generalizing lo with
  | nil => rfl
  | cons c rest ih =>
    obtain ⟨a, b⟩ := c
    simp only [Memory.sortedFrom, Bool.and_eq_true, decide_eq_true_eq] at h
    have ha : a ≠ k := by omega
    simp only [Memory.read, ha, if_false]
    exact ih h.2 (by omega)

theorem Memory.sortedFrom_cons {lo k : Nat} {b : Byte} {m : Memory}
    (h : Memory.sortedFrom (k + 1) m = true) (hk : lo ≤ k) :
    Memory.sortedFrom lo (Memory.cons k b m) = true := by
  unfold Memory.cons
  split
  · exact Memory.sortedFrom_mono h (by omega)
  · next hb =>
    simp only [Memory.sortedFrom, Bool.and_eq_true, decide_eq_true_eq]
    exact ⟨⟨hk, by simpa using hb⟩, h⟩

theorem Memory.read_cons_self {k : Nat} {b : Byte} {m : Memory}
    (h : Memory.sortedFrom (k + 1) m = true) : Memory.read (Memory.cons k b m) k = b := by
  unfold Memory.cons
  split
  · next hb => rw [Memory.read_below h (by omega), hb]
  · simp [Memory.read]

theorem Memory.read_cons_other {k j : Nat} {b : Byte} {m : Memory} (h : j ≠ k) :
    Memory.read (Memory.cons k b m) j = Memory.read m j := by
  unfold Memory.cons
  split
  · rfl
  · simp [Memory.read, Ne.symm h]

theorem Memory.sortedFrom_write {lo k : Nat} {b : Byte} {m : Memory}
    (h : Memory.sortedFrom lo m = true) (hk : lo ≤ k) :
    Memory.sortedFrom lo (Memory.write m k b) = true := by
  induction m generalizing lo with
  | nil => exact Memory.sortedFrom_cons rfl hk
  | cons c rest ih =>
    obtain ⟨a, x⟩ := c
    have h' := h
    simp only [Memory.sortedFrom, Bool.and_eq_true, decide_eq_true_eq] at h
    unfold Memory.write
    split
    · next hlt =>
      simp only [Memory.sortedFrom, Bool.and_eq_true, decide_eq_true_eq]
      exact ⟨h.1, ih h.2 hlt⟩
    · split
      · next heq => exact Memory.sortedFrom_cons (heq ▸ h.2) hk
      · apply Memory.sortedFrom_cons _ hk
        simp only [Memory.sortedFrom, Bool.and_eq_true, decide_eq_true_eq]
        exact ⟨⟨by omega, h.1.2⟩, h.2⟩

/-- A write keeps the canonical form. -/
theorem Memory.wf_write {m : Memory} (k : Nat) (b : Byte) (h : Memory.wf m = true) :
    Memory.wf (Memory.write m k b) = true :=
  Memory.sortedFrom_write h (Nat.zero_le k)

theorem Memory.read_write_self_from {lo k : Nat} {b : Byte} {m : Memory}
    (h : Memory.sortedFrom lo m = true) : Memory.read (Memory.write m k b) k = b := by
  induction m generalizing lo with
  | nil => exact Memory.read_cons_self rfl
  | cons c rest ih =>
    obtain ⟨a, x⟩ := c
    have h' := h
    simp only [Memory.sortedFrom, Bool.and_eq_true, decide_eq_true_eq] at h
    unfold Memory.write
    split
    · next hlt =>
      have ha : a ≠ k := by omega
      simp only [Memory.read, ha, if_false]
      exact ih h.2
    · split
      · next heq => exact Memory.read_cons_self (heq ▸ h.2)
      · apply Memory.read_cons_self
        simp only [Memory.sortedFrom, Bool.and_eq_true, decide_eq_true_eq]
        exact ⟨⟨by omega, h.1.2⟩, h.2⟩

/-- A read after a write to the same address gives the byte written. -/
theorem Memory.read_write_self {m : Memory} (k : Nat) (b : Byte) (h : Memory.wf m = true) :
    Memory.read (Memory.write m k b) k = b :=
  Memory.read_write_self_from h

/-- A write leaves every other address alone. -/
theorem Memory.read_write_other (m : Memory) {k j : Nat} (b : Byte) (h : j ≠ k) :
    Memory.read (Memory.write m k b) j = Memory.read m j := by
  induction m with
  | nil => exact Memory.read_cons_other h
  | cons c rest ih =>
    obtain ⟨a, x⟩ := c
    unfold Memory.write
    split
    · simp only [Memory.read]
      split
      · rfl
      · exact ih
    · split
      · next heq =>
        rw [Memory.read_cons_other h]
        have : a ≠ j := by omega
        simp [Memory.read, this]
      · exact Memory.read_cons_other h

theorem Memory.below_cons {size k : Nat} {b : Byte} {m : Memory}
    (h : Memory.below size m = true) (hk : k < size) : Memory.below size (Memory.cons k b m) = true := by
  unfold Memory.cons
  split
  · exact h
  · simpa [Memory.below, hk] using h

/-- A write inside the array keeps every address inside it. -/
theorem Memory.below_write {size k : Nat} (b : Byte) {m : Memory}
    (h : Memory.below size m = true) (hk : k < size) : Memory.below size (Memory.write m k b) = true := by
  induction m with
  | nil => exact Memory.below_cons h hk
  | cons c rest ih =>
    obtain ⟨a, x⟩ := c
    have h' : decide (a < size) = true ∧ Memory.below size rest = true := by
      simpa [Memory.below] using h
    unfold Memory.write
    split
    · have := ih h'.2
      simp only [Memory.below, List.all_cons, Bool.and_eq_true]
      exact ⟨h'.1, this⟩
    · split
      · exact Memory.below_cons h'.2 hk
      · exact Memory.below_cons h hk

/-- Memories in canonical form that read alike are equal. -/
theorem Memory.ext_from {lo : Nat} {m n : Memory} (hm : Memory.sortedFrom lo m = true)
    (hn : Memory.sortedFrom lo n = true) (h : ∀ k, Memory.read m k = Memory.read n k) : m = n := by
  induction m generalizing lo n with
  | nil =>
    cases n with
    | nil => rfl
    | cons d rest' =>
      obtain ⟨a, b⟩ := d
      simp only [Memory.sortedFrom, Bool.and_eq_true] at hn
      have := h a
      simp only [Memory.read, if_true] at this
      rw [← this] at hn
      simp at hn
  | cons c rest ih =>
    obtain ⟨a, b⟩ := c
    simp only [Memory.sortedFrom, Bool.and_eq_true, decide_eq_true_eq] at hm
    cases n with
    | nil =>
      have := h a
      simp only [Memory.read, if_true] at this
      rw [this] at hm
      simp at hm
    | cons d rest' =>
      obtain ⟨a', b'⟩ := d
      simp only [Memory.sortedFrom, Bool.and_eq_true, decide_eq_true_eq] at hn
      have haa : a = a' := by
        rcases Nat.lt_trichotomy a a' with hlt | heq | hgt
        · have h1 := h a
          have hne : a' ≠ a := by omega
          simp only [Memory.read, if_true, hne, if_false] at h1
          rw [Memory.read_below hn.2 (by omega)] at h1
          rw [h1] at hm
          simp at hm
        · exact heq
        · have h1 := h a'
          have hne : a ≠ a' := by omega
          simp only [Memory.read, if_true, hne, if_false] at h1
          rw [Memory.read_below hm.2 (by omega)] at h1
          rw [← h1] at hn
          simp at hn
      subst haa
      have hb : b = b' := by
        have := h a
        simpa [Memory.read] using this
      subst hb
      congr 1
      apply ih hm.2 hn.2
      intro k
      have hk := h k
      by_cases hak : a = k
      · subst hak
        rw [Memory.read_below hm.2 (by omega), Memory.read_below hn.2 (by omega)]
      · simpa only [Memory.read, hak, if_false] using hk

/-- Equal memories are equal data. -/
theorem Memory.ext {m n : Memory} (hm : Memory.wf m = true) (hn : Memory.wf n = true)
    (h : ∀ k, Memory.read m k = Memory.read n k) : m = n :=
  Memory.ext_from hm hn h

end Sys2Proof.Machine
end

