-- ==== Sys2Proof/Laws/State.lean ====
section
/-! SUPPORT. One lemma per field per update of the state, each true by rfl. -/

namespace Sys2Proof.Machine

variable (s : State)

@[simp] theorem State.setA_cpu_a (v : Byte) : (s.setA v).cpu.a = v := rfl
@[simp] theorem State.setA_cpu_x (v : Byte) : (s.setA v).cpu.x = s.cpu.x := rfl
@[simp] theorem State.setA_cpu_y (v : Byte) : (s.setA v).cpu.y = s.cpu.y := rfl
@[simp] theorem State.setA_cpu_sp (v : Byte) : (s.setA v).cpu.sp = s.cpu.sp := rfl
@[simp] theorem State.setA_cpu_pc (v : Byte) : (s.setA v).cpu.pc = s.cpu.pc := rfl
@[simp] theorem State.setA_cpu_p (v : Byte) : (s.setA v).cpu.p = s.cpu.p := rfl
@[simp] theorem State.setA_cpu_nmiPending (v : Byte) : (s.setA v).cpu.nmiPending = s.cpu.nmiPending := rfl
@[simp] theorem State.setA_cpu_halted (v : Byte) : (s.setA v).cpu.halted = s.cpu.halted := rfl
@[simp] theorem State.setA_ppu (v : Byte) : (s.setA v).ppu = s.ppu := rfl
@[simp] theorem State.setA_ram (v : Byte) : (s.setA v).ram = s.ram := rfl
@[simp] theorem State.setA_prg (v : Byte) : (s.setA v).prg = s.prg := rfl
@[simp] theorem State.setA_prgRam (v : Byte) : (s.setA v).prgRam = s.prgRam := rfl
@[simp] theorem State.setA_chr (v : Byte) : (s.setA v).chr = s.chr := rfl
@[simp] theorem State.setA_vram (v : Byte) : (s.setA v).vram = s.vram := rfl
@[simp] theorem State.setA_params (v : Byte) : (s.setA v).params = s.params := rfl
@[simp] theorem State.setA_irqLine (v : Byte) : (s.setA v).irqLine = s.irqLine := rfl
@[simp] theorem State.setA_cycles (v : Byte) : (s.setA v).cycles = s.cycles := rfl
@[simp] theorem State.setA_pixels (v : Byte) : (s.setA v).pixels = s.pixels := rfl
@[simp] theorem State.setX_cpu_a (v : Byte) : (s.setX v).cpu.a = s.cpu.a := rfl
@[simp] theorem State.setX_cpu_x (v : Byte) : (s.setX v).cpu.x = v := rfl
@[simp] theorem State.setX_cpu_y (v : Byte) : (s.setX v).cpu.y = s.cpu.y := rfl
@[simp] theorem State.setX_cpu_sp (v : Byte) : (s.setX v).cpu.sp = s.cpu.sp := rfl
@[simp] theorem State.setX_cpu_pc (v : Byte) : (s.setX v).cpu.pc = s.cpu.pc := rfl
@[simp] theorem State.setX_cpu_p (v : Byte) : (s.setX v).cpu.p = s.cpu.p := rfl
@[simp] theorem State.setX_cpu_nmiPending (v : Byte) : (s.setX v).cpu.nmiPending = s.cpu.nmiPending := rfl
@[simp] theorem State.setX_cpu_halted (v : Byte) : (s.setX v).cpu.halted = s.cpu.halted := rfl
@[simp] theorem State.setX_ppu (v : Byte) : (s.setX v).ppu = s.ppu := rfl
@[simp] theorem State.setX_ram (v : Byte) : (s.setX v).ram = s.ram := rfl
@[simp] theorem State.setX_prg (v : Byte) : (s.setX v).prg = s.prg := rfl
@[simp] theorem State.setX_prgRam (v : Byte) : (s.setX v).prgRam = s.prgRam := rfl
@[simp] theorem State.setX_chr (v : Byte) : (s.setX v).chr = s.chr := rfl
@[simp] theorem State.setX_vram (v : Byte) : (s.setX v).vram = s.vram := rfl
@[simp] theorem State.setX_params (v : Byte) : (s.setX v).params = s.params := rfl
@[simp] theorem State.setX_irqLine (v : Byte) : (s.setX v).irqLine = s.irqLine := rfl
@[simp] theorem State.setX_cycles (v : Byte) : (s.setX v).cycles = s.cycles := rfl
@[simp] theorem State.setX_pixels (v : Byte) : (s.setX v).pixels = s.pixels := rfl
@[simp] theorem State.setY_cpu_a (v : Byte) : (s.setY v).cpu.a = s.cpu.a := rfl
@[simp] theorem State.setY_cpu_x (v : Byte) : (s.setY v).cpu.x = s.cpu.x := rfl
@[simp] theorem State.setY_cpu_y (v : Byte) : (s.setY v).cpu.y = v := rfl
@[simp] theorem State.setY_cpu_sp (v : Byte) : (s.setY v).cpu.sp = s.cpu.sp := rfl
@[simp] theorem State.setY_cpu_pc (v : Byte) : (s.setY v).cpu.pc = s.cpu.pc := rfl
@[simp] theorem State.setY_cpu_p (v : Byte) : (s.setY v).cpu.p = s.cpu.p := rfl
@[simp] theorem State.setY_cpu_nmiPending (v : Byte) : (s.setY v).cpu.nmiPending = s.cpu.nmiPending := rfl
@[simp] theorem State.setY_cpu_halted (v : Byte) : (s.setY v).cpu.halted = s.cpu.halted := rfl
@[simp] theorem State.setY_ppu (v : Byte) : (s.setY v).ppu = s.ppu := rfl
@[simp] theorem State.setY_ram (v : Byte) : (s.setY v).ram = s.ram := rfl
@[simp] theorem State.setY_prg (v : Byte) : (s.setY v).prg = s.prg := rfl
@[simp] theorem State.setY_prgRam (v : Byte) : (s.setY v).prgRam = s.prgRam := rfl
@[simp] theorem State.setY_chr (v : Byte) : (s.setY v).chr = s.chr := rfl
@[simp] theorem State.setY_vram (v : Byte) : (s.setY v).vram = s.vram := rfl
@[simp] theorem State.setY_params (v : Byte) : (s.setY v).params = s.params := rfl
@[simp] theorem State.setY_irqLine (v : Byte) : (s.setY v).irqLine = s.irqLine := rfl
@[simp] theorem State.setY_cycles (v : Byte) : (s.setY v).cycles = s.cycles := rfl
@[simp] theorem State.setY_pixels (v : Byte) : (s.setY v).pixels = s.pixels := rfl
@[simp] theorem State.setSp_cpu_a (v : Byte) : (s.setSp v).cpu.a = s.cpu.a := rfl
@[simp] theorem State.setSp_cpu_x (v : Byte) : (s.setSp v).cpu.x = s.cpu.x := rfl
@[simp] theorem State.setSp_cpu_y (v : Byte) : (s.setSp v).cpu.y = s.cpu.y := rfl
@[simp] theorem State.setSp_cpu_sp (v : Byte) : (s.setSp v).cpu.sp = v := rfl
@[simp] theorem State.setSp_cpu_pc (v : Byte) : (s.setSp v).cpu.pc = s.cpu.pc := rfl
@[simp] theorem State.setSp_cpu_p (v : Byte) : (s.setSp v).cpu.p = s.cpu.p := rfl
@[simp] theorem State.setSp_cpu_nmiPending (v : Byte) : (s.setSp v).cpu.nmiPending = s.cpu.nmiPending := rfl
@[simp] theorem State.setSp_cpu_halted (v : Byte) : (s.setSp v).cpu.halted = s.cpu.halted := rfl
@[simp] theorem State.setSp_ppu (v : Byte) : (s.setSp v).ppu = s.ppu := rfl
@[simp] theorem State.setSp_ram (v : Byte) : (s.setSp v).ram = s.ram := rfl
@[simp] theorem State.setSp_prg (v : Byte) : (s.setSp v).prg = s.prg := rfl
@[simp] theorem State.setSp_prgRam (v : Byte) : (s.setSp v).prgRam = s.prgRam := rfl
@[simp] theorem State.setSp_chr (v : Byte) : (s.setSp v).chr = s.chr := rfl
@[simp] theorem State.setSp_vram (v : Byte) : (s.setSp v).vram = s.vram := rfl
@[simp] theorem State.setSp_params (v : Byte) : (s.setSp v).params = s.params := rfl
@[simp] theorem State.setSp_irqLine (v : Byte) : (s.setSp v).irqLine = s.irqLine := rfl
@[simp] theorem State.setSp_cycles (v : Byte) : (s.setSp v).cycles = s.cycles := rfl
@[simp] theorem State.setSp_pixels (v : Byte) : (s.setSp v).pixels = s.pixels := rfl
@[simp] theorem State.setPc_cpu_a (v : Word) : (s.setPc v).cpu.a = s.cpu.a := rfl
@[simp] theorem State.setPc_cpu_x (v : Word) : (s.setPc v).cpu.x = s.cpu.x := rfl
@[simp] theorem State.setPc_cpu_y (v : Word) : (s.setPc v).cpu.y = s.cpu.y := rfl
@[simp] theorem State.setPc_cpu_sp (v : Word) : (s.setPc v).cpu.sp = s.cpu.sp := rfl
@[simp] theorem State.setPc_cpu_pc (v : Word) : (s.setPc v).cpu.pc = v := rfl
@[simp] theorem State.setPc_cpu_p (v : Word) : (s.setPc v).cpu.p = s.cpu.p := rfl
@[simp] theorem State.setPc_cpu_nmiPending (v : Word) : (s.setPc v).cpu.nmiPending = s.cpu.nmiPending := rfl
@[simp] theorem State.setPc_cpu_halted (v : Word) : (s.setPc v).cpu.halted = s.cpu.halted := rfl
@[simp] theorem State.setPc_ppu (v : Word) : (s.setPc v).ppu = s.ppu := rfl
@[simp] theorem State.setPc_ram (v : Word) : (s.setPc v).ram = s.ram := rfl
@[simp] theorem State.setPc_prg (v : Word) : (s.setPc v).prg = s.prg := rfl
@[simp] theorem State.setPc_prgRam (v : Word) : (s.setPc v).prgRam = s.prgRam := rfl
@[simp] theorem State.setPc_chr (v : Word) : (s.setPc v).chr = s.chr := rfl
@[simp] theorem State.setPc_vram (v : Word) : (s.setPc v).vram = s.vram := rfl
@[simp] theorem State.setPc_params (v : Word) : (s.setPc v).params = s.params := rfl
@[simp] theorem State.setPc_irqLine (v : Word) : (s.setPc v).irqLine = s.irqLine := rfl
@[simp] theorem State.setPc_cycles (v : Word) : (s.setPc v).cycles = s.cycles := rfl
@[simp] theorem State.setPc_pixels (v : Word) : (s.setPc v).pixels = s.pixels := rfl
@[simp] theorem State.setP_cpu_a (v : Byte) : (s.setP v).cpu.a = s.cpu.a := rfl
@[simp] theorem State.setP_cpu_x (v : Byte) : (s.setP v).cpu.x = s.cpu.x := rfl
@[simp] theorem State.setP_cpu_y (v : Byte) : (s.setP v).cpu.y = s.cpu.y := rfl
@[simp] theorem State.setP_cpu_sp (v : Byte) : (s.setP v).cpu.sp = s.cpu.sp := rfl
@[simp] theorem State.setP_cpu_pc (v : Byte) : (s.setP v).cpu.pc = s.cpu.pc := rfl
@[simp] theorem State.setP_cpu_p (v : Byte) : (s.setP v).cpu.p = v := rfl
@[simp] theorem State.setP_cpu_nmiPending (v : Byte) : (s.setP v).cpu.nmiPending = s.cpu.nmiPending := rfl
@[simp] theorem State.setP_cpu_halted (v : Byte) : (s.setP v).cpu.halted = s.cpu.halted := rfl
@[simp] theorem State.setP_ppu (v : Byte) : (s.setP v).ppu = s.ppu := rfl
@[simp] theorem State.setP_ram (v : Byte) : (s.setP v).ram = s.ram := rfl
@[simp] theorem State.setP_prg (v : Byte) : (s.setP v).prg = s.prg := rfl
@[simp] theorem State.setP_prgRam (v : Byte) : (s.setP v).prgRam = s.prgRam := rfl
@[simp] theorem State.setP_chr (v : Byte) : (s.setP v).chr = s.chr := rfl
@[simp] theorem State.setP_vram (v : Byte) : (s.setP v).vram = s.vram := rfl
@[simp] theorem State.setP_params (v : Byte) : (s.setP v).params = s.params := rfl
@[simp] theorem State.setP_irqLine (v : Byte) : (s.setP v).irqLine = s.irqLine := rfl
@[simp] theorem State.setP_cycles (v : Byte) : (s.setP v).cycles = s.cycles := rfl
@[simp] theorem State.setP_pixels (v : Byte) : (s.setP v).pixels = s.pixels := rfl
@[simp] theorem State.setHalted_cpu_a (v : Bool) : (s.setHalted v).cpu.a = s.cpu.a := rfl
@[simp] theorem State.setHalted_cpu_x (v : Bool) : (s.setHalted v).cpu.x = s.cpu.x := rfl
@[simp] theorem State.setHalted_cpu_y (v : Bool) : (s.setHalted v).cpu.y = s.cpu.y := rfl
@[simp] theorem State.setHalted_cpu_sp (v : Bool) : (s.setHalted v).cpu.sp = s.cpu.sp := rfl
@[simp] theorem State.setHalted_cpu_pc (v : Bool) : (s.setHalted v).cpu.pc = s.cpu.pc := rfl
@[simp] theorem State.setHalted_cpu_p (v : Bool) : (s.setHalted v).cpu.p = s.cpu.p := rfl
@[simp] theorem State.setHalted_cpu_nmiPending (v : Bool) : (s.setHalted v).cpu.nmiPending = s.cpu.nmiPending := rfl
@[simp] theorem State.setHalted_cpu_halted (v : Bool) : (s.setHalted v).cpu.halted = v := rfl
@[simp] theorem State.setHalted_ppu (v : Bool) : (s.setHalted v).ppu = s.ppu := rfl
@[simp] theorem State.setHalted_ram (v : Bool) : (s.setHalted v).ram = s.ram := rfl
@[simp] theorem State.setHalted_prg (v : Bool) : (s.setHalted v).prg = s.prg := rfl
@[simp] theorem State.setHalted_prgRam (v : Bool) : (s.setHalted v).prgRam = s.prgRam := rfl
@[simp] theorem State.setHalted_chr (v : Bool) : (s.setHalted v).chr = s.chr := rfl
@[simp] theorem State.setHalted_vram (v : Bool) : (s.setHalted v).vram = s.vram := rfl
@[simp] theorem State.setHalted_params (v : Bool) : (s.setHalted v).params = s.params := rfl
@[simp] theorem State.setHalted_irqLine (v : Bool) : (s.setHalted v).irqLine = s.irqLine := rfl
@[simp] theorem State.setHalted_cycles (v : Bool) : (s.setHalted v).cycles = s.cycles := rfl
@[simp] theorem State.setHalted_pixels (v : Bool) : (s.setHalted v).pixels = s.pixels := rfl
@[simp] theorem State.setNmiPending_cpu_a (v : Bool) : (s.setNmiPending v).cpu.a = s.cpu.a := rfl
@[simp] theorem State.setNmiPending_cpu_x (v : Bool) : (s.setNmiPending v).cpu.x = s.cpu.x := rfl
@[simp] theorem State.setNmiPending_cpu_y (v : Bool) : (s.setNmiPending v).cpu.y = s.cpu.y := rfl
@[simp] theorem State.setNmiPending_cpu_sp (v : Bool) : (s.setNmiPending v).cpu.sp = s.cpu.sp := rfl
@[simp] theorem State.setNmiPending_cpu_pc (v : Bool) : (s.setNmiPending v).cpu.pc = s.cpu.pc := rfl
@[simp] theorem State.setNmiPending_cpu_p (v : Bool) : (s.setNmiPending v).cpu.p = s.cpu.p := rfl
@[simp] theorem State.setNmiPending_cpu_nmiPending (v : Bool) : (s.setNmiPending v).cpu.nmiPending = v := rfl
@[simp] theorem State.setNmiPending_cpu_halted (v : Bool) : (s.setNmiPending v).cpu.halted = s.cpu.halted := rfl
@[simp] theorem State.setNmiPending_ppu (v : Bool) : (s.setNmiPending v).ppu = s.ppu := rfl
@[simp] theorem State.setNmiPending_ram (v : Bool) : (s.setNmiPending v).ram = s.ram := rfl
@[simp] theorem State.setNmiPending_prg (v : Bool) : (s.setNmiPending v).prg = s.prg := rfl
@[simp] theorem State.setNmiPending_prgRam (v : Bool) : (s.setNmiPending v).prgRam = s.prgRam := rfl
@[simp] theorem State.setNmiPending_chr (v : Bool) : (s.setNmiPending v).chr = s.chr := rfl
@[simp] theorem State.setNmiPending_vram (v : Bool) : (s.setNmiPending v).vram = s.vram := rfl
@[simp] theorem State.setNmiPending_params (v : Bool) : (s.setNmiPending v).params = s.params := rfl
@[simp] theorem State.setNmiPending_irqLine (v : Bool) : (s.setNmiPending v).irqLine = s.irqLine := rfl
@[simp] theorem State.setNmiPending_cycles (v : Bool) : (s.setNmiPending v).cycles = s.cycles := rfl
@[simp] theorem State.setNmiPending_pixels (v : Bool) : (s.setNmiPending v).pixels = s.pixels := rfl
@[simp] theorem State.setCycles_cpu (v : Nat) : (s.setCycles v).cpu = s.cpu := rfl
@[simp] theorem State.setCycles_ppu (v : Nat) : (s.setCycles v).ppu = s.ppu := rfl
@[simp] theorem State.setCycles_ram (v : Nat) : (s.setCycles v).ram = s.ram := rfl
@[simp] theorem State.setCycles_prg (v : Nat) : (s.setCycles v).prg = s.prg := rfl
@[simp] theorem State.setCycles_prgRam (v : Nat) : (s.setCycles v).prgRam = s.prgRam := rfl
@[simp] theorem State.setCycles_chr (v : Nat) : (s.setCycles v).chr = s.chr := rfl
@[simp] theorem State.setCycles_vram (v : Nat) : (s.setCycles v).vram = s.vram := rfl
@[simp] theorem State.setCycles_params (v : Nat) : (s.setCycles v).params = s.params := rfl
@[simp] theorem State.setCycles_irqLine (v : Nat) : (s.setCycles v).irqLine = s.irqLine := rfl
@[simp] theorem State.setCycles_cycles (v : Nat) : (s.setCycles v).cycles = v := rfl
@[simp] theorem State.setCycles_pixels (v : Nat) : (s.setCycles v).pixels = s.pixels := rfl
@[simp] theorem State.setPpu_cpu (v : Ppu) : (s.setPpu v).cpu = s.cpu := rfl
@[simp] theorem State.setPpu_ppu (v : Ppu) : (s.setPpu v).ppu = v := rfl
@[simp] theorem State.setPpu_ram (v : Ppu) : (s.setPpu v).ram = s.ram := rfl
@[simp] theorem State.setPpu_prg (v : Ppu) : (s.setPpu v).prg = s.prg := rfl
@[simp] theorem State.setPpu_prgRam (v : Ppu) : (s.setPpu v).prgRam = s.prgRam := rfl
@[simp] theorem State.setPpu_chr (v : Ppu) : (s.setPpu v).chr = s.chr := rfl
@[simp] theorem State.setPpu_vram (v : Ppu) : (s.setPpu v).vram = s.vram := rfl
@[simp] theorem State.setPpu_params (v : Ppu) : (s.setPpu v).params = s.params := rfl
@[simp] theorem State.setPpu_irqLine (v : Ppu) : (s.setPpu v).irqLine = s.irqLine := rfl
@[simp] theorem State.setPpu_cycles (v : Ppu) : (s.setPpu v).cycles = s.cycles := rfl
@[simp] theorem State.setPpu_pixels (v : Ppu) : (s.setPpu v).pixels = s.pixels := rfl
@[simp] theorem State.setPpu_self : s.setPpu s.ppu = s := rfl
@[simp] theorem State.setPpu_setPpu (u v : Ppu) : (s.setPpu u).setPpu v = s.setPpu v := rfl

end Sys2Proof.Machine
end

