-- ==== Sys2Proof/Laws/Bus.lean ====
section
/-! SUPPORT. What the CPU bus can do: the address decode, one read, one write. -/

namespace Sys2Proof.Machine

/-! ## The decode -/

theorem cpuCell_ram (q : Params) {a : Word} (h : a.toNat < 0x2000) :
    cpuCell q a = .ram (a.toNat % 0x0800) := by
  simp [cpuCell, h]

theorem cpuCell_port (q : Params) {a : Word} (h : 0x2000 ≤ a.toNat) (h' : a.toNat < 0x4000) :
    cpuCell q a = .port (a.toNat % 8) := by
  simp [cpuCell, h', Nat.not_lt.mpr h]

theorem cpuCell_stub (q : Params) {a : Word} (h : 0x4000 ≤ a.toNat) (h' : a.toNat < 0x4020) :
    cpuCell q a = .nothing := by
  have h2 : ¬ a.toNat < 0x2000 := by omega
  simp [cpuCell, h', Nat.not_lt.mpr h, h2]

theorem cpuCell_mapper (q : Params) {a : Word} (h : 0x4020 ≤ a.toNat) :
    cpuCell q a = translateCpuAddress q a.toNat := by
  have h2 : ¬ a.toNat < 0x2000 := by omega
  have h3 : ¬ a.toNat < 0x4000 := by omega
  simp [cpuCell, Nat.not_lt.mpr h, h2, h3]

/-- The mapper's part of the decode selects no RAM and no port. -/
theorem translateCpuAddress_cases (q : Params) (a : Nat) :
    translateCpuAddress q a = .nothing ∨ (∃ i, translateCpuAddress q a = .prgRam i) ∨
      ∃ k i, translateCpuAddress q a = .prg k i := by
  unfold translateCpuAddress
  split
  · exact .inl rfl
  · split
    · split
      · exact .inr (.inl ⟨_, rfl⟩)
      · exact .inl rfl
    · split <;> exact .inr (.inr ⟨_, _, rfl⟩)

/-- The decode stays inside the arrays (rules R40, R44). -/
theorem cpuCell_bounds (q : Params) (a : Word) :
    (∀ i, cpuCell q a = .ram i → i < 2048) ∧ (∀ n, cpuCell q a = .port n → n < 8) ∧
      (∀ i, cpuCell q a = .prgRam i → i < 8192) ∧
      (∀ k i, cpuCell q a = .prg k i → prgIndex k i < 32768) := by
  have ha := a.isLt
  simp only [cpuCell, translateCpuAddress, prgIndex]
  cases q.prgBanks <;> cases q.hasPrgRam <;> refine ⟨?_, ?_, ?_, ?_⟩ <;> intros <;>
    (repeat' split at *) <;> simp_all <;> omega

/-- An address in page 0 or page 1 is internal RAM, at itself. -/
theorem cpuCell_low (q : Params) {a : Word} (h : a.toNat < 0x0800) : cpuCell q a = .ram a.toNat := by
  rw [cpuCell_ram q (by omega), Nat.mod_eq_of_lt h]

theorem cpuCell_zext16 (q : Params) (b : Byte) : cpuCell q (zext16 b) = .ram b.toNat := by
  have hb := b.isLt
  rw [cpuCell_low q (by simp [zext16]; omega)]
  simp [zext16]
  omega

theorem stackAddr_toNat (sp : Byte) : (stackAddr sp).toNat = 256 + sp.toNat := by
  have h := sp.isLt
  simp only [stackAddr, zext16, BitVec.toNat_add, BitVec.toNat_setWidth]
  simp
  omega

theorem cpuCell_stackAddr (q : Params) (sp : Byte) : cpuCell q (stackAddr sp) = .ram (256 + sp.toNat) := by
  have h := sp.isLt
  rw [cpuCell_low q (by rw [stackAddr_toNat]; omega), stackAddr_toNat]

theorem stackAddr_injective {a b : Byte} (h : stackAddr a = stackAddr b) : a = b := by
  have := congrArg BitVec.toNat h
  rw [stackAddr_toNat, stackAddr_toNat] at this
  exact BitVec.eq_of_toNat_eq (by omega)

/-! ## One read -/

/-- A port read changes nothing but the PPU's registers. -/
theorem portRead_state (n : Nat) (s : State) : (portRead n s).2 = s.setPpu (portRead n s).2.ppu := by
  unfold portRead
  split <;> rfl

/-- A port read keeps the PPU's memories and counters; it may write `status`, `w`, `vbl_read_latch`,
`read_buffer` and `v`. -/
theorem portRead_ppu (n : Nat) (s : State) :
    (portRead n s).2.ppu =
      { s.ppu with
        status := (portRead n s).2.ppu.status, w := (portRead n s).2.ppu.w
        vblReadLatch := (portRead n s).2.ppu.vblReadLatch
        readBuffer := (portRead n s).2.ppu.readBuffer, v := (portRead n s).2.ppu.v } := by
  unfold portRead
  split <;> rfl

/-- A bus read changes nothing but the PPU's registers. -/
theorem memRead_state (a : Word) (s : State) : (memRead a s).2 = s.setPpu (memRead a s).2.ppu := by
  unfold memRead
  split
  · rfl
  · exact portRead_state _ _
  · rfl
  · rfl
  · rfl

/-- A bus read that reaches no port changes nothing. -/
theorem memRead_noPort {a : Word} {s : State} (h : isPort s.params a = false) : (memRead a s).2 = s := by
  unfold memRead
  unfold isPort at h
  split <;> simp_all

theorem memRead_ram {a : Word} {s : State} {i : Nat} (h : cpuCell s.params a = .ram i) :
    memRead a s = (s.ram.read i, s) := by
  unfold memRead; rw [h]

theorem memRead_port {a : Word} {s : State} {n : Nat} (h : cpuCell s.params a = .port n) :
    memRead a s = portRead n s := by
  unfold memRead; rw [h]

theorem memRead_zext16 (b : Byte) (s : State) : memRead (zext16 b) s = (s.ram.read b.toNat, s) :=
  memRead_ram (cpuCell_zext16 _ b)

theorem memRead_stackAddr (sp : Byte) (s : State) :
    memRead (stackAddr sp) s = (s.ram.read (256 + sp.toNat), s) :=
  memRead_ram (cpuCell_stackAddr _ sp)

@[simp] theorem memRead_cpu (a : Word) (s : State) : (memRead a s).2.cpu = s.cpu := by
  rw [memRead_state]; rfl
@[simp] theorem memRead_params (a : Word) (s : State) : (memRead a s).2.params = s.params := by
  rw [memRead_state]; rfl
@[simp] theorem memRead_ram_kept (a : Word) (s : State) : (memRead a s).2.ram = s.ram := by
  rw [memRead_state]; rfl
@[simp] theorem memRead_prg (a : Word) (s : State) : (memRead a s).2.prg = s.prg := by
  rw [memRead_state]; rfl
@[simp] theorem memRead_prgRam (a : Word) (s : State) : (memRead a s).2.prgRam = s.prgRam := by
  rw [memRead_state]; rfl
@[simp] theorem memRead_chr (a : Word) (s : State) : (memRead a s).2.chr = s.chr := by
  rw [memRead_state]; rfl
@[simp] theorem memRead_vram (a : Word) (s : State) : (memRead a s).2.vram = s.vram := by
  rw [memRead_state]; rfl
@[simp] theorem memRead_irqLine (a : Word) (s : State) : (memRead a s).2.irqLine = s.irqLine := by
  rw [memRead_state]; rfl
@[simp] theorem memRead_pixels (a : Word) (s : State) : (memRead a s).2.pixels = s.pixels := by
  rw [memRead_state]; rfl
@[simp] theorem memRead_cycles (a : Word) (s : State) : (memRead a s).2.cycles = s.cycles := by
  rw [memRead_state]; rfl

/-- What a read of a byte depends on: the decode, the arrays and `OPEN_BUS` (and the PPU, for a port). -/
theorem peek_congr {s t : State} (hq : t.params = s.params) (hram : t.ram = s.ram)
    (hprg : t.prg = s.prg) (hprgRam : t.prgRam = s.prgRam) {a : Word}
    (h : isPort s.params a = false) : peek a t = peek a s := by
  unfold peek memRead
  unfold isPort at h
  rw [hq, hram, hprg, hprgRam]
  split <;> simp_all

theorem ppuRead_congr {s t : State} (hq : t.params = s.params) (hchr : t.chr = s.chr)
    (hvram : t.vram = s.vram) (hpal : t.ppu.palette = s.ppu.palette) (a : PpuAddr) :
    ppuRead t a = ppuRead s a := by
  unfold ppuRead Ppu.colour
  rw [hq, hchr, hvram, hpal]

/-- A bus read keeps every byte of storage. -/
theorem memRead_storageKept (a : Word) (s : State) : StorageKept s (memRead a s).2 where
  cpu := fun b h => peek_congr (memRead_params a s) (memRead_ram_kept a s) (memRead_prg a s) (memRead_prgRam a s) h
  ppu := ppuRead_congr (memRead_params a s) (memRead_chr a s) (memRead_vram a s) (by
    unfold memRead
    split
    · rfl
    · rw [portRead_ppu]
    all_goals rfl)
  oam := fun k => by
    unfold memRead
    split
    · rfl
    · rw [portRead_ppu]
    all_goals rfl
  prg := memRead_prg a s
  params := memRead_params a s
  irqLine := memRead_irqLine a s
  pixels := memRead_pixels a s

/-! ## One write -/

/-- A PPU bus write keeps everything but one byte of `CHR`, `VRAM` or the palette. -/
theorem ppuWrite_state (s : State) (a : PpuAddr) (x : Byte) :
    ppuWrite s a x =
      { s with
        chr := (ppuWrite s a x).chr, vram := (ppuWrite s a x).vram
        ppu := { s.ppu with palette := (ppuWrite s a x).ppu.palette } } := by
  unfold ppuWrite
  split
  · split <;> rfl
  · split <;> rfl

/-- A port write changes nothing outside the PPU, `CHR` and `VRAM`. -/
theorem portWrite_state (n : Nat) (d : Byte) (s : State) :
    portWrite n d s =
      { s with
        ppu := (portWrite n d s).ppu, chr := (portWrite n d s).chr, vram := (portWrite n d s).vram } := by
  unfold portWrite
  split
  case h_7 =>
    unfold writePpuData
    rw [ppuWrite_state]
    rfl
  all_goals rfl

/-- A bus write changes nothing but RAM, PRG RAM, the PPU, `CHR` and `VRAM`. -/
theorem memWrite_state (a : Word) (v : Byte) (s : State) :
    memWrite a v s =
      { s with
        ram := (memWrite a v s).ram, prgRam := (memWrite a v s).prgRam, ppu := (memWrite a v s).ppu
        chr := (memWrite a v s).chr, vram := (memWrite a v s).vram } := by
  unfold memWrite
  split
  · rfl
  · rw [portWrite_state]
  · rfl
  · rfl
  · rfl

@[simp] theorem memWrite_cpu (a : Word) (v : Byte) (s : State) : (memWrite a v s).cpu = s.cpu := by
  rw [memWrite_state]
@[simp] theorem memWrite_params (a : Word) (v : Byte) (s : State) : (memWrite a v s).params = s.params := by
  rw [memWrite_state]
@[simp] theorem memWrite_prg (a : Word) (v : Byte) (s : State) : (memWrite a v s).prg = s.prg := by
  rw [memWrite_state]
@[simp] theorem memWrite_irqLine (a : Word) (v : Byte) (s : State) : (memWrite a v s).irqLine = s.irqLine := by
  rw [memWrite_state]
@[simp] theorem memWrite_pixels (a : Word) (v : Byte) (s : State) : (memWrite a v s).pixels = s.pixels := by
  rw [memWrite_state]
@[simp] theorem memWrite_cycles (a : Word) (v : Byte) (s : State) : (memWrite a v s).cycles = s.cycles := by
  rw [memWrite_state]

theorem memWrite_ram {a : Word} {s : State} {i : Nat} (h : cpuCell s.params a = .ram i) (v : Byte) :
    memWrite a v s = { s with ram := s.ram.write i v } := by
  unfold memWrite; rw [h]

theorem memWrite_port {a : Word} {s : State} {n : Nat} (h : cpuCell s.params a = .port n) (v : Byte) :
    memWrite a v s = portWrite n v s := by
  unfold memWrite; rw [h]

theorem memWrite_prgRamCell {a : Word} {s : State} {i : Nat} (h : cpuCell s.params a = .prgRam i) (v : Byte) :
    memWrite a v s = { s with prgRam := s.prgRam.write i v } := by
  unfold memWrite; rw [h]

theorem memWrite_prgCell {a : Word} {s : State} {k i : Nat} (h : cpuCell s.params a = .prg k i) (v : Byte) :
    memWrite a v s = s := by
  unfold memWrite; rw [h]

theorem memWrite_nothing {a : Word} {s : State} (h : cpuCell s.params a = .nothing) (v : Byte) :
    memWrite a v s = s := by
  unfold memWrite; rw [h]

theorem memWrite_stackAddr (sp : Byte) (v : Byte) (s : State) :
    memWrite (stackAddr sp) v s = { s with ram := s.ram.write (256 + sp.toNat) v } :=
  memWrite_ram (cpuCell_stackAddr _ sp) v

/-- What one bus write leaves of storage. -/
theorem memWrite_storedAt {s : State} (hram : Memory.wf s.ram = true) (hprg : Memory.wf s.prgRam = true)
    (ea : Word) (v : Byte) : StoredAt ea v s (memWrite ea v s) where
  others := by
    intro a ha hne
    unfold peek memRead
    rw [memWrite_params]
    unfold isPort at ha
    cases hc : cpuCell s.params ea with
    | ram i =>
      rw [memWrite_ram hc]
      cases hd : cpuCell s.params a with
      | ram j =>
        simp only
        rw [Memory.read_write_other _ _ (by rintro rfl; exact hne (hd.trans hc.symm))]
      | _ => simp_all
    | prgRam i =>
      rw [memWrite_prgRamCell hc]
      cases hd : cpuCell s.params a with
      | prgRam j =>
        simp only
        rw [Memory.read_write_other _ _ (by rintro rfl; exact hne (hd.trans hc.symm))]
      | _ => simp_all
    | port n =>
      rw [memWrite_port hc, portWrite_state]
      cases hd : cpuCell s.params a with
      | _ => simp_all
    | prg k i => rw [memWrite_prgCell hc]
    | nothing => rw [memWrite_nothing hc]
  stored := by
    intro hw a hcell
    unfold peek memRead
    rw [memWrite_params, hcell]
    unfold isWritable at hw
    cases hc : cpuCell s.params ea with
    | ram i =>
      rw [memWrite_ram hc]
      exact Memory.read_write_self i v hram
    | prgRam i =>
      rw [memWrite_prgRamCell hc]
      exact Memory.read_write_self i v hprg
    | _ => simp_all
  readOnly := by
    intro hw a ha
    unfold isWritable at hw
    cases hc : cpuCell s.params ea with
    | port n =>
      rw [memWrite_port hc, portWrite_state]
      refine peek_congr ?_ ?_ ?_ ?_ ha <;> rfl
    | prg k i => rw [memWrite_prgCell hc]
    | nothing => rw [memWrite_nothing hc]
    | _ => simp_all
  noPort := by
    intro hp
    unfold isPort at hp
    cases hc : cpuCell s.params ea with
    | ram i => rw [memWrite_ram hc]; exact ⟨rfl, fun _ => rfl⟩
    | prgRam i => rw [memWrite_prgRamCell hc]; exact ⟨rfl, fun _ => rfl⟩
    | prg k i => rw [memWrite_prgCell hc]; exact ⟨rfl, fun _ => rfl⟩
    | nothing => rw [memWrite_nothing hc]; exact ⟨rfl, fun _ => rfl⟩
    | port n => simp_all
  port := by
    intro n hc
    rw [memWrite_port hc]
    exact ⟨rfl, fun _ => rfl⟩
  prg := memWrite_prg ea v s
  params := memWrite_params ea v s
  irqLine := memWrite_irqLine ea v s
  pixels := memWrite_pixels ea v s

end Sys2Proof.Machine
end

