-- ==== Sys2Proof/Laws/Decode.lean ====
section
/-! SUPPORT. The opcode byte alone selects the instruction's shape: its length and its well-formedness do not
depend on the operand bytes (30_encoding.md rules R61, R79); the decoder never rejects bytes of that length. -/

namespace Sys2Proof

namespace OpMap

/-- A cell's length and well-formedness depend on the opcode byte alone. -/
def Cell.Uniform (c : Cell) : Prop :=
  ∀ op b1 b2 c1 c2, (c op b1 b2).operandBytes = (c op c1 c2).operandBytes ∧
    (c op b1 b2).wellFormed = (c op c1 c2).wellFormed

theorem und_uniform : Cell.Uniform und := fun _ _ _ _ _ => by simp only [und, and_self]

theorem opcodeMap_uniform : ∀ row ∈ opcodeMap, ∀ c ∈ row, Cell.Uniform c := by
  simp only [opcodeMap, mapRow0, mapRow1, mapRow2, mapRow3, mapRow4, mapRow5, mapRow6, mapRow7, mapRow8,
    mapRow9, mapRowA, mapRowB, mapRowC, mapRowD, mapRowE, mapRowF, List.forall_mem_append,
    List.forall_mem_cons]
  and_intros <;> first
    | exact und_uniform
    | exact List.forall_mem_nil _
    | intro _ b1 b2 c1 c2
      try dsimp only [rd, md, ea, ab, abx, aby, sub, jabs, jind]
      generalize joinBytes b2 b1 = w
      generalize joinBytes c2 c1 = w'
      exact ⟨rfl, rfl⟩

end OpMap

theorem getD_mem_or {α : Type} (l : List α) (n : Nat) (d : α) : l.getD n d ∈ l ∨ l.getD n d = d := by
  rw [List.getD_eq_getElem?_getD]
  cases h : l[n]? with
  | none => exact .inr rfl
  | some x => exact .inl (List.mem_of_getElem? h)

theorem decodeBytes_uniform (op b1 b2 : Byte) :
    (decodeBytes op b1 b2).operandBytes = operandCount op ∧
      (decodeBytes op b1 b2).wellFormed = (decodeBytes op 0 0).wellFormed := by
  unfold operandCount decodeBytes
  rcases getD_mem_or (OpMap.opcodeMap.getD (field 4 4 op).toNat []) (field 0 4 op).toNat OpMap.und with h | h
  · rcases getD_mem_or OpMap.opcodeMap (field 4 4 op).toNat [] with h' | h'
    · exact OpMap.opcodeMap_uniform _ h' _ h op b1 b2 0 0
    · rw [h'] at h
      cases h
  · rw [h]
    exact ⟨rfl, rfl⟩

/-- Every opcode byte has an instruction of the machine (rule R77). -/
theorem decodeBytes_zero_all :
    ((List.range 256).all fun n => (decodeBytes (BitVec.ofNat 8 n) 0 0).wellFormed) = true := by
  decide +kernel

theorem decodeBytes_zero_wellFormed (op : Byte) : (decodeBytes op 0 0).wellFormed = true := by
  have h := List.all_eq_true.mp decodeBytes_zero_all op.toNat (List.mem_range.mpr op.isLt)
  rw [BitVec.ofNat_toNat, BitVec.setWidth_eq] at h
  exact h

theorem decodeBytes_wellFormed (op b1 b2 : Byte) : (decodeBytes op b1 b2).WellFormed :=
  (decodeBytes_uniform op b1 b2).2.trans (decodeBytes_zero_wellFormed op)

/-- An instruction is at most three bytes long (rule R61). -/
theorem Instr.operandBytes_le (i : Instr) : i.operandBytes ≤ 2 := by
  have ha : ∀ m : Addr, m.operandBytes ≤ 2 := fun m => by cases m <;> exact of_decide_eq_true rfl
  have hs : ∀ src : Src, src.operandBytes ≤ 2 := fun src => by
    cases src
    · exact of_decide_eq_true rfl
    · exact ha _
  have hd : ∀ d : Dst, d.operandBytes ≤ 2 := fun d => by
    cases d
    · exact of_decide_eq_true rfl
    · exact ha _
  cases i <;> first | exact of_decide_eq_true rfl | exact hs _ | exact hd _ | exact ha _

theorem operandCount_le (op : Byte) : operandCount op ≤ 2 := Instr.operandBytes_le _

/-- The decoder takes exactly the bytes the opcode asks for. -/
theorem decode_of_length (op : Byte) (bs : List Byte) (h : bs.length = operandCount op) :
    ∃ b1 b2, decode (op :: bs) = .ok (decodeBytes op b1 b2, []) := by
  have h2 := operandCount_le op
  match bs, h with
  | [], h => exact ⟨0, 0, by simp only [decode, ← h, List.length_nil]⟩
  | [b1], h => exact ⟨b1, 0, by simp only [decode, ← h, List.length_cons, List.length_nil]⟩
  | [b1, b2], h => exact ⟨b1, b2, by simp only [decode, ← h, List.length_cons, List.length_nil]⟩
  | _ :: _ :: _ :: _, h =>
    simp only [List.length_cons] at h
    omega

/-- What the decoder accepts is an instruction of the machine. -/
theorem decode_wellFormed {bs rest : List Byte} {i : Instr} (h : decode bs = .ok (i, rest)) : i.WellFormed := by
  unfold decode at h
  split at h
  · cases h
  · split at h
    · cases h; exact decodeBytes_wellFormed _ _ _
    · cases h; exact decodeBytes_wellFormed _ _ _
    · cases h; exact decodeBytes_wellFormed _ _ _
    · cases h

end Sys2Proof
end

