-- ==== Sys2Proof/Laws/Dot.lean ====
section
/-! SUPPORT. What one dot of the PPU can do: what it leaves alone, how the position advances, and that it
keeps the ranges of the PPU's fields. -/

namespace Sys2Proof.Machine

/-- What the actions of a dot leave alone: everything outside the PPU but the pixel output, and the PPU's
port-written registers, its memories, its position and its two latches. -/
structure DotKeeps (s t : State) : Prop where
  rest : t = { s with ppu := t.ppu, pixels := t.pixels }
  ctrl : t.ppu.ctrl = s.ppu.ctrl
  mask : t.ppu.mask = s.ppu.mask
  tReg : t.ppu.t = s.ppu.t
  fineX : t.ppu.fineX = s.ppu.fineX
  w : t.ppu.w = s.ppu.w
  readBuffer : t.ppu.readBuffer = s.ppu.readBuffer
  oam : t.ppu.oam = s.ppu.oam
  palette : t.ppu.palette = s.ppu.palette
  scanline : t.ppu.scanline = s.ppu.scanline
  dot : t.ppu.dot = s.ppu.dot
  vblReadLatch : t.ppu.vblReadLatch = s.ppu.vblReadLatch
  nmiLine : t.ppu.nmiLine = s.ppu.nmiLine

theorem DotKeeps.refl (s : State) : DotKeeps s s := by constructor <;> rfl

theorem DotKeeps.trans {s t u : State} (h : DotKeeps s t) (h' : DotKeeps t u) : DotKeeps s u where
  rest := by
    have h1 := h.rest
    have h2 := h'.rest
    rw [h1] at h2
    exact h2
  ctrl := h'.ctrl.trans h.ctrl
  mask := h'.mask.trans h.mask
  tReg := h'.tReg.trans h.tReg
  fineX := h'.fineX.trans h.fineX
  w := h'.w.trans h.w
  readBuffer := h'.readBuffer.trans h.readBuffer
  oam := h'.oam.trans h.oam
  palette := h'.palette.trans h.palette
  scanline := h'.scanline.trans h.scanline
  dot := h'.dot.trans h.dot
  vblReadLatch := h'.vblReadLatch.trans h.vblReadLatch
  nmiLine := h'.nmiLine.trans h.nmiLine

/-! ## The parts of a dot -/

theorem pixelPart_keeps (s : State) : DotKeeps s (pixelPart s) := by
  unfold pixelPart pixelDot emitPixel
  split
  · dsimp only
    split <;> constructor <;> rfl
  · exact DotKeeps.refl s

/-- A background fetch writes the four latches, the shifters and `v`. -/
theorem backgroundFetch_ppu (s : State) :
    backgroundFetch s =
      s.setPpu
        { s.ppu with
          ntLatch := (backgroundFetch s).ppu.ntLatch, atLatch := (backgroundFetch s).ppu.atLatch
          ptLoLatch := (backgroundFetch s).ppu.ptLoLatch, ptHiLatch := (backgroundFetch s).ppu.ptHiLatch
          bgShiftLo := (backgroundFetch s).ppu.bgShiftLo, bgShiftHi := (backgroundFetch s).ppu.bgShiftHi
          atShiftLo := (backgroundFetch s).ppu.atShiftLo, atShiftHi := (backgroundFetch s).ppu.atShiftHi
          v := (backgroundFetch s).ppu.v } := by
  unfold backgroundFetch
  dsimp only
  (repeat' split) <;> rfl

theorem backgroundPart_keeps (s : State) : DotKeeps s (backgroundPart s) := by
  unfold backgroundPart
  split
  · rw [backgroundFetch_ppu]
    constructor <;> rfl
  · exact DotKeeps.refl s

theorem scrollPart_keeps (s : State) : DotKeeps s (scrollPart s) := by
  unfold scrollPart
  (repeat' split) <;> constructor <;> rfl

theorem spriteFetchPart_keeps (s : State) : DotKeeps s (spriteFetchPart s) := by
  unfold spriteFetchPart
  split <;> constructor <;> rfl

theorem verticalPart_keeps (s : State) : DotKeeps s (verticalPart s) := by
  unfold verticalPart
  split <;> constructor <;> rfl

theorem extraFetchPart_keeps (s : State) : DotKeeps s (extraFetchPart s) := by
  unfold extraFetchPart
  split <;> constructor <;> rfl

theorem renderedDot_keeps (s : State) : DotKeeps s (renderedDot s) :=
  (pixelPart_keeps s).trans <| (backgroundPart_keeps _).trans <| (scrollPart_keeps _).trans <|
    (spriteFetchPart_keeps _).trans <| (verticalPart_keeps _).trans (extraFetchPart_keeps _)

theorem blankDot_keeps (s : State) : DotKeeps s (blankDot s) := by
  unfold blankDot backdropDot emitPixel
  split <;> constructor <;> rfl

theorem spriteUnitDot_keeps (s : State) : DotKeeps s (s.setPpu (spriteUnitDot s.ppu)) := by
  unfold spriteUnitDot
  (repeat' split) <;> constructor <;> rfl

theorem renderLineDot_keeps (s : State) : DotKeeps s (renderLineDot s) := by
  unfold renderLineDot
  dsimp only
  refine (spriteUnitDot_keeps s).trans ?_
  split
  · exact renderedDot_keeps _
  · exact blankDot_keeps _

/-! ## The flag events -/

theorem flagEvents_fields (q : Ppu) :
    flagEvents q =
      { q with
        status := (flagEvents q).status, nmiLine := (flagEvents q).nmiLine
        spriteOverflow := (flagEvents q).spriteOverflow } := by
  unfold flagEvents
  split
  · unfold enterVBlank
    split <;> rfl
  · split <;> rfl

/-- When the NMI line is asserted (rule R164). -/
theorem flagEvents_nmiLine (q : Ppu) :
    (flagEvents q).nmiLine =
      (q.nmiLine ||
        (decide (q.scanline = 241 ∧ q.dot = 1) && (!q.vblReadLatch && q.ctrl.getLsbD 7))) := by
  unfold flagEvents
  split
  · next h =>
    unfold enterVBlank
    split
    · next hv => simp [hv]
    · next hv => simp [h, Bool.eq_false_iff.mpr hv]
  · next h =>
    split <;> simp [h, clearFlags]

/-! ## The step -/

/-- The state in the middle of a step: flag events and the actions of the line, before the position advances. -/
def dotActions (s : State) : State :=
  let s1 := s.setPpu (flagEvents s.ppu)
  if isRenderLine s1.ppu.scanline then renderLineDot s1 else s1

theorem ppuStep_eq (s : State) : ppuStep s = (dotActions s).setPpu (endDot (dotActions s).ppu) := rfl

theorem dotActions_keeps (s : State) : DotKeeps (s.setPpu (flagEvents s.ppu)) (dotActions s) := by
  unfold dotActions
  dsimp only
  split
  · exact renderLineDot_keeps _
  · exact DotKeeps.refl _

/-- A dot changes nothing outside the PPU but the pixel output. -/
theorem ppuStep_rest (s : State) :
    ppuStep s = { s with ppu := (ppuStep s).ppu, pixels := (ppuStep s).pixels } := by
  rw [ppuStep_eq, (dotActions_keeps s).rest]
  rfl

theorem advance_fields (q : Ppu) :
    advance q = { q with scanline := (advance q).scanline, dot := (advance q).dot } := by
  unfold advance
  split <;> rfl

/-- What a dot leaves alone in the PPU. -/
theorem ppuStep_ppu (s : State) :
    (ppuStep s).ppu.ctrl = s.ppu.ctrl ∧ (ppuStep s).ppu.mask = s.ppu.mask ∧ (ppuStep s).ppu.t = s.ppu.t ∧
      (ppuStep s).ppu.fineX = s.ppu.fineX ∧ (ppuStep s).ppu.w = s.ppu.w ∧
      (ppuStep s).ppu.readBuffer = s.ppu.readBuffer ∧ (ppuStep s).ppu.oam = s.ppu.oam ∧
      (ppuStep s).ppu.palette = s.ppu.palette := by
  have h := dotActions_keeps s
  rw [ppuStep_eq]
  simp only [State.setPpu_ppu, endDot]
  rw [advance_fields]
  refine ⟨h.ctrl.trans ?_, h.mask.trans ?_, h.tReg.trans ?_, h.fineX.trans ?_, h.w.trans ?_,
    h.readBuffer.trans ?_, h.oam.trans ?_, h.palette.trans ?_⟩ <;>
  · simp only [State.setPpu_ppu]
    rw [flagEvents_fields]

theorem ppuStep_vblReadLatch (s : State) : (ppuStep s).ppu.vblReadLatch = false := by
  rw [ppuStep_eq]
  simp only [State.setPpu_ppu, endDot]
  rw [advance_fields]

theorem ppuStep_nmiLine (s : State) :
    (ppuStep s).ppu.nmiLine =
      (s.ppu.nmiLine ||
        (decide (s.ppu.scanline = 241 ∧ s.ppu.dot = 1) && (!s.ppu.vblReadLatch && s.ppu.ctrl.getLsbD 7))) := by
  rw [ppuStep_eq]
  simp only [State.setPpu_ppu, endDot]
  rw [advance_fields]
  exact (dotActions_keeps s).nmiLine.trans (flagEvents_nmiLine _)

/-- The advance of the position (rule R162). -/
theorem ppuStep_scanline_dot (s : State) :
    (ppuStep s).ppu.dot = (if s.ppu.dot + 1 = 341 then 0 else s.ppu.dot + 1) ∧
      (ppuStep s).ppu.scanline =
        (if s.ppu.dot + 1 = 341 then (if s.ppu.scanline + 1 = 262 then 0 else s.ppu.scanline + 1)
          else s.ppu.scanline) := by
  have h := dotActions_keeps s
  have hd : (dotActions s).ppu.dot = s.ppu.dot := h.dot.trans (by simp only [State.setPpu_ppu]; rw [flagEvents_fields])
  have hs : (dotActions s).ppu.scanline = s.ppu.scanline :=
    h.scanline.trans (by simp only [State.setPpu_ppu]; rw [flagEvents_fields])
  rw [ppuStep_eq]
  simp only [State.setPpu_ppu, endDot]
  unfold advance
  simp only [hd, hs]
  split <;> exact ⟨rfl, rfl⟩

/-- In a legal position the number of the position advances by one, modulo the frame of 89342 dots. -/
theorem ppuStep_position (s : State) (hs : s.ppu.scanline ≤ 261) (hd : s.ppu.dot ≤ 340) :
    (ppuStep s).ppu.position = (s.ppu.position + 1) % 89342 ∧ (ppuStep s).ppu.scanline ≤ 261 ∧
      (ppuStep s).ppu.dot ≤ 340 := by
  obtain ⟨h1, h2⟩ := ppuStep_scanline_dot s
  unfold Ppu.position
  rw [h1, h2]
  refine ⟨?_, ?_, ?_⟩ <;> (repeat' split) <;> omega

/-! ## Legal states -/

/-- The part of legality the actions of a dot are concerned with. -/
structure CountsLegal (q : Ppu) : Prop where
  spriteCount : q.spriteCount ≤ 8
  lineSpriteCount : q.lineSpriteCount ≤ 8
  overflow : q.status.getLsbD 5 = q.spriteOverflow

theorem CountsLegal.of_eq {q r : Ppu} (h : CountsLegal q) (h1 : r.spriteCount = q.spriteCount)
    (h2 : r.lineSpriteCount = q.lineSpriteCount) (h3 : r.status.getLsbD 5 = q.status.getLsbD 5)
    (h4 : r.spriteOverflow = q.spriteOverflow) : CountsLegal r :=
  ⟨h1 ▸ h.spriteCount, h2 ▸ h.lineSpriteCount, by rw [h3, h4]; exact h.overflow⟩

theorem evaluateSprite_count_le (q : Ppu) (e : Evaluation) (n : Nat) (h : e.count ≤ 8) :
    (evaluateSprite q e n).count ≤ 8 := by
  unfold evaluateSprite
  split
  · split
    · next hlt => exact hlt
    · exact h
  · exact h

theorem foldl_evaluateSprite_count_le (q : Ppu) (ns : List Nat) (e : Evaluation) (h : e.count ≤ 8) :
    (ns.foldl (evaluateSprite q) e).count ≤ 8 := by
  induction ns generalizing e with
  | nil => exact h
  | cons n ns ih => exact ih _ (evaluateSprite_count_le q e n h)

theorem evaluation_count_le (q : Ppu) : (evaluation q).count ≤ 8 :=
  foldl_evaluateSprite_count_le q _ _ (Nat.zero_le 8)

theorem spriteUnitDot_counts {q : Ppu} (h : CountsLegal q) : CountsLegal (spriteUnitDot q) := by
  unfold spriteUnitDot
  split
  · refine ⟨?_, h.lineSpriteCount, h.overflow⟩
    unfold clearSecondary
    dsimp only
    split
    · exact Nat.zero_le 8
    · exact h.spriteCount
  · split
    · refine ⟨evaluation_count_le q, h.lineSpriteCount, ?_⟩
      unfold evaluateSprites
      dsimp only
      cases he : (evaluation q).overflow
      · rw [Bool.or_false]
        exact h.overflow
      · rw [if_pos rfl, putBit_getLsbD, Bool.or_true]
        rfl
    · exact h

theorem pixelPart_counts {s : State} (h : CountsLegal s.ppu) : CountsLegal (pixelPart s).ppu := by
  unfold pixelPart pixelDot emitPixel
  split
  · dsimp only
    split
    · exact h.of_eq rfl rfl (by simp only [State.setPpu_ppu]; rw [putBit_getLsbD]; rfl) rfl
    · exact h
  · exact h

theorem backgroundPart_counts {s : State} (h : CountsLegal s.ppu) : CountsLegal (backgroundPart s).ppu := by
  unfold backgroundPart
  split
  · rw [backgroundFetch_ppu]
    exact ⟨h.spriteCount, h.lineSpriteCount, h.overflow⟩
  · exact h

theorem scrollPart_counts {s : State} (h : CountsLegal s.ppu) : CountsLegal (scrollPart s).ppu := by
  unfold scrollPart
  (repeat' split) <;> exact h.of_eq rfl rfl rfl rfl

theorem spriteFetchPart_counts {s : State} (h : CountsLegal s.ppu) : CountsLegal (spriteFetchPart s).ppu := by
  unfold spriteFetchPart
  split
  · refine ⟨h.spriteCount, ?_, h.overflow⟩
    unfold spriteFetchDot
    simp only [State.setPpu_ppu]
    split
    · exact h.spriteCount
    · exact h.lineSpriteCount
  · exact h

theorem verticalPart_counts {s : State} (h : CountsLegal s.ppu) : CountsLegal (verticalPart s).ppu := by
  unfold verticalPart
  split <;> exact h.of_eq rfl rfl rfl rfl

theorem extraFetchPart_counts {s : State} (h : CountsLegal s.ppu) : CountsLegal (extraFetchPart s).ppu := by
  unfold extraFetchPart
  split <;> exact h.of_eq rfl rfl rfl rfl

theorem renderLineDot_counts {s : State} (h : CountsLegal s.ppu) : CountsLegal (renderLineDot s).ppu := by
  unfold renderLineDot
  dsimp only
  have h1 : CountsLegal (s.setPpu (spriteUnitDot s.ppu)).ppu := spriteUnitDot_counts h
  split
  · exact extraFetchPart_counts <| verticalPart_counts <| spriteFetchPart_counts <| scrollPart_counts <|
      backgroundPart_counts <| pixelPart_counts h1
  · unfold blankDot
    split <;> exact h1

theorem flagEvents_counts {q : Ppu} (h : CountsLegal q) : CountsLegal (flagEvents q) := by
  unfold flagEvents
  split
  · unfold enterVBlank
    split
    · exact h
    · refine h.of_eq rfl rfl ?_ rfl
      dsimp only
      rw [putBit_getLsbD]
      rfl
  · split
    · refine ⟨h.spriteCount, h.lineSpriteCount, ?_⟩
      unfold clearFlags
      dsimp only
      rw [putBit_getLsbD, putBit_getLsbD, putBit_getLsbD]
      rfl
    · exact h

theorem dotActions_counts {s : State} (h : CountsLegal s.ppu) : CountsLegal (dotActions s).ppu := by
  unfold dotActions
  dsimp only
  split
  · exact renderLineDot_counts (flagEvents_counts h)
  · exact flagEvents_counts h

theorem Ppu.Legal.counts {q : Ppu} (h : q.Legal) : CountsLegal q := ⟨h.spriteCount, h.lineSpriteCount, h.overflow⟩

/-- A dot keeps the PPU legal. -/
theorem ppuStep_legal {s : State} (h : s.ppu.Legal) : (ppuStep s).ppu.Legal := by
  obtain ⟨-, hs, hd⟩ := ppuStep_position s h.scanline h.dot
  have hc : CountsLegal (ppuStep s).ppu := by
    have := dotActions_counts h.counts
    rw [ppuStep_eq]
    simp only [State.setPpu_ppu, endDot]
    rw [advance_fields]
    exact this.of_eq rfl rfl rfl rfl
  exact ⟨hs, hd, hc.spriteCount, hc.lineSpriteCount, hc.overflow, by
    rw [(ppuStep_ppu s).2.2.2.2.2.2.1]; exact h.oam⟩

/-! ## The Clock's dots -/

theorem clockDot_eq (s : State) :
    clockDot s =
      { ppuStep s with
        ppu := { (ppuStep s).ppu with nmiLine := false }
        cpu := { s.cpu with nmiPending := s.cpu.nmiPending || (ppuStep s).ppu.nmiLine } } := by
  unfold clockDot nmiLine
  dsimp only
  have h := ppuStep_rest s
  cases hn : (ppuStep s).ppu.nmiLine
  · simp only [Bool.false_eq_true, if_false, Bool.or_false]
    have : (ppuStep s).cpu = s.cpu := by rw [h]
    unfold State.setPpu
    rw [← this]
  · simp only [if_true, Bool.or_true]
    have : (ppuStep s).cpu = s.cpu := by rw [h]
    unfold State.setPpu State.setNmiPending
    rw [← this]

/-- A dot of the Clock changes nothing but the PPU, the pixel output and `nmi_pending`. -/
theorem clockDot_rest (s : State) :
    clockDot s =
      { s with
        ppu := (clockDot s).ppu, pixels := (clockDot s).pixels
        cpu := { s.cpu with nmiPending := (clockDot s).cpu.nmiPending } } := by
  rw [clockDot_eq, ppuStep_rest]

theorem clockDots_rest (n : Nat) (s : State) :
    clockDots n s =
      { s with
        ppu := (clockDots n s).ppu, pixels := (clockDots n s).pixels
        cpu := { s.cpu with nmiPending := (clockDots n s).cpu.nmiPending } } := by
  induction n generalizing s with
  | zero => rfl
  | succ n ih =>
    have h1 := ih (clockDot s)
    have h2 := clockDot_rest s
    unfold clockDots
    generalize clockDots n (clockDot s) = u at h1 ⊢
    generalize clockDot s = t at h1 h2
    rw [h2] at h1
    exact h1

theorem clockDot_nmiLine (s : State) : (clockDot s).ppu.nmiLine = false := by rw [clockDot_eq]

theorem clockDot_vblReadLatch (s : State) : (clockDot s).ppu.vblReadLatch = false := by
  rw [clockDot_eq]
  exact ppuStep_vblReadLatch s

theorem clockDot_legal {s : State} (h : s.ppu.Legal) : (clockDot s).ppu.Legal := by
  have := ppuStep_legal h
  rw [clockDot_eq]
  exact ⟨this.scanline, this.dot, this.spriteCount, this.lineSpriteCount, this.overflow, this.oam⟩

theorem clockDots_legal (n : Nat) {s : State} (h : s.ppu.Legal) : (clockDots n s).ppu.Legal := by
  induction n generalizing s with
  | zero => exact h
  | succ n ih => exact ih (clockDot_legal h)

/-- After at least one dot the two latches are 0. -/
theorem clockDots_latches (n : Nat) (s : State) :
    (clockDots (n + 1) s).ppu.nmiLine = false ∧ (clockDots (n + 1) s).ppu.vblReadLatch = false := by
  induction n generalizing s with
  | zero => exact ⟨clockDot_nmiLine s, clockDot_vblReadLatch s⟩
  | succ n ih => exact ih (clockDot s)

/-- The position after `n` dots. -/
theorem clockDots_position (n : Nat) {s : State} (hs : s.ppu.scanline ≤ 261) (hd : s.ppu.dot ≤ 340) :
    (clockDots n s).ppu.position = (s.ppu.position + n) % 89342 := by
  induction n generalizing s with
  | zero =>
    show s.ppu.position = _
    rw [Nat.add_zero, Nat.mod_eq_of_lt]
    unfold Ppu.position
    omega
  | succ n ih =>
    obtain ⟨hp, hs', hd'⟩ := ppuStep_position s hs hd
    have he : (clockDot s).ppu.position = (ppuStep s).ppu.position ∧
        (clockDot s).ppu.scanline = (ppuStep s).ppu.scanline ∧ (clockDot s).ppu.dot = (ppuStep s).ppu.dot := by
      rw [clockDot_eq]
      exact ⟨rfl, rfl, rfl⟩
    show (clockDots n (clockDot s)).ppu.position = _
    rw [ih (he.2.1 ▸ hs') (he.2.2 ▸ hd'), he.1, hp]
    omega

end Sys2Proof.Machine
end

