-- ==== Sys2Proof/Laws/Flags.lean ====
section
/-! SUPPORT. The status byte bit by bit: what each flag write and each flag computation does to every flag. -/

namespace Sys2Proof.Machine

theorem withN_getLsbD (b : Bool) (p : Byte) (i : Nat) :
    (withN b p).getLsbD i = if i = 7 then b else p.getLsbD i := by
  unfold withN
  rw [putBit_getLsbD]
  by_cases h : i = 7
  · simp [h]
  · rw [if_neg (by omega), if_neg h]

theorem withV_getLsbD (b : Bool) (p : Byte) (i : Nat) :
    (withV b p).getLsbD i = if i = 6 then b else p.getLsbD i := by
  unfold withV
  rw [putBit_getLsbD]
  by_cases h : i = 6
  · simp [h]
  · rw [if_neg (by omega), if_neg h]

theorem withD_getLsbD (b : Bool) (p : Byte) (i : Nat) :
    (withD b p).getLsbD i = if i = 3 then b else p.getLsbD i := by
  unfold withD
  rw [putBit_getLsbD]
  by_cases h : i = 3
  · simp [h]
  · rw [if_neg (by omega), if_neg h]

theorem withI_getLsbD (b : Bool) (p : Byte) (i : Nat) :
    (withI b p).getLsbD i = if i = 2 then b else p.getLsbD i := by
  unfold withI
  rw [putBit_getLsbD]
  by_cases h : i = 2
  · simp [h]
  · rw [if_neg (by omega), if_neg h]

theorem withZ_getLsbD (b : Bool) (p : Byte) (i : Nat) :
    (withZ b p).getLsbD i = if i = 1 then b else p.getLsbD i := by
  unfold withZ
  rw [putBit_getLsbD]
  by_cases h : i = 1
  · simp [h]
  · rw [if_neg (by omega), if_neg h]

theorem withC_getLsbD (b : Bool) (p : Byte) (i : Nat) :
    (withC b p).getLsbD i = if i = 0 then b else p.getLsbD i := by
  unfold withC
  rw [putBit_getLsbD]
  by_cases h : i = 0
  · simp [h]
  · rw [if_neg (by omega), if_neg h]

/-- `SetNZ(r)` writes bits 7 and 1 and nothing else. -/
theorem withNZ_getLsbD (r p : Byte) (i : Nat) :
    (withNZ r p).getLsbD i = if i = 7 then r.getLsbD 7 else if i = 1 then r == 0 else p.getLsbD i := by
  unfold withNZ
  rw [withN_getLsbD, withZ_getLsbD]

/-- ADC and SBC write bits 7, 6, 1 and 0. -/
theorem addFlags_getLsbD (a m p : Byte) (i : Nat) :
    (addFlags a m p).getLsbD i =
      if i = 7 then (addResult a m (flagC p)).getLsbD 7
      else if i = 1 then addResult a m (flagC p) == 0
      else if i = 6 then addOverflow a m (flagC p)
      else if i = 0 then addCarry a m (flagC p)
      else p.getLsbD i := by
  unfold addFlags
  rw [withNZ_getLsbD, withV_getLsbD, withC_getLsbD]

/-- The compares write bits 7, 1 and 0. -/
theorem compareFlags_getLsbD (r m p : Byte) (i : Nat) :
    (compareFlags r m p).getLsbD i =
      if i = 7 then (r - m).getLsbD 7
      else if i = 1 then r == m
      else if i = 0 then decide (m.toNat ≤ r.toNat)
      else p.getLsbD i := by
  unfold compareFlags
  rw [withN_getLsbD, withZ_getLsbD, withC_getLsbD]

/-- BIT writes bits 7, 6 and 1. -/
theorem bitFlags_getLsbD (a m p : Byte) (i : Nat) :
    (bitFlags a m p).getLsbD i =
      if i = 6 then m.getLsbD 6
      else if i = 7 then m.getLsbD 7
      else if i = 1 then (a &&& m) == 0
      else p.getLsbD i := by
  unfold bitFlags
  rw [withV_getLsbD, withN_getLsbD, withZ_getLsbD]

/-- A shift or rotate writes bits 7, 1 and 0. -/
theorem shiftFlags_getLsbD (c : Bool) (r p : Byte) (i : Nat) :
    (shiftFlags c r p).getLsbD i =
      if i = 7 then r.getLsbD 7 else if i = 1 then r == 0 else if i = 0 then c else p.getLsbD i := by
  unfold shiftFlags
  rw [withNZ_getLsbD, withC_getLsbD]

/-- PHP and BRK push the flags with bits 5 and 4 set. -/
theorem pushedByProgram_getLsbD (p : Byte) (i : Nat) (h : i < 8) :
    (pushedByProgram p).getLsbD i = (decide (i = 5 ∨ i = 4) || p.getLsbD i) := by
  unfold pushedByProgram
  rw [BitVec.getLsbD_or]
  rcases (by omega : i = 0 ∨ i = 1 ∨ i = 2 ∨ i = 3 ∨ i = 4 ∨ i = 5 ∨ i = 6 ∨ i = 7) with
    h | h | h | h | h | h | h | h <;> subst h <;> simp

/-- NMI and IRQ push the flags with bit 5 set and bit 4 clear. -/
theorem pushedByInterrupt_getLsbD (p : Byte) (i : Nat) (h : i < 8) :
    (pushedByInterrupt p).getLsbD i = (decide (i = 5) || (decide (i ≠ 4) && p.getLsbD i)) := by
  unfold pushedByInterrupt
  rw [BitVec.getLsbD_or, BitVec.getLsbD_and]
  rcases (by omega : i = 0 ∨ i = 1 ∨ i = 2 ∨ i = 3 ∨ i = 4 ∨ i = 5 ∨ i = 6 ∨ i = 7) with
    h | h | h | h | h | h | h | h <;> subst h <;> simp

/-- PLP and RTI take every bit from the pulled byte but bits 5 and 4, which stay. -/
theorem pulledStatus_getLsbD (m p : Byte) (i : Nat) (h : i < 8) :
    (pulledStatus m p).getLsbD i = if i = 5 ∨ i = 4 then p.getLsbD i else m.getLsbD i := by
  unfold pulledStatus
  rw [BitVec.getLsbD_or, BitVec.getLsbD_and, BitVec.getLsbD_and]
  rcases (by omega : i = 0 ∨ i = 1 ∨ i = 2 ∨ i = 3 ∨ i = 4 ∨ i = 5 ∨ i = 6 ∨ i = 7) with
    h | h | h | h | h | h | h | h <;> subst h <;> simp

end Sys2Proof.Machine
end

