-- ==== Sys2Proof/Laws/Operands.lean ====
section
/-! SUPPORT. What the addressing modes, the operand read, the store, the read-modify-write and the stack
operations can do. -/

namespace Sys2Proof.Machine

/-! ## Effective addresses -/

theorem readPair_zeroPage (lo hi : Byte) (s : State) :
    readPair (zext16 lo) (zext16 hi) s = (joinBytes (s.ram.read hi.toNat) (s.ram.read lo.toNat), s) := by
  unfold readPair
  simp only [memRead_zext16]

/-- Finding an effective address changes nothing: pointer bytes lie in page 0, which is RAM. -/
@[simp] theorem resolve_st (m : Addr) (s : State) : (resolve m s).st = s := by
  cases m <;> simp [resolve, indexed, readPair_zeroPage]

theorem resolve_izx_addr (b : Byte) (s : State) :
    (resolve (.izx b) s).addr =
      joinBytes (s.ram.read (b + s.cpu.x + 1).toNat) (s.ram.read (b + s.cpu.x).toNat) := by
  simp only [resolve, readPair_zeroPage]

theorem resolve_izy_addr (b : Byte) (s : State) :
    (resolve (.izy b) s).addr =
      joinBytes (s.ram.read (b + 1).toNat) (s.ram.read b.toNat) + zext16 s.cpu.y := by
  simp only [resolve, readPair_zeroPage, indexed]

/-- A page is crossed exactly when the low bytes carry (rules R70, R71, R74). -/
theorem indexed_crossed (base : Word) (index : Byte) (s : State) :
    (indexed base index s).crossed = decide (256 ≤ (loByte base).toNat + index.toNat) := by
  have hb := base.isLt
  have hi := index.isLt
  have h1 : (base + zext16 index).toNat = (base.toNat + index.toNat) % 65536 := by
    rw [BitVec.toNat_add, zext16_toNat]
  have key : (hiByte (base + zext16 index) = hiByte base) ↔ ¬ 256 ≤ (loByte base).toNat + index.toNat := by
    rw [← BitVec.toNat_inj, hiByte_toNat, hiByte_toNat, loByte_toNat, h1]
    omega
  unfold indexed
  by_cases h : 256 ≤ (loByte base).toNat + index.toNat
  · have : hiByte (base + zext16 index) ≠ hiByte base := fun he => (key.mp he) h
    simp [h, this]
  · simp [h, key.mpr h]

/-! ## The operand of a read instruction -/

/-- The operand read, in one lemma: the byte, and the state it leaves. -/
theorem readSrc_eq (src : Src) (s : State) :
    readSrc src s =
      (operandByte src s, (s.setPpu (ppuAfterRead src s)).setCycles (operandCycles src s)) := by
  cases src with
  | imm b => rfl
  | mem m =>
    simp only [readSrc, resolve_st, operandByte, operandCycles, ppuAfterRead, peek]
    congr 1
    unfold memRead
    cases hc : cpuCell s.params (resolve m s).addr with
    | port n =>
      simp only
      rw [portRead_state]
      rfl
    | _ => rfl

theorem ppuAfterRead_kept (src : Src) (s : State) :
    (ppuAfterRead src s).palette = s.ppu.palette ∧ (ppuAfterRead src s).oam = s.ppu.oam := by
  cases src with
  | imm b => exact ⟨rfl, rfl⟩
  | mem m =>
    simp only [ppuAfterRead]
    split
    · rw [portRead_ppu]
      exact ⟨rfl, rfl⟩
    all_goals exact ⟨rfl, rfl⟩

/-- A state that differs from `s` in the CPU, and in the PPU as the operand read leaves it, has the read
frame. -/
theorem readFrame_of (src : Src) (s : State) (c : Cpu) :
    ReadFrame src s { (s.setPpu (ppuAfterRead src s)).setCycles (operandCycles src s) with cpu := c } where
  storage :=
    { cpu := fun a h => by refine peek_congr ?_ ?_ ?_ ?_ h <;> rfl
      ppu := by
        refine ppuRead_congr ?_ ?_ ?_ ?_
        · rfl
        · rfl
        · rfl
        · exact (ppuAfterRead_kept src s).1
      oam := fun k => by
        show (ppuAfterRead src s).oam.read k = _
        rw [(ppuAfterRead_kept src s).2]
      prg := rfl
      params := rfl
      irqLine := rfl
      pixels := rfl }
  ppu := rfl
  cycles := rfl

/-! ## Stores and read-modify-writes -/

theorem store_eq (m : Addr) (v : Byte) (s : State) :
    store m v s = (memWrite (resolve m s).addr v s).setCycles (writeCycles m) := by
  simp [store]

theorem modifyMem_eq (m : Addr) (f : Byte → Byte) (flags : Byte → Byte → Byte) (s : State) :
    modifyMem m f flags s =
      ((memWrite (resolve m s).addr (f (peek (resolve m s).addr s)) (memRead (resolve m s).addr s).2).setP
        (flags (peek (resolve m s).addr s) s.cpu.p)).setCycles (modifyCycles m) := by
  simp [modifyMem, peek]

/-! ## The stack -/

theorem push_eq (v : Byte) (s : State) :
    push v s =
      { s with
        ram := s.ram.write (256 + s.cpu.sp.toNat) v, cpu := { s.cpu with sp := s.cpu.sp - 1 } } := by
  unfold push
  rw [memWrite_stackAddr]
  rfl

theorem pull_eq (s : State) :
    pull s = (s.ram.read (256 + (s.cpu.sp + 1).toNat), s.setSp (s.cpu.sp + 1)) := by
  unfold pull
  rw [memRead_stackAddr]
  rfl

theorem pushWord_eq (w : Word) (s : State) :
    pushWord w s =
      { s with
        ram := (s.ram.write (256 + s.cpu.sp.toNat) (hiByte w)).write (256 + (s.cpu.sp - 1).toNat) (loByte w)
        cpu := { s.cpu with sp := s.cpu.sp - 1 - 1 } } := by
  unfold pushWord
  rw [push_eq, push_eq]

theorem pullWord_eq (s : State) :
    pullWord s =
      (joinBytes (s.ram.read (256 + (s.cpu.sp + 1 + 1).toNat)) (s.ram.read (256 + (s.cpu.sp + 1).toNat)),
        s.setSp (s.cpu.sp + 1 + 1)) := by
  unfold pullWord
  simp only [pull_eq]
  rfl

theorem pullStatus_eq (s : State) :
    pullStatus s =
      (s.setSp (s.cpu.sp + 1)).setP (pulledStatus (s.ram.read (256 + (s.cpu.sp + 1).toNat)) s.cpu.p) := by
  unfold pullStatus
  rw [pull_eq]
  rfl

/-! ## Vectors, entry and return -/

theorem word_succ_toNat {w : Word} (h : w.toNat < 0xFFFF) : (w + 1).toNat = w.toNat + 1 := by
  rw [BitVec.toNat_add]
  simp
  omega

/-- No port stands at or above $4020 (rule R39). -/
theorem isPort_high (q : Params) {a : Word} (h : 0x4020 ≤ a.toNat) : isPort q a = false := by
  unfold isPort
  rw [cpuCell_mapper _ h]
  rcases translateCpuAddress_cases q a.toNat with he | ⟨i, he⟩ | ⟨k, i, he⟩ <;> rw [he]

/-- At and above $8000 stands PRG ROM (rule R44). -/
theorem cpuCell_rom (q : Params) {a : Word} (h : 0x8000 ≤ a.toNat) : ∃ k i, cpuCell q a = .prg k i := by
  have h2 : ¬ a.toNat < 0x6000 := by omega
  have h3 : ¬ a.toNat < 0x8000 := by omega
  rw [cpuCell_mapper _ (by omega)]
  unfold translateCpuAddress
  simp only [h2, h3, if_false]
  split <;> exact ⟨_, _, rfl⟩

/-- The three vectors lie in PRG ROM: reading one has no side effect. -/
theorem memRead16_vector {vec : Word} (h : 0x8000 ≤ vec.toNat) (h' : vec.toNat < 0xFFFF) (s : State) :
    memRead16 vec s = (vectorWord vec s, s) := by
  unfold memRead16 readPair vectorWord peek
  simp only [memRead_noPort (isPort_high s.params (by omega : 0x4020 ≤ vec.toNat))]
  rw [memRead_noPort (isPort_high s.params (by rw [word_succ_toNat h']; omega))]

/-- The word at a vector depends on the cartridge alone. -/
theorem vectorWord_congr {vec : Word} (h : 0x8000 ≤ vec.toNat) (h' : vec.toNat < 0xFFFF) {s t : State}
    (hq : t.params = s.params) (hprg : t.prg = s.prg) : vectorWord vec t = vectorWord vec s := by
  have hv : ∀ a : Word, 0x8000 ≤ a.toNat → peek a t = peek a s := by
    intro a ha
    obtain ⟨k, i, he⟩ := cpuCell_rom s.params ha
    unfold peek memRead
    rw [hq, hprg, he]
  unfold vectorWord
  rw [hv vec h, hv (vec + 1) (by rw [word_succ_toNat h']; omega)]

/-- Entering a handler through one of the vectors, in one lemma. -/
theorem enterHandler_eq (ret : Word) (pushed : Byte) {vec : Word} (h : 0x8000 ≤ vec.toNat)
    (h' : vec.toNat < 0xFFFF) (s : State) :
    enterHandler ret pushed vec s =
      { s with
        ram :=
          ((s.ram.write (256 + s.cpu.sp.toNat) (hiByte ret)).write (256 + (s.cpu.sp - 1).toNat)
            (loByte ret)).write (256 + (s.cpu.sp - 1 - 1).toNat) pushed
        cpu :=
          { s.cpu with
            sp := s.cpu.sp - 1 - 1 - 1, p := withI true s.cpu.p, pc := vectorWord vec s }
        cycles := 7 } := by
  unfold enterHandler
  rw [pushWord_eq, push_eq]
  simp only [memRead16_vector h h', State.setPc, State.setCycles, State.setP]
  congr 2
  exact vectorWord_congr h h' rfl rfl

theorem returnFromInterrupt_eq (s : State) :
    returnFromInterrupt s =
      { s with
        cpu :=
          { s.cpu with
            sp := s.cpu.sp + 1 + 1 + 1
            p := pulledStatus (s.ram.read (256 + (s.cpu.sp + 1).toNat)) s.cpu.p
            pc :=
              joinBytes (s.ram.read (256 + (s.cpu.sp + 1 + 1 + 1).toNat))
                (s.ram.read (256 + (s.cpu.sp + 1 + 1).toNat)) }
        cycles := 6 } := by
  unfold returnFromInterrupt
  rw [pullStatus_eq, pullWord_eq]
  rfl

end Sys2Proof.Machine
end

