-- ==== Sys2Proof/Laws/Exec.lean ====
section
/-! SUPPORT. What any instruction, and any interrupt service, can do: it answers a next state, it keeps the
cartridge, the parameters, the input, the position of the PPU and the two constant bits of the status, and it
keeps the memories and the PPU legal. -/

namespace Sys2Proof.Machine

/-- What every CPU step keeps. -/
structure StepKeeps (s s' : State) : Prop where
  params : s'.params = s.params
  prg : s'.prg = s.prg
  irqLine : s'.irqLine = s.irqLine
  pixels : s'.pixels = s.pixels
  chr : s.params.chrWritable = false → s'.chr = s.chr
  status : ∀ i, i = 5 ∨ i = 4 → s'.cpu.p.getLsbD i = s.cpu.p.getLsbD i
  scanline : s'.ppu.scanline = s.ppu.scanline
  dot : s'.ppu.dot = s.ppu.dot
  nmiLine : s'.ppu.nmiLine = s.ppu.nmiLine
  storage : s.StorageLegal → s'.StorageLegal
  ppu : s.ppu.Legal → s'.ppu.Legal

theorem StepKeeps.refl (s : State) : StepKeeps s s :=
  ⟨rfl, rfl, rfl, rfl, fun _ => rfl, fun _ _ => rfl, rfl, rfl, rfl, id, id⟩

theorem StepKeeps.trans {s t u : State} (h : StepKeeps s t) (h' : StepKeeps t u) : StepKeeps s u where
  params := h'.params.trans h.params
  prg := h'.prg.trans h.prg
  irqLine := h'.irqLine.trans h.irqLine
  pixels := h'.pixels.trans h.pixels
  chr := fun hw => (h'.chr (by rw [h.params]; exact hw)).trans (h.chr hw)
  status := fun i hi => (h'.status i hi).trans (h.status i hi)
  scanline := h'.scanline.trans h.scanline
  dot := h'.dot.trans h.dot
  nmiLine := h'.nmiLine.trans h.nmiLine
  storage := fun hs => h'.storage (h.storage hs)
  ppu := fun hq => h'.ppu (h.ppu hq)

/-- A change of the CPU's registers and the cycle count that leaves bits 5 and 4 of the status. -/
theorem StepKeeps.cpu {s t : State} (h : StepKeeps s t) {c : Cpu} {n : Nat}
    (hp : ∀ i, i = 5 ∨ i = 4 → c.p.getLsbD i = t.cpu.p.getLsbD i) :
    StepKeeps s { t with cpu := c, cycles := n } :=
  h.trans ⟨rfl, rfl, rfl, rfl, fun _ => rfl, hp, rfl, rfl, rfl, fun hs => ⟨hs.ram, hs.prg, hs.prgRam, hs.chr, hs.vram⟩, id⟩

section Updates
variable {s t : State} (h : StepKeeps s t)
include h

theorem StepKeeps.setA (b : Byte) : StepKeeps s (t.setA b) := h.cpu fun _ _ => rfl
theorem StepKeeps.setX (b : Byte) : StepKeeps s (t.setX b) := h.cpu fun _ _ => rfl
theorem StepKeeps.setY (b : Byte) : StepKeeps s (t.setY b) := h.cpu fun _ _ => rfl
theorem StepKeeps.setSp (b : Byte) : StepKeeps s (t.setSp b) := h.cpu fun _ _ => rfl
theorem StepKeeps.setPc (w : Word) : StepKeeps s (t.setPc w) := h.cpu fun _ _ => rfl
theorem StepKeeps.setHalted (b : Bool) : StepKeeps s (t.setHalted b) := h.cpu fun _ _ => rfl
theorem StepKeeps.setNmiPending (b : Bool) : StepKeeps s (t.setNmiPending b) := h.cpu fun _ _ => rfl
theorem StepKeeps.setCycles (n : Nat) : StepKeeps s (t.setCycles n) := h.cpu fun _ _ => rfl
theorem StepKeeps.setP {p : Byte} (hp : ∀ i, i = 5 ∨ i = 4 → p.getLsbD i = t.cpu.p.getLsbD i) :
    StepKeeps s (t.setP p) := h.cpu hp

end Updates

/-! ## The bus -/

theorem Memory.Legal.write {size : Nat} {m : Memory} (h : m.Legal size) {k : Nat} (hk : k < size) (b : Byte) :
    (m.write k b).Legal size :=
  ⟨Memory.wf_write k b h.wf, Memory.below_write b h.below hk⟩

theorem portRead_legal (n : Nat) {s : State} (h : s.ppu.Legal) : (portRead n s).2.ppu.Legal := by
  have hst : (portRead n s).2.ppu.status.getLsbD 5 = s.ppu.status.getLsbD 5 := by
    unfold portRead
    split
    · show (putBit 7 false s.ppu.status).getLsbD 5 = _
      rw [putBit_getLsbD]
      rfl
    all_goals rfl
  rw [portRead_ppu]
  exact ⟨h.scanline, h.dot, h.spriteCount, h.lineSpriteCount, hst.trans h.overflow, h.oam⟩

theorem memRead_keeps (a : Word) (s : State) : StepKeeps s (memRead a s).2 := by
  unfold memRead
  split
  · exact .refl s
  · next n _ =>
    have h := portRead_state n s
    have hq := portRead_ppu n s
    refine ⟨?_, ?_, ?_, ?_, ?_, ?_, ?_, ?_, ?_, ?_, fun hl => portRead_legal n hl⟩
    · rw [h]; rfl
    · rw [h]; rfl
    · rw [h]; rfl
    · rw [h]; rfl
    · intro _; rw [h]; rfl
    · intro i _; rw [h]; rfl
    · rw [hq]
    · rw [hq]
    · rw [hq]
    · intro hs; rw [h]; exact ⟨hs.ram, hs.prg, hs.prgRam, hs.chr, hs.vram⟩
  · exact .refl s
  · exact .refl s
  · exact .refl s

theorem nametableIndex_lt (m : Mirroring) (a : PpuAddr) : nametableIndex m a < 2048 := by
  unfold nametableIndex
  cases m <;> dsimp only <;> omega

/-- A PPU bus write stays inside the arrays, and leaves the PPU's registers. -/
theorem ppuWrite_keeps (a : PpuAddr) (d : Byte) (s : State) : StepKeeps s (ppuWrite s a d) := by
  have h := ppuWrite_state s a d
  refine ⟨by rw [h], by rw [h], by rw [h], by rw [h], ?_, fun i _ => by rw [h], by rw [h], by rw [h], by rw [h],
    ?_, ?_⟩
  · intro hw
    unfold ppuWrite
    split
    · rw [if_neg (by rw [hw]; exact Bool.false_ne_true)]
    · split <;> rfl
  · intro hs
    unfold ppuWrite
    split
    · next hlt =>
      split
      · exact ⟨hs.ram, hs.prg, hs.prgRam, hs.chr.write hlt d, hs.vram⟩
      · exact hs
    · split
      · exact ⟨hs.ram, hs.prg, hs.prgRam, hs.chr, hs.vram.write (nametableIndex_lt _ _) d⟩
      · exact ⟨hs.ram, hs.prg, hs.prgRam, hs.chr, hs.vram⟩
  · intro hq
    rw [h]
    exact ⟨hq.scanline, hq.dot, hq.spriteCount, hq.lineSpriteCount, hq.overflow, hq.oam⟩

/-- A change of the PPU that leaves its position, its counts, its status and its NMI line. -/
theorem StepKeeps.setPpu {s t : State} (h : StepKeeps s t) {q : Ppu} (h1 : q.scanline = t.ppu.scanline)
    (h2 : q.dot = t.ppu.dot) (h3 : q.nmiLine = t.ppu.nmiLine) (h4 : t.ppu.Legal → q.Legal) :
    StepKeeps s (t.setPpu q) :=
  h.trans ⟨rfl, rfl, rfl, rfl, fun _ => rfl, fun _ _ => rfl, h1, h2, h3,
    fun hs => ⟨hs.ram, hs.prg, hs.prgRam, hs.chr, hs.vram⟩, h4⟩

theorem Ppu.Legal.of_eq {q r : Ppu} (h : q.Legal) (h1 : r.scanline = q.scanline) (h2 : r.dot = q.dot)
    (h3 : r.spriteCount = q.spriteCount) (h4 : r.lineSpriteCount = q.lineSpriteCount)
    (h5 : r.status = q.status) (h6 : r.spriteOverflow = q.spriteOverflow) (h7 : r.oam = q.oam) : r.Legal :=
  ⟨h1 ▸ h.scanline, h2 ▸ h.dot, h3 ▸ h.spriteCount, h4 ▸ h.lineSpriteCount, by rw [h5, h6]; exact h.overflow,
    h7 ▸ h.oam⟩

theorem portWrite_keeps (n : Nat) (d : Byte) (s : State) : StepKeeps s (portWrite n d s) := by
  unfold portWrite
  split
  · exact (StepKeeps.refl s).setPpu rfl rfl rfl fun h => h.of_eq rfl rfl rfl rfl rfl rfl rfl
  · exact (StepKeeps.refl s).setPpu rfl rfl rfl fun h => h.of_eq rfl rfl rfl rfl rfl rfl rfl
  · exact (StepKeeps.refl s).setPpu rfl rfl rfl fun h => h.of_eq rfl rfl rfl rfl rfl rfl rfl
  · refine (StepKeeps.refl s).setPpu rfl rfl rfl fun h =>
      ⟨h.scanline, h.dot, h.spriteCount, h.lineSpriteCount, h.overflow, ?_⟩
    exact h.oam.write s.ppu.oamAddress.isLt d
  · unfold writePpuScroll
    split <;>
    exact (StepKeeps.refl s).setPpu rfl rfl rfl fun h => h.of_eq rfl rfl rfl rfl rfl rfl rfl
  · unfold writePpuAddr
    split <;>
    exact (StepKeeps.refl s).setPpu rfl rfl rfl fun h => h.of_eq rfl rfl rfl rfl rfl rfl rfl
  · unfold writePpuData
    exact (ppuWrite_keeps _ d s).setPpu rfl rfl rfl fun h => h.of_eq rfl rfl rfl rfl rfl rfl rfl
  · exact .refl s

theorem memWrite_keeps (a : Word) (v : Byte) (s : State) : StepKeeps s (memWrite a v s) := by
  have hb := cpuCell_bounds s.params a
  unfold memWrite
  split
  · next i hc =>
    exact ⟨rfl, rfl, rfl, rfl, fun _ => rfl, fun _ _ => rfl, rfl, rfl, rfl,
      fun hs => ⟨hs.ram.write (hb.1 i hc) v, hs.prg, hs.prgRam, hs.chr, hs.vram⟩, id⟩
  · exact portWrite_keeps _ v s
  · next i hc =>
    exact ⟨rfl, rfl, rfl, rfl, fun _ => rfl, fun _ _ => rfl, rfl, rfl, rfl,
      fun hs => ⟨hs.ram, hs.prg, hs.prgRam.write (hb.2.2.1 i hc) v, hs.chr, hs.vram⟩, id⟩
  · exact .refl s
  · exact .refl s

/-! ## Flag computations leave bits 5 and 4 -/

theorem withNZ_status (r p : Byte) (i : Nat) (h : i = 5 ∨ i = 4) : (withNZ r p).getLsbD i = p.getLsbD i := by
  rw [withNZ_getLsbD, if_neg (by omega), if_neg (by omega)]

theorem addFlags_status (a m p : Byte) (i : Nat) (h : i = 5 ∨ i = 4) :
    (addFlags a m p).getLsbD i = p.getLsbD i := by
  rw [addFlags_getLsbD, if_neg (by omega), if_neg (by omega), if_neg (by omega), if_neg (by omega)]

theorem compareFlags_status (r m p : Byte) (i : Nat) (h : i = 5 ∨ i = 4) :
    (compareFlags r m p).getLsbD i = p.getLsbD i := by
  rw [compareFlags_getLsbD, if_neg (by omega), if_neg (by omega), if_neg (by omega)]

theorem bitFlags_status (a m p : Byte) (i : Nat) (h : i = 5 ∨ i = 4) :
    (bitFlags a m p).getLsbD i = p.getLsbD i := by
  rw [bitFlags_getLsbD, if_neg (by omega), if_neg (by omega), if_neg (by omega)]

theorem shiftFlags_status (c : Bool) (r p : Byte) (i : Nat) (h : i = 5 ∨ i = 4) :
    (shiftFlags c r p).getLsbD i = p.getLsbD i := by
  rw [shiftFlags_getLsbD, if_neg (by omega), if_neg (by omega), if_neg (by omega)]

theorem withC_status (b : Bool) (p : Byte) (i : Nat) (h : i = 5 ∨ i = 4) :
    (withC b p).getLsbD i = p.getLsbD i := by
  rw [withC_getLsbD, if_neg (by omega)]

theorem withV_status (b : Bool) (p : Byte) (i : Nat) (h : i = 5 ∨ i = 4) :
    (withV b p).getLsbD i = p.getLsbD i := by
  rw [withV_getLsbD, if_neg (by omega)]

theorem withD_status (b : Bool) (p : Byte) (i : Nat) (h : i = 5 ∨ i = 4) :
    (withD b p).getLsbD i = p.getLsbD i := by
  rw [withD_getLsbD, if_neg (by omega)]

theorem withI_status (b : Bool) (p : Byte) (i : Nat) (h : i = 5 ∨ i = 4) :
    (withI b p).getLsbD i = p.getLsbD i := by
  rw [withI_getLsbD, if_neg (by omega)]

theorem pulledStatus_kept (m p : Byte) (i : Nat) (h : i = 5 ∨ i = 4) :
    (pulledStatus m p).getLsbD i = p.getLsbD i := by
  rw [pulledStatus_getLsbD m p i (by omega), if_pos h]

/-! ## The shared operations -/

theorem push_keeps (v : Byte) (s : State) : StepKeeps s (push v s) :=
  (memWrite_keeps _ v s).setSp _

theorem pull_keeps (s : State) : StepKeeps s (pull s).2 :=
  ((StepKeeps.refl s).setSp (s.cpu.sp + 1)).trans (memRead_keeps _ _)

theorem pushWord_keeps (w : Word) (s : State) : StepKeeps s (pushWord w s) :=
  (push_keeps _ s).trans (push_keeps _ _)

theorem pullWord_keeps (s : State) : StepKeeps s (pullWord s).2 := (pull_keeps s).trans (pull_keeps _)

theorem readPair_keeps (lo hi : Word) (s : State) : StepKeeps s (readPair lo hi s).2 :=
  (memRead_keeps lo s).trans (memRead_keeps hi _)

theorem resolve_keeps (m : Addr) (s : State) : StepKeeps s (resolve m s).st := by
  rw [resolve_st]
  exact .refl s

theorem enterHandler_keeps (ret : Word) (pushed : Byte) (vec : Word) (s : State) :
    StepKeeps s (enterHandler ret pushed vec s) := by
  unfold enterHandler
  dsimp only
  exact (((((pushWord_keeps ret s).trans (push_keeps pushed _)).setP (withI_status true _)).trans
    (readPair_keeps vec (vec + 1) _)).setPc _).setCycles 7

theorem pullStatus_keeps (s : State) : StepKeeps s (pullStatus s) :=
  (pull_keeps s).setP (pulledStatus_kept _ _)

theorem returnFromInterrupt_keeps (s : State) : StepKeeps s (returnFromInterrupt s) :=
  (((pullStatus_keeps s).trans (pullWord_keeps _)).setPc _).setCycles 6

theorem readSrc_keeps (src : Src) (s : State) : StepKeeps s (readSrc src s).2 := by
  cases src with
  | imm b => exact (StepKeeps.refl s).setCycles 2
  | mem m => exact ((resolve_keeps m s).trans (memRead_keeps _ _)).setCycles _

theorem store_keeps (m : Addr) (v : Byte) (s : State) : StepKeeps s (store m v s) :=
  ((resolve_keeps m s).trans (memWrite_keeps _ v _)).setCycles _

theorem modifyMem_keeps (m : Addr) (f : Byte → Byte) {flags : Byte → Byte → Byte}
    (hf : ∀ b p i, i = 5 ∨ i = 4 → (flags b p).getLsbD i = p.getLsbD i) (s : State) :
    StepKeeps s (modifyMem m f flags s) :=
  let r := resolve m s
  let d := memRead r.addr r.st
  have h : StepKeeps s (memWrite r.addr (f d.1) d.2) :=
    ((resolve_keeps m s).trans (memRead_keeps r.addr r.st)).trans (memWrite_keeps r.addr (f d.1) d.2)
  (h.setP (hf d.1 _)).setCycles _

theorem modify_keeps (d : Dst) (f : Byte → Byte) {flags : Byte → Byte → Byte}
    (hf : ∀ b p i, i = 5 ∨ i = 4 → (flags b p).getLsbD i = p.getLsbD i) (s : State) :
    StepKeeps s (modify d f flags s) := by
  cases d with
  | acc => exact (((StepKeeps.refl s).setA _).setP (hf _ _)).setCycles 2
  | mem m => exact modifyMem_keeps m f hf s

theorem branch_keeps (c : Bool) (off : Byte) (s : State) : StepKeeps s (branch c off s) := by
  unfold branch
  dsimp only
  split
  · exact ((StepKeeps.refl s).setPc _).setCycles _
  · exact (StepKeeps.refl s).setCycles 2

theorem jumpTarget_keeps (t : Target) (s : State) : StepKeeps s (jumpTarget t s).2 := by
  cases t with
  | abs w => exact (StepKeeps.refl s).setCycles 3
  | ind w => exact (readPair_keeps _ _ s).setCycles 5

/-! ## Every instruction -/

/-- Every instruction answers a next state, from every state. -/
theorem exec_next (i : Instr) (s : State) : ∃ t, exec i s = .next t := by
  cases i <;> exact ⟨_, rfl⟩

/-- What every instruction keeps. -/
theorem exec_keeps {i : Instr} {s t : State} (h : exec i s = .next t) : StepKeeps s t := by
  cases i
  all_goals
    injection h with h
    subst h
  case lda src => exact ((readSrc_keeps src s).setA _).setP (withNZ_status _ _)
  case ldx src => exact ((readSrc_keeps src s).setX _).setP (withNZ_status _ _)
  case ldy src => exact ((readSrc_keeps src s).setY _).setP (withNZ_status _ _)
  case sta m => exact store_keeps m _ s
  case stx m => exact store_keeps m _ s
  case sty m => exact store_keeps m _ s
  case tax => exact (((StepKeeps.refl s).setX _).setP (withNZ_status _ _)).setCycles 2
  case tay => exact (((StepKeeps.refl s).setY _).setP (withNZ_status _ _)).setCycles 2
  case txa => exact (((StepKeeps.refl s).setA _).setP (withNZ_status _ _)).setCycles 2
  case tya => exact (((StepKeeps.refl s).setA _).setP (withNZ_status _ _)).setCycles 2
  case tsx => exact (((StepKeeps.refl s).setX _).setP (withNZ_status _ _)).setCycles 2
  case txs => exact ((StepKeeps.refl s).setSp _).setCycles 2
  case pha => exact (push_keeps _ s).setCycles 3
  case php => exact (push_keeps _ s).setCycles 3
  case pla => exact (((pull_keeps s).setA _).setP (withNZ_status _ _)).setCycles 4
  case plp => exact (pullStatus_keeps s).setCycles 4
  case ora src => exact ((readSrc_keeps src s).setA _).setP (withNZ_status _ _)
  case and src => exact ((readSrc_keeps src s).setA _).setP (withNZ_status _ _)
  case eor src => exact ((readSrc_keeps src s).setA _).setP (withNZ_status _ _)
  case adc src => exact ((readSrc_keeps src s).setA _).setP (addFlags_status _ _ _)
  case sbc src => exact ((readSrc_keeps src s).setA _).setP (addFlags_status _ _ _)
  case cmp src => exact (readSrc_keeps src s).setP (compareFlags_status _ _ _)
  case cpx src => exact (readSrc_keeps src s).setP (compareFlags_status _ _ _)
  case cpy src => exact (readSrc_keeps src s).setP (compareFlags_status _ _ _)
  case bit m => exact (readSrc_keeps (.mem m) s).setP (bitFlags_status _ _ _)
  case asl d | lsr d | rol d | ror d => exact modify_keeps d _ (fun _ _ => shiftFlags_status _ _ _) s
  case inc m | dec m => exact modifyMem_keeps m _ (fun _ _ => withNZ_status _ _) s
  case inx | dex => exact (((StepKeeps.refl s).setX _).setP (withNZ_status _ _)).setCycles 2
  case iny | dey => exact (((StepKeeps.refl s).setY _).setP (withNZ_status _ _)).setCycles 2
  case jmp t => exact (jumpTarget_keeps t s).setPc _
  case jsr w => exact ((pushWord_keeps _ s).setPc w).setCycles 6
  case rts => exact ((pullWord_keeps s).setPc _).setCycles 6
  case bpl | bmi | bvc | bvs | bcc | bcs | bne | beq => exact branch_keeps _ _ s
  case clc | sec => exact ((StepKeeps.refl s).setP (withC_status _ _)).setCycles 2
  case cli | sei => exact ((StepKeeps.refl s).setP (withI_status _ _)).setCycles 2
  case clv => exact ((StepKeeps.refl s).setP (withV_status _ _)).setCycles 2
  case cld | sed => exact ((StepKeeps.refl s).setP (withD_status _ _)).setCycles 2
  case nop => exact (StepKeeps.refl s).setCycles 2
  case brk => exact enterHandler_keeps _ _ _ s
  case rti => exact returnFromInterrupt_keeps s
  case undefined op => exact (((StepKeeps.refl s).setHalted true).setPc _).setCycles 1

/-! ## Cycle counts -/

theorem bit_le (b : Bool) : bit b ≤ 1 := bit_le_one b

theorem readCycles_range (m : Addr) (b : Bool) : 3 ≤ readCycles m b ∧ readCycles m b ≤ 6 := by
  have := bit_le b
  cases m <;> simp only [readCycles] <;> omega

theorem readSrc_cycles (src : Src) (s : State) : 2 ≤ (readSrc src s).2.cycles ∧ (readSrc src s).2.cycles ≤ 6 := by
  cases src with
  | imm b => exact ⟨Nat.le_refl 2, by show 2 ≤ 6; omega⟩
  | mem m =>
    have := readCycles_range m (resolve m s).crossed
    exact ⟨by show 2 ≤ readCycles m _; omega, this.2⟩

theorem store_cycles (m : Addr) (v : Byte) (s : State) : 2 ≤ (store m v s).cycles ∧ (store m v s).cycles ≤ 6 := by
  show 2 ≤ writeCycles m ∧ writeCycles m ≤ 6
  cases m <;> simp [writeCycles]

theorem modifyMem_cycles {m : Addr} (hm : m.isModifyMode = true) (f : Byte → Byte)
    (flags : Byte → Byte → Byte) (s : State) :
    2 ≤ (modifyMem m f flags s).cycles ∧ (modifyMem m f flags s).cycles ≤ 7 := by
  show 2 ≤ modifyCycles m ∧ modifyCycles m ≤ 7
  cases m <;> simp_all [modifyCycles, Addr.isModifyMode]

theorem modify_cycles {d : Dst} (hd : d.allowed Addr.isModifyMode = true) (f : Byte → Byte)
    (flags : Byte → Byte → Byte) (s : State) :
    2 ≤ (modify d f flags s).cycles ∧ (modify d f flags s).cycles ≤ 7 := by
  cases d with
  | acc => exact ⟨Nat.le_refl 2, by show 2 ≤ 7; omega⟩
  | mem m => exact modifyMem_cycles hd f flags s

theorem branch_cycles (c : Bool) (off : Byte) (s : State) :
    2 ≤ (branch c off s).cycles ∧ (branch c off s).cycles ≤ 4 := by
  unfold branch
  dsimp only
  split
  · have := bit_le (hiByte (branchTarget off s.cpu.pc) != hiByte s.cpu.pc)
    show 2 ≤ 3 + _ ∧ 3 + _ ≤ 4
    omega
  · exact ⟨Nat.le_refl 2, by show 2 ≤ 4; omega⟩

/-- An instruction of the machine takes 1 to 7 cycles. -/
theorem exec_cycles {i : Instr} {s t : State} (hw : i.WellFormed) (h : exec i s = .next t) :
    1 ≤ t.cycles ∧ t.cycles ≤ 7 := by
  cases i
  all_goals
    injection h with h
    subst h
  case lda src | ldx src | ldy src | ora src | and src | eor src | adc src | sbc src | cmp src | cpx src
      | cpy src =>
    have := readSrc_cycles src s
    exact ⟨Nat.le_trans (by omega) this.1, Nat.le_trans this.2 (by omega)⟩
  case bit m =>
    have := readSrc_cycles (.mem m) s
    exact ⟨Nat.le_trans (by omega) this.1, Nat.le_trans this.2 (by omega)⟩
  case sta m | stx m | sty m =>
    have := fun v => store_cycles m v s
    exact ⟨Nat.le_trans (by omega) (this _).1, Nat.le_trans (this _).2 (by omega)⟩
  case asl d | lsr d | rol d | ror d =>
    have := fun f flags => modify_cycles hw f flags s
    exact ⟨Nat.le_trans (by omega) (this _ _).1, (this _ _).2⟩
  case inc m | dec m =>
    have := fun f flags => modifyMem_cycles hw f flags s
    exact ⟨Nat.le_trans (by omega) (this _ _).1, (this _ _).2⟩
  case bpl off | bmi off | bvc off | bvs off | bcc off | bcs off | bne off | beq off =>
    have := fun c => branch_cycles c off s
    exact ⟨Nat.le_trans (by omega) (this _).1, Nat.le_trans (this _).2 (by omega)⟩
  case jmp t => cases t <;> exact ⟨of_decide_eq_true rfl, of_decide_eq_true rfl⟩
  all_goals exact ⟨of_decide_eq_true rfl, of_decide_eq_true rfl⟩

end Sys2Proof.Machine
end

