-- ==== Sys2Proof/Laws/PerInstr.lean ====
section
/-! SUPPORT. One statement per constructor about the encoding: the encoder gives as many bytes as the length of
the instruction, and only for instructions of the machine (30_encoding.md rules R61, R77). -/

namespace Sys2Proof.Laws.EncodedLength

/-- An encoded instruction is as long as its length says, and is an instruction of the machine. -/
def Statement (i : Instr) : Prop := ∀ bs, encode i = some bs → bs.length = i.length ∧ i.WellFormed

theorem of_plain {i : Instr} (h : i.operands.length = i.operandBytes) (hw : i.WellFormed) : Statement i := by
  intro bs hb
  obtain ⟨op, -, rfl⟩ := Option.map_eq_some_iff.mp hb
  exact ⟨by rw [List.length_cons, h, Nat.add_comm]; rfl, hw⟩

theorem addr_length (m : Addr) : m.operands.length = m.operandBytes := by cases m <;> rfl

theorem src_length (src : Src) : src.operands.length = src.operandBytes := by
  cases src
  · rfl
  · exact addr_length _

theorem dst_length (d : Dst) : d.operands.length = d.operandBytes := by
  cases d
  · rfl
  · exact addr_length _

/-- A form that has an opcode is a form the instruction has. -/
theorem of_opcode {i : Instr} (h : i.operands.length = i.operandBytes)
    (hw : ∀ op, i.opcode = some op → i.WellFormed) : Statement i := by
  intro bs hb
  obtain ⟨op, ho, rfl⟩ := Option.map_eq_some_iff.mp hb
  exact ⟨by rw [List.length_cons, h, Nat.add_comm]; rfl, hw op ho⟩

theorem accumulator_wellFormed {a b c d e f g h : Byte} {src : Src} {op : Byte}
    (ho : accumulatorOpcode a b c d e f g h src = some op) : src.allowed Addr.isAccumulatorMode = true := by
  cases src with
  | imm x => rfl
  | mem m => cases m <;> first | rfl | exact nomatch ho

theorem compareIndex_wellFormed {a b c : Byte} {src : Src} {op : Byte}
    (ho : compareIndexOpcode a b c src = some op) : src.allowed Addr.isPlain = true := by
  cases src with
  | imm x => rfl
  | mem m => cases m <;> first | rfl | exact nomatch ho

theorem modify_wellFormed {a b c d : Byte} {m : Addr} {op : Byte}
    (ho : modifyOpcode a b c d m = some op) : m.isModifyMode = true := by
  cases m <;> first | rfl | exact nomatch ho

theorem shift_wellFormed {a b c d e : Byte} {x : Dst} {op : Byte}
    (ho : shiftOpcode a b c d e x = some op) : x.allowed Addr.isModifyMode = true := by
  cases x with
  | acc => rfl
  | mem m => exact modify_wellFormed ho

theorem lda (src : Src) : Statement (.lda src) :=
  of_opcode (src_length src) fun _ => accumulator_wellFormed

theorem ldx (src : Src) : Statement (.ldx src) :=
  of_opcode (src_length src) fun op ho => by
  cases src with
  | imm x => rfl
  | mem m => cases m <;> first | rfl | exact nomatch ho

theorem ldy (src : Src) : Statement (.ldy src) :=
  of_opcode (src_length src) fun op ho => by
  cases src with
  | imm x => rfl
  | mem m => cases m <;> first | rfl | exact nomatch ho

theorem sta (m : Addr) : Statement (.sta m) :=
  of_opcode (addr_length m) fun op ho => by
  cases m <;> first | rfl | exact nomatch ho

theorem stx (m : Addr) : Statement (.stx m) :=
  of_opcode (addr_length m) fun op ho => by
  cases m <;> first | rfl | exact nomatch ho

theorem sty (m : Addr) : Statement (.sty m) :=
  of_opcode (addr_length m) fun op ho => by
  cases m <;> first | rfl | exact nomatch ho

theorem tax : Statement (.tax) := of_plain rfl rfl

theorem tay : Statement (.tay) := of_plain rfl rfl

theorem txa : Statement (.txa) := of_plain rfl rfl

theorem tya : Statement (.tya) := of_plain rfl rfl

theorem tsx : Statement (.tsx) := of_plain rfl rfl

theorem txs : Statement (.txs) := of_plain rfl rfl

theorem pha : Statement (.pha) := of_plain rfl rfl

theorem php : Statement (.php) := of_plain rfl rfl

theorem pla : Statement (.pla) := of_plain rfl rfl

theorem plp : Statement (.plp) := of_plain rfl rfl

theorem ora (src : Src) : Statement (.ora src) :=
  of_opcode (src_length src) fun _ => accumulator_wellFormed

theorem and (src : Src) : Statement (.and src) :=
  of_opcode (src_length src) fun _ => accumulator_wellFormed

theorem eor (src : Src) : Statement (.eor src) :=
  of_opcode (src_length src) fun _ => accumulator_wellFormed

theorem adc (src : Src) : Statement (.adc src) :=
  of_opcode (src_length src) fun _ => accumulator_wellFormed

theorem sbc (src : Src) : Statement (.sbc src) :=
  of_opcode (src_length src) fun _ => accumulator_wellFormed

theorem cmp (src : Src) : Statement (.cmp src) :=
  of_opcode (src_length src) fun _ => accumulator_wellFormed

theorem cpx (src : Src) : Statement (.cpx src) :=
  of_opcode (src_length src) fun _ => compareIndex_wellFormed

theorem cpy (src : Src) : Statement (.cpy src) :=
  of_opcode (src_length src) fun _ => compareIndex_wellFormed

theorem bit (m : Addr) : Statement (.bit m) :=
  of_opcode (addr_length m) fun op ho => by
  cases m <;> first | rfl | exact nomatch ho

theorem asl (d : Dst) : Statement (.asl d) := of_opcode (dst_length d) fun _ => shift_wellFormed

theorem lsr (d : Dst) : Statement (.lsr d) := of_opcode (dst_length d) fun _ => shift_wellFormed

theorem rol (d : Dst) : Statement (.rol d) := of_opcode (dst_length d) fun _ => shift_wellFormed

theorem ror (d : Dst) : Statement (.ror d) := of_opcode (dst_length d) fun _ => shift_wellFormed

theorem inc (m : Addr) : Statement (.inc m) := of_opcode (addr_length m) fun _ => modify_wellFormed

theorem dec (m : Addr) : Statement (.dec m) := of_opcode (addr_length m) fun _ => modify_wellFormed

theorem inx : Statement (.inx) := of_plain rfl rfl

theorem iny : Statement (.iny) := of_plain rfl rfl

theorem dex : Statement (.dex) := of_plain rfl rfl

theorem dey : Statement (.dey) := of_plain rfl rfl

theorem jmp (target : Target) : Statement (.jmp target) := by cases target <;> exact of_plain rfl rfl

theorem jsr (w : Word) : Statement (.jsr w) := of_plain rfl rfl

theorem rts : Statement (.rts) := of_plain rfl rfl

theorem bpl (off : Byte) : Statement (.bpl off) := of_plain rfl rfl

theorem bmi (off : Byte) : Statement (.bmi off) := of_plain rfl rfl

theorem bvc (off : Byte) : Statement (.bvc off) := of_plain rfl rfl

theorem bvs (off : Byte) : Statement (.bvs off) := of_plain rfl rfl

theorem bcc (off : Byte) : Statement (.bcc off) := of_plain rfl rfl

theorem bcs (off : Byte) : Statement (.bcs off) := of_plain rfl rfl

theorem bne (off : Byte) : Statement (.bne off) := of_plain rfl rfl

theorem beq (off : Byte) : Statement (.beq off) := of_plain rfl rfl

theorem clc : Statement (.clc) := of_plain rfl rfl

theorem sec : Statement (.sec) := of_plain rfl rfl

theorem cli : Statement (.cli) := of_plain rfl rfl

theorem sei : Statement (.sei) := of_plain rfl rfl

theorem clv : Statement (.clv) := of_plain rfl rfl

theorem cld : Statement (.cld) := of_plain rfl rfl

theorem sed : Statement (.sed) := of_plain rfl rfl

theorem nop : Statement (.nop) := of_plain rfl rfl

theorem brk : Statement (.brk) := of_plain rfl rfl

theorem rti : Statement (.rti) := of_plain rfl rfl

theorem undefined (op : Byte) : Statement (.undefined op) :=
  of_opcode rfl fun b ho => by
  show undefinedOpcodes.contains op = true
  by_contra hc
  have h : (if undefinedOpcodes.contains op then some op else none) = some b := ho
  rw [if_neg hc] at h
  cases h

end Sys2Proof.Laws.EncodedLength
end

