-- ==== Sys2Proof/Laws/Reset.lean ====
section
/-! SUPPORT. `cpu.reset()` and the reset sequence, and that the state named `State.reset` is what power-on with
an empty cartridge gives (70_reset_and_hazards.md rules R202, R203; log entries 1, 2, 3). -/

namespace Sys2Proof.Machine

/-- `cpu.reset()` in one lemma: its two bus reads have no side effect. -/
theorem cpuReset_eq (s : State) :
    cpuReset s =
      { s with
        cpu :=
          { a := s.params.resetA, x := s.params.resetX, y := s.params.resetY, sp := 0xFD, p := 0x24
            pc := vectorWord resetVector s, nmiPending := false, halted := false }
        cycles := 7 } := by
  unfold cpuReset
  rw [memRead16_vector (by decide) (by decide)]

/-- The reset sequence leaves the CPU as `cpu.reset()` does (but for an NMI latched in its 21 dots), and
every memory. -/
theorem resetSequence_rest (s : State) :
    resetSequence s =
      { cpuReset s with
        ppu := (resetSequence s).ppu, pixels := (resetSequence s).pixels
        cpu := { (cpuReset s).cpu with nmiPending := (resetSequence s).cpu.nmiPending } } := by
  unfold resetSequence
  exact clockDots_rest 21 (cpuReset s)

/-- `State.reset` is power-on with the default parameters and nothing loaded. -/
theorem reset_eq_powerOn :
    State.reset = powerOn Params.default [] [] [] [] [] (Vector.replicate 32 0) := by
  decide +kernel

/-- The state after reset is legal. -/
theorem reset_legal : State.reset.ppu.Legal ∧ State.reset.StorageLegal :=
  ⟨⟨by decide, by decide, by decide, by decide, rfl, rfl, rfl⟩,
    ⟨⟨rfl, rfl⟩, ⟨rfl, rfl⟩, ⟨rfl, rfl⟩, ⟨rfl, rfl⟩, ⟨rfl, rfl⟩⟩⟩

end Sys2Proof.Machine
end

