-- ==== Sys2Proof/Laws/Step.lean ====
section
/-! SUPPORT. The fetch, `cpu.step()` and `tick()`: the bytes fetched always decode, every step of the fixed
mapper has a successor, and what each keeps. -/

namespace Sys2Proof.Machine

/-! ## The fetch -/

theorem fetchByte_keeps (s : State) : StepKeeps s (fetchByte s).2 := (memRead_keeps _ s).setPc _

theorem fetchBytes_keeps (n : Nat) (s : State) : StepKeeps s (fetchBytes n s).2 := by
  induction n generalizing s with
  | zero => exact .refl s
  | succ n ih => exact (fetchByte_keeps s).trans (ih _)

theorem fetchInstr_keeps (s : State) : StepKeeps s (fetchInstr s).2 :=
  (fetchByte_keeps s).trans (fetchBytes_keeps _ _)

theorem fetchBytes_length (n : Nat) (s : State) : (fetchBytes n s).1.length = n := by
  induction n generalizing s with
  | zero => rfl
  | succ n ih => exact congrArg (· + 1) (ih _)

/-- A fetch of a byte changes `PC` and, at a port, the PPU; nothing else. -/
theorem fetchByte_state (s : State) :
    (fetchByte s).2 = (s.setPpu (fetchByte s).2.ppu).setPc (s.cpu.pc + 1) := by
  unfold fetchByte
  dsimp only
  rw [memRead_cpu, memRead_state]
  rfl

/-- `PC` moves past the bytes fetched, modulo 65536. -/
theorem fetchBytes_state (n : Nat) (s : State) :
    (fetchBytes n s).2 = (s.setPpu (fetchBytes n s).2.ppu).setPc (s.cpu.pc + BitVec.ofNat 16 n) := by
  induction n generalizing s with
  | zero =>
    show s = s.setPc (s.cpu.pc + 0#16)
    rw [BitVec.add_zero]
    rfl
  | succ n ih =>
    have h1 := ih (fetchByte s).2
    have h2 := fetchByte_state s
    show (fetchBytes n (fetchByte s).2).2 = (s.setPpu (fetchBytes n (fetchByte s).2).2.ppu).setPc _
    generalize (fetchBytes n (fetchByte s).2).2 = u at h1 ⊢
    generalize (fetchByte s).2 = t at h1 h2
    rw [h2] at h1
    rw [h1]
    simp only [State.setPpu, State.setPc]
    rw [BitVec.add_assoc, show BitVec.ofNat 16 (n + 1) = 1 + BitVec.ofNat 16 n by
      rw [BitVec.add_comm]; exact BitVec.ofNat_add n 1]

/-- The whole instruction: one opcode byte and the operand bytes it asks for. -/
theorem fetchInstr_state (s : State) :
    (fetchInstr s).2 =
      (s.setPpu (fetchInstr s).2.ppu).setPc
        (s.cpu.pc + BitVec.ofNat 16 (1 + operandCount (fetchByte s).1)) := by
  have h := fetchBytes_state (1 + operandCount (fetchByte s).1) s
  rw [Nat.add_comm 1] at h ⊢
  exact h

/-- The bytes fetched are one instruction of the machine, nothing less and nothing more. -/
theorem fetchInstr_decodes (s : State) :
    ∃ i, decode (fetchInstr s).1 = .ok (i, []) ∧ i.WellFormed ∧ i.operandBytes = operandCount (fetchByte s).1 := by
  obtain ⟨b1, b2, h⟩ := decode_of_length (fetchByte s).1
    (fetchBytes (operandCount (fetchByte s).1) (fetchByte s).2).1 (fetchBytes_length _ _)
  exact ⟨_, h, decodeBytes_wellFormed _ _ _, (decodeBytes_uniform _ _ _).1⟩

/-- A byte that is no port's is fetched without a side effect. -/
theorem fetchByte_storage {s : State} (h : isPort s.params s.cpu.pc = false) :
    fetchByte s = (peek s.cpu.pc s, s.setPc (s.cpu.pc + 1)) := by
  unfold fetchByte peek
  dsimp only
  rw [memRead_noPort h]

/-- Bytes at addresses that are no ports are fetched without a side effect. -/
theorem fetchBytes_storage (n : Nat) {s : State}
    (h : ∀ k, k < n → isPort s.params (s.cpu.pc + BitVec.ofNat 16 k) = false) :
    fetchBytes n s =
      ((List.range n).map fun k => peek (s.cpu.pc + BitVec.ofNat 16 k) s,
        s.setPc (s.cpu.pc + BitVec.ofNat 16 n)) := by
  induction n generalizing s with
  | zero =>
    show ([], s) = ([], s.setPc (s.cpu.pc + 0#16))
    rw [BitVec.add_zero]
    rfl
  | succ n ih =>
    have h0 : isPort s.params s.cpu.pc = false := by
      have := h 0 (Nat.succ_pos n)
      rwa [show s.cpu.pc + BitVec.ofNat 16 0 = s.cpu.pc from BitVec.add_zero _] at this
    have hsucc : ∀ k, s.cpu.pc + 1 + BitVec.ofNat 16 k = s.cpu.pc + BitVec.ofNat 16 (k + 1) := by
      intro k
      rw [BitVec.add_assoc, show BitVec.ofNat 16 (k + 1) = 1 + BitVec.ofNat 16 k by
        rw [BitVec.add_comm]; exact BitVec.ofNat_add k 1]
    unfold fetchBytes
    rw [fetchByte_storage h0]
    dsimp only
    rw [ih (s := s.setPc (s.cpu.pc + 1)) fun k hk => by
      have := h (k + 1) (Nat.succ_lt_succ hk)
      rw [← hsucc] at this
      exact this]
    rw [List.range_succ_eq_map, List.map_cons, List.map_map]
    refine Prod.ext ?_ ?_
    · dsimp only
      rw [show s.cpu.pc + BitVec.ofNat 16 0 = s.cpu.pc from BitVec.add_zero _]
      congr 1
      apply List.map_congr_left
      intro k _
      show peek (s.cpu.pc + 1 + BitVec.ofNat 16 k) (s.setPc _) = peek (s.cpu.pc + BitVec.ofNat 16 (k + 1)) s
      rw [hsucc]
      unfold peek memRead
      rw [State.setPc_params]
      cases cpuCell s.params (s.cpu.pc + BitVec.ofNat 16 (k + 1)) with
      | port n => dsimp only; unfold portRead; split <;> rfl
      | _ => rfl
    · show s.setPc (s.cpu.pc + 1 + BitVec.ofNat 16 n) = _
      rw [hsucc]

/-! ## One CPU step -/

theorem instructionStep_eq {s : State} {i : Instr} {rest : List Byte} (h : decode (fetchInstr s).1 = .ok (i, rest)) :
    instructionStep s = exec i (fetchInstr s).2 := by
  unfold instructionStep
  dsimp only
  rw [h]

theorem nmiService_keeps (s : State) : StepKeeps s (nmiService s) :=
  ((StepKeeps.refl s).setNmiPending false).trans (enterHandler_keeps _ _ _ _)

theorem irqService_keeps (s : State) : StepKeeps s (irqService s) := enterHandler_keeps _ _ _ _

/-- A CPU step answers a next state; it keeps what every instruction keeps, and takes 1 to 7 cycles. -/
theorem cpuStep_cases (s : State) :
    ∃ t, cpuStep s = .next t ∧ StepKeeps s t ∧ 1 ≤ t.cycles ∧ t.cycles ≤ 7 := by
  unfold cpuStep
  split
  · exact ⟨_, rfl, (StepKeeps.refl s).setCycles 1, Nat.le_refl 1, by show 1 ≤ 7; omega⟩
  · split
    · exact ⟨_, rfl, nmiService_keeps s, by show 1 ≤ 7; omega, Nat.le_refl 7⟩
    · split
      · exact ⟨_, rfl, irqService_keeps s, by show 1 ≤ 7; omega, Nat.le_refl 7⟩
      · obtain ⟨i, hd, hw, -⟩ := fetchInstr_decodes s
        obtain ⟨t, ht⟩ := exec_next i (fetchInstr s).2
        rw [instructionStep_eq hd]
        exact ⟨t, ht, (fetchInstr_keeps s).trans (exec_keeps ht), exec_cycles hw ht⟩

/-! ## One tick -/

/-- A step of the fixed mapper: the CPU step, then its dots. -/
theorem step_cases {s : State} (h : s.params.mapperId = 0) :
    ∃ t, cpuStep { s with pixels := [] } = .next t ∧ StepKeeps { s with pixels := [] } t ∧
      1 ≤ t.cycles ∧ t.cycles ≤ 7 ∧ step s = .next (clockDots (3 * t.cycles) t) := by
  obtain ⟨t, ht, hk, h1, h7⟩ := cpuStep_cases { s with pixels := [] }
  refine ⟨t, ht, hk, h1, h7, ?_⟩
  unfold step machineStep tick
  rw [if_pos h, ht]
  rfl

/-- A step that answers a next state is one of the fixed mapper. -/
theorem step_mapper {s s' : State} (h : step s = .next s') : s.params.mapperId = 0 := by
  unfold step machineStep at h
  split at h
  · assumption
  · cases h

/-- Any other mapper is refused. -/
theorem step_refused {s : State} (h : s.params.mapperId ≠ 0) :
    step s = .refused (.unsupportedMapper s.params.mapperId) := by
  unfold step machineStep
  rw [if_neg h]

theorem clockDots_keeps (n : Nat) (s : State) :
    (clockDots n s).params = s.params ∧ (clockDots n s).prg = s.prg ∧ (clockDots n s).irqLine = s.irqLine ∧
      (clockDots n s).cpu.p = s.cpu.p ∧ (clockDots n s).cycles = s.cycles ∧
      (s.StorageLegal → (clockDots n s).StorageLegal) := by
  rw [clockDots_rest]
  exact ⟨rfl, rfl, rfl, rfl, rfl, fun h => ⟨h.ram, h.prg, h.prgRam, h.chr, h.vram⟩⟩

end Sys2Proof.Machine
end

