-- ==== Sys2Proof/Tests/Slice0.lean ====
section
/-! SUPPORT. The model's own tests: ill-formed terms are refused, words written out from the opcode map decode to
what they stand for, the vectors of 95_test_vectors.md, and for every obligation with hypotheses a concrete state and
operands that meet them all. -/

namespace Sys2Proof.Tests

set_option Elab.async false

open Sys2Proof.Machine

/-! ## Well-formedness: one ill-formed term for each check -/

/-- No accumulator instruction has zero page,Y. -/
theorem test_wf_accumulator : [Instr.lda (.mem (.zpy 0)), .ora (.mem (.zpy 0)), .and (.mem (.zpy 0)),
    .eor (.mem (.zpy 0)),
    .adc (.mem (.zpy 0)), .sbc (.mem (.zpy 0)), .cmp (.mem (.zpy 0)),
      .sta (.zpy 0)].all (fun i => !i.wellFormed) = true := by
  decide

/-- LDX has no X-indexed mode, LDY no Y-indexed one, STX and STY neither an indexed absolute nor the other's index. -/
theorem test_wf_index : [Instr.ldx (.mem (.zpx 0)), .ldx (.mem (.abx 0)), .ldx (.mem (.izx 0)), .ldy (.mem (.zpy 0)),
    .ldy (.mem (.aby 0)), .stx (.zpx 0), .stx (.aby 0), .sty (.zpy 0),
      .sty (.abx 0)].all (fun i => !i.wellFormed) = true := by
  decide

/-- CPX, CPY and BIT have no indexed mode. -/
theorem test_wf_plain : [Instr.cpx (.mem (.zpx 0)), .cpy (.mem (.abx 0)), .bit (.zpx 0), .bit (.abx 0)].all
    (fun i => !i.wellFormed) = true := by
  decide

/-- A read-modify-write has no Y-indexed and no indirect mode. -/
theorem test_wf_modify : [Instr.asl (.mem (.zpy 0)), .lsr (.mem (.aby 0)), .rol (.mem (.izx 0)), .ror (.mem (.izy 0)),
    .inc (.zpy 0), .dec (.aby 0)].all (fun i => !i.wellFormed) = true := by
  decide

/-- A byte the opcode map defines is not an undefined opcode. -/
theorem test_wf_undefined : [Instr.undefined 0x00, .undefined 0xEA,
    .undefined 0xA9].all (fun i => !i.wellFormed) = true := by
  decide

/-- An ill-formed term has no bytes. -/
theorem test_wf_encode : [Instr.lda (.mem (.zpy 0)), .ldx (.mem (.zpx 0)), .inc (.izx 0), .undefined 0xEA].all
    (fun i => encode i == none) = true := by
  decide

/-! ## Decoding -/

/-- Each word, of so many bits, decodes to the instruction beside it. -/
def decodesAs (rows : List (Nat × Nat × Instr)) : Bool := rows.all fun r => decodeTableWord r.1 r.2.1 == some r.2.2

/-- The rows of the opcode map, loads and stores: the opcode byte written out, with operand byte $34 or operand
word $1234. -/
theorem test_decode_loads_and_stores : decodesAs [
    (16, 0x34A1, .lda (.mem (.izx 0x34))), (16, 0x34A5, .lda (.mem (.zp 0x34))), (16, 0x34A9, .lda (.imm 0x34)),
    (24, 0x1234AD, .lda (.mem (.abs 0x1234))), (16, 0x34B1, .lda (.mem (.izy 0x34))),
    (16, 0x34B5, .lda (.mem (.zpx 0x34))), (24, 0x1234B9, .lda (.mem (.aby 0x1234))),
    (24, 0x1234BD, .lda (.mem (.abx 0x1234))), (16, 0x34A2, .ldx (.imm 0x34)), (16, 0x34A6, .ldx (.mem (.zp 0x34))),
    (24, 0x1234AE, .ldx (.mem (.abs 0x1234))), (16, 0x34B6, .ldx (.mem (.zpy 0x34))),
    (24, 0x1234BE, .ldx (.mem (.aby 0x1234))), (16, 0x34A0, .ldy (.imm 0x34)), (16, 0x34A4, .ldy (.mem (.zp 0x34))),
    (24, 0x1234AC, .ldy (.mem (.abs 0x1234))), (16, 0x34B4, .ldy (.mem (.zpx 0x34))),
    (24, 0x1234BC, .ldy (.mem (.abx 0x1234))), (16, 0x3481, .sta (.izx 0x34)), (16, 0x3485, .sta (.zp 0x34)),
    (24, 0x12348D, .sta (.abs 0x1234)), (16, 0x3491, .sta (.izy 0x34)), (16, 0x3495, .sta (.zpx 0x34)),
    (24, 0x123499, .sta (.aby 0x1234)), (24, 0x12349D, .sta (.abx 0x1234)), (16, 0x3486, .stx (.zp 0x34)),
    (24, 0x12348E, .stx (.abs 0x1234)), (16, 0x3496, .stx (.zpy 0x34)), (16, 0x3484, .sty (.zp 0x34)),
    (24, 0x12348C, .sty (.abs 0x1234)), (16, 0x3494, .sty (.zpx 0x34))] = true := by decide

/-- The rows of the opcode map, transfers and stack: the opcode byte written out, with operand byte $34 or
operand word $1234. -/
theorem test_decode_transfers_and_stack : decodesAs [
    (8, 0xAA, .tax), (8, 0xA8, .tay), (8, 0x8A, .txa), (8, 0x98, .tya), (8, 0xBA, .tsx), (8, 0x9A, .txs),
    (8, 0x48, .pha), (8, 0x08, .php), (8, 0x68, .pla), (8, 0x28, .plp)] = true := by decide

/-- The rows of the opcode map, logic: the opcode byte written out, with operand byte $34 or operand word $1234. -/
theorem test_decode_logic : decodesAs [
    (16, 0x3401, .ora (.mem (.izx 0x34))), (16, 0x3405, .ora (.mem (.zp 0x34))), (16, 0x3409, .ora (.imm 0x34)),
    (24, 0x12340D, .ora (.mem (.abs 0x1234))), (16, 0x3411, .ora (.mem (.izy 0x34))),
    (16, 0x3415, .ora (.mem (.zpx 0x34))), (24, 0x123419, .ora (.mem (.aby 0x1234))),
    (24, 0x12341D, .ora (.mem (.abx 0x1234))), (16, 0x3421, .and (.mem (.izx 0x34))),
    (16, 0x3425, .and (.mem (.zp 0x34))), (16, 0x3429, .and (.imm 0x34)), (24, 0x12342D, .and (.mem (.abs 0x1234))),
    (16, 0x3431, .and (.mem (.izy 0x34))), (16, 0x3435, .and (.mem (.zpx 0x34))),
    (24, 0x123439, .and (.mem (.aby 0x1234))), (24, 0x12343D, .and (.mem (.abx 0x1234))),
    (16, 0x3441, .eor (.mem (.izx 0x34))), (16, 0x3445, .eor (.mem (.zp 0x34))), (16, 0x3449, .eor (.imm 0x34)),
    (24, 0x12344D, .eor (.mem (.abs 0x1234))), (16, 0x3451, .eor (.mem (.izy 0x34))),
    (16, 0x3455, .eor (.mem (.zpx 0x34))), (24, 0x123459, .eor (.mem (.aby 0x1234))),
    (24, 0x12345D, .eor (.mem (.abx 0x1234))), (16, 0x3424, .bit (.zp 0x34)),
    (24, 0x12342C, .bit (.abs 0x1234))] = true := by decide

/-- The rows of the opcode map, arithmetic: the opcode byte written out, with operand byte $34 or operand word
$1234. -/
theorem test_decode_arithmetic : decodesAs [
    (16, 0x3461, .adc (.mem (.izx 0x34))), (16, 0x3465, .adc (.mem (.zp 0x34))), (16, 0x3469, .adc (.imm 0x34)),
    (24, 0x12346D, .adc (.mem (.abs 0x1234))), (16, 0x3471, .adc (.mem (.izy 0x34))),
    (16, 0x3475, .adc (.mem (.zpx 0x34))), (24, 0x123479, .adc (.mem (.aby 0x1234))),
    (24, 0x12347D, .adc (.mem (.abx 0x1234))), (16, 0x34E1, .sbc (.mem (.izx 0x34))),
    (16, 0x34E5, .sbc (.mem (.zp 0x34))), (16, 0x34E9, .sbc (.imm 0x34)), (24, 0x1234ED, .sbc (.mem (.abs 0x1234))),
    (16, 0x34F1, .sbc (.mem (.izy 0x34))), (16, 0x34F5, .sbc (.mem (.zpx 0x34))),
    (24, 0x1234F9, .sbc (.mem (.aby 0x1234))), (24, 0x1234FD, .sbc (.mem (.abx 0x1234)))] = true := by decide

/-- The rows of the opcode map, compare: the opcode byte written out, with operand byte $34 or operand word $1234. -/
theorem test_decode_compare : decodesAs [
    (16, 0x34C1, .cmp (.mem (.izx 0x34))), (16, 0x34C5, .cmp (.mem (.zp 0x34))), (16, 0x34C9, .cmp (.imm 0x34)),
    (24, 0x1234CD, .cmp (.mem (.abs 0x1234))), (16, 0x34D1, .cmp (.mem (.izy 0x34))),
    (16, 0x34D5, .cmp (.mem (.zpx 0x34))), (24, 0x1234D9, .cmp (.mem (.aby 0x1234))),
    (24, 0x1234DD, .cmp (.mem (.abx 0x1234))), (16, 0x34E0, .cpx (.imm 0x34)), (16, 0x34E4, .cpx (.mem (.zp 0x34))),
    (24, 0x1234EC, .cpx (.mem (.abs 0x1234))), (16, 0x34C0, .cpy (.imm 0x34)), (16, 0x34C4, .cpy (.mem (.zp 0x34))),
    (24, 0x1234CC, .cpy (.mem (.abs 0x1234)))] = true := by decide

/-- The rows of the opcode map, shifts: the opcode byte written out, with operand byte $34 or operand word $1234. -/
theorem test_decode_shifts : decodesAs [
    (16, 0x3406, .asl (.mem (.zp 0x34))), (8, 0x0A, .asl .acc), (24, 0x12340E, .asl (.mem (.abs 0x1234))),
    (16, 0x3416, .asl (.mem (.zpx 0x34))), (24, 0x12341E, .asl (.mem (.abx 0x1234))),
    (16, 0x3446, .lsr (.mem (.zp 0x34))), (8, 0x4A, .lsr .acc), (24, 0x12344E, .lsr (.mem (.abs 0x1234))),
    (16, 0x3456, .lsr (.mem (.zpx 0x34))), (24, 0x12345E, .lsr (.mem (.abx 0x1234))),
    (16, 0x3426, .rol (.mem (.zp 0x34))), (8, 0x2A, .rol .acc), (24, 0x12342E, .rol (.mem (.abs 0x1234))),
    (16, 0x3436, .rol (.mem (.zpx 0x34))), (24, 0x12343E, .rol (.mem (.abx 0x1234))),
    (16, 0x3466, .ror (.mem (.zp 0x34))), (8, 0x6A, .ror .acc), (24, 0x12346E, .ror (.mem (.abs 0x1234))),
    (16, 0x3476, .ror (.mem (.zpx 0x34))), (24, 0x12347E, .ror (.mem (.abx 0x1234)))] = true := by decide

/-- The rows of the opcode map, counts: the opcode byte written out, with operand byte $34 or operand word $1234. -/
theorem test_decode_counts : decodesAs [
    (16, 0x34E6, .inc (.zp 0x34)), (24, 0x1234EE, .inc (.abs 0x1234)), (16, 0x34F6, .inc (.zpx 0x34)),
    (24, 0x1234FE, .inc (.abx 0x1234)), (16, 0x34C6, .dec (.zp 0x34)), (24, 0x1234CE, .dec (.abs 0x1234)),
    (16, 0x34D6, .dec (.zpx 0x34)), (24, 0x1234DE, .dec (.abx 0x1234)), (8, 0xE8, .inx), (8, 0xC8, .iny),
    (8, 0xCA, .dex), (8, 0x88, .dey)] = true := by decide

/-- The rows of the opcode map, jumps and branches: the opcode byte written out, with operand byte $34 or operand
word $1234. -/
theorem test_decode_jumps_and_branches : decodesAs [
    (24, 0x12344C, .jmp (.abs 0x1234)), (24, 0x12346C, .jmp (.ind 0x1234)), (24, 0x123420, .jsr 0x1234),
    (8, 0x60, .rts), (16, 0x3410, .bpl 0x34), (16, 0x3430, .bmi 0x34), (16, 0x3450, .bvc 0x34),
    (16, 0x3470, .bvs 0x34), (16, 0x3490, .bcc 0x34), (16, 0x34B0, .bcs 0x34), (16, 0x34D0, .bne 0x34),
    (16, 0x34F0, .beq 0x34)] = true := by decide

/-- The rows of the opcode map, flags and system: the opcode byte written out, with operand byte $34 or operand
word $1234. -/
theorem test_decode_flags_and_system : decodesAs [
    (8, 0x18, .clc), (8, 0x38, .sec), (8, 0x58, .cli), (8, 0x78, .sei), (8, 0xB8, .clv), (8, 0xD8, .cld),
    (8, 0xF8, .sed), (8, 0xEA, .nop), (8, 0x00, .brk), (8, 0x40, .rti)] = true := by decide

/-- Four of the 105 undefined bytes of rule R78, one of them ($82) with a byte after it that is not read. -/
theorem test_decode_undefined : decodesAs [
    (8, 0x02, .undefined 0x02), (8, 0x1A, .undefined 0x1A), (8, 0x82, .undefined 0x82), (8, 0xFF,
      .undefined 0xFF)] = true := by decide
/-! ## One step -/

/-- The CPU after `cpu.reset()` with the reset vector $8000: the start of the vectors. -/
def cpu0 : Cpu := { Cpu.reset with pc := 0x8000 }

/-- After reset, with these registers, these bytes of storage and this level of `irq_line`. -/
def start (c : Cpu) (cells : List (Word × Byte)) (irq : Bool) : State :=
  cells.foldl (fun s w => (placeByte w.1 w.2 s).getD s) { State.reset with cpu := c, irqLine := irq }

/-- One step ends with these registers, this cycle count and this internal RAM. -/
def stepEnds (s : State) (c : Cpu) (n : Nat) (ram : Memory) : Bool :=
  match step s with
  | .next t => t.cpu == c && t.cycles == n && t.ram == ram
  | .fault _ => false
  | .refused _ => false

/-- Vector V7 of 95_test_vectors.md: LDA ($FE,X) pointer wraps $FF->$00. -/
theorem test_v7_lda : stepEnds (start { cpu0 with x := 0x01, pc := 0x8000 } [(0x0000, 0x02), (0x00FF, 0x34),
    (0x0234, 0x44), (0x8000, 0xA1), (0x8001, 0xFE)] false)
    { cpu0 with a := 0x44, x := 0x01, pc := 0x8002 } 6 [(0x0000, 0x02), (0x00FF, 0x34), (0x0234,
      0x44)] = true := by decide +kernel

/-- Vector V9 of 95_test_vectors.md: LDA ($10),Y page cross, +1. -/
theorem test_v9_lda : stepEnds (start { cpu0 with y := 0x10, pc := 0x8000 } [(0x0010, 0xF8), (0x0011, 0x02),
    (0x0308, 0x66), (0x8000, 0xB1), (0x8001, 0x10)] false)
    { cpu0 with a := 0x66, y := 0x10, pc := 0x8002 } 6 [(0x0010, 0xF8), (0x0011, 0x02), (0x0308,
      0x66)] = true := by decide +kernel

/-- Vector V11 of 95_test_vectors.md: LDX $10,Y. -/
theorem test_v11_ldx : stepEnds (start { cpu0 with y := 0xF5, pc := 0x8000 } [(0x0005, 0x88), (0x8000, 0xB6),
    (0x8001, 0x10)] false)
    { cpu0 with x := 0x88, y := 0xF5, p := 0xA4, pc := 0x8002 } 4 [(0x0005, 0x88)] = true := by decide +kernel

/-- Vector V12 of 95_test_vectors.md: LDY $02FF,X page cross, +1. -/
theorem test_v12_ldy : stepEnds (start { cpu0 with x := 0x01, pc := 0x8000 } [(0x0300, 0x80), (0x8000, 0xBC),
    (0x8001, 0xFF), (0x8002, 0x02)] false)
    { cpu0 with x := 0x01, y := 0x80, p := 0xA4, pc := 0x8003 } 5 [(0x0300, 0x80)] = true := by decide +kernel

/-- Vector V13 of 95_test_vectors.md: STA $02F0,X page cross: 5 cycles, no penalty. -/
theorem test_v13_sta : stepEnds (start { cpu0 with a := 0xAB, x := 0x10, pc := 0x8000 } [(0x8000, 0x9D), (0x8001,
    0xF0), (0x8002, 0x02)] false)
    { cpu0 with a := 0xAB, x := 0x10, pc := 0x8003 } 5 [(0x0300, 0xAB)] = true := by decide +kernel

/-- Vector V14 of 95_test_vectors.md: STA ($10),Y: 6 cycles always. -/
theorem test_v14_sta : stepEnds (start { cpu0 with a := 0xCD, y := 0x01, pc := 0x8000 } [(0x0010, 0x00), (0x0011,
    0x03), (0x8000, 0x91), (0x8001, 0x10)] false)
    { cpu0 with a := 0xCD, y := 0x01, pc := 0x8002 } 6 [(0x0011, 0x03), (0x0301, 0xCD)] = true := by decide +kernel

/-- Vector V16 of 95_test_vectors.md: STX $F0,Y wraps. -/
theorem test_v16_stx : stepEnds (start { cpu0 with x := 0x12, y := 0x20, pc := 0x8000 } [(0x8000, 0x96), (0x8001,
    0xF0)] false)
    { cpu0 with x := 0x12, y := 0x20, pc := 0x8002 } 4 [(0x0010, 0x12)] = true := by decide +kernel

/-- Vector V17 of 95_test_vectors.md: TXS writes no flag. -/
theorem test_v17_txs : stepEnds (start { cpu0 with x := 0x00, pc := 0x8000 } [(0x8000, 0x9A)] false)
    { cpu0 with x := 0x00, sp := 0x00, pc := 0x8001 } 2 [] = true := by decide +kernel

/-- Vector V18 of 95_test_vectors.md: TSX sets N. -/
theorem test_v18_tsx : stepEnds (start { cpu0 with pc := 0x8000 } [(0x8000, 0xBA)] false)
    { cpu0 with x := 0xFD, p := 0xA4, pc := 0x8001 } 2 [] = true := by decide +kernel

/-- Vector V19 of 95_test_vectors.md: TAX zero. -/
theorem test_v19_tax : stepEnds (start { cpu0 with x := 0x11, pc := 0x8000 } [(0x8000, 0xAA)] false)
    { cpu0 with x := 0x00, p := 0x26, pc := 0x8001 } 2 [] = true := by decide +kernel

/-- Vector V20 of 95_test_vectors.md: PHA with SP=$00 wraps. -/
theorem test_v20_pha : stepEnds (start { cpu0 with a := 0x42, sp := 0x00, pc := 0x8000 } [(0x8000, 0x48)] false)
    { cpu0 with a := 0x42, sp := 0xFF, pc := 0x8001 } 3 [(0x0100, 0x42)] = true := by decide +kernel

/-- Vector V21 of 95_test_vectors.md: PLA with SP=$FF wraps to $0100. -/
theorem test_v21_pla : stepEnds (start { cpu0 with sp := 0xFF, pc := 0x8000 } [(0x0100, 0x80), (0x8000, 0x68)] false)
    { cpu0 with a := 0x80, sp := 0x00, p := 0xA4, pc := 0x8001 } 4 [(0x0100, 0x80)] = true := by decide +kernel

/-- Vector V22 of 95_test_vectors.md: PHP pushes P OR $30. -/
theorem test_v22_php : stepEnds (start { cpu0 with p := 0xE5, pc := 0x8000 } [(0x8000, 0x08)] false)
    { cpu0 with sp := 0xFC, p := 0xE5, pc := 0x8001 } 3 [(0x01FD, 0xF5)] = true := by decide +kernel

/-- Vector V23 of 95_test_vectors.md: PLP $FF: bits 5,4 kept. -/
theorem test_v23_plp : stepEnds (start { cpu0 with sp := 0xFC, pc := 0x8000 } [(0x01FD, 0xFF), (0x8000, 0x28)] false)
    { cpu0 with sp := 0xFD, p := 0xEF, pc := 0x8001 } 4 [(0x01FD, 0xFF)] = true := by decide +kernel

/-- Vector V24 of 95_test_vectors.md: PLP $00. -/
theorem test_v24_plp : stepEnds (start { cpu0 with sp := 0xFC, p := 0xEF, pc := 0x8000 } [(0x01FD, 0x00),
    (0x8000, 0x28)] false)
    { cpu0 with sp := 0xFD, p := 0x20, pc := 0x8001 } 4 [] = true := by decide +kernel

/-- Vector V25 of 95_test_vectors.md: ADC $7F+$01: signed overflow. -/
theorem test_v25_adc : stepEnds (start { cpu0 with a := 0x7F, pc := 0x8000 } [(0x8000, 0x69), (0x8001, 0x01)] false)
    { cpu0 with a := 0x80, p := 0xE4, pc := 0x8002 } 2 [] = true := by decide +kernel

/-- Vector V29 of 95_test_vectors.md: ADC with D=1 is binary: $09+$01. -/
theorem test_v29_adc : stepEnds (start { cpu0 with a := 0x09, p := 0x2C, pc := 0x8000 } [(0x8000, 0x69), (0x8001,
    0x01)] false)
    { cpu0 with a := 0x0A, p := 0x2C, pc := 0x8002 } 2 [] = true := by decide +kernel

/-- Vector V32 of 95_test_vectors.md: SBC $05-$05 with C=0 (borrow in). -/
theorem test_v32_sbc : stepEnds (start { cpu0 with a := 0x05, p := 0x24, pc := 0x8000 } [(0x8000, 0xE9), (0x8001,
    0x05)] false)
    { cpu0 with a := 0xFF, p := 0xA4, pc := 0x8002 } 2 [] = true := by decide +kernel

/-- Vector V33 of 95_test_vectors.md: SBC $7F-$FF (C=1): overflow. -/
theorem test_v33_sbc : stepEnds (start { cpu0 with a := 0x7F, p := 0x25, pc := 0x8000 } [(0x8000, 0xE9), (0x8001,
    0xFF)] false)
    { cpu0 with a := 0x80, p := 0xE4, pc := 0x8002 } 2 [] = true := by decide +kernel

/-- Vector V35 of 95_test_vectors.md: CMP A>m with sign. -/
theorem test_v35_cmp : stepEnds (start { cpu0 with a := 0x90, pc := 0x8000 } [(0x8000, 0xC9), (0x8001, 0x01)] false)
    { cpu0 with a := 0x90, p := 0xA5, pc := 0x8002 } 2 [] = true := by decide +kernel

/-- Vector V36 of 95_test_vectors.md: CMP $00 vs $80: N from difference. -/
theorem test_v36_cmp : stepEnds (start { cpu0 with a := 0x00, pc := 0x8000 } [(0x8000, 0xC9), (0x8001, 0x80)] false)
    { cpu0 with a := 0x00, p := 0xA4, pc := 0x8002 } 2 [] = true := by decide +kernel

/-- Vector V37 of 95_test_vectors.md: CPX equal. -/
theorem test_v37_cpx : stepEnds (start { cpu0 with x := 0x7F, pc := 0x8000 } [(0x8000, 0xE0), (0x8001, 0x7F)] false)
    { cpu0 with x := 0x7F, p := 0x27, pc := 0x8002 } 2 [] = true := by decide +kernel

/-- Vector V38 of 95_test_vectors.md: CPY $10 zp. -/
theorem test_v38_cpy : stepEnds (start { cpu0 with y := 0x01, pc := 0x8000 } [(0x0010, 0x02), (0x8000, 0xC4),
    (0x8001, 0x10)] false)
    { cpu0 with y := 0x01, p := 0xA4, pc := 0x8002 } 3 [(0x0010, 0x02)] = true := by decide +kernel

/-- Vector V39 of 95_test_vectors.md: BIT: Z from A&m, N V from m. -/
theorem test_v39_bit : stepEnds (start { cpu0 with a := 0x0F, p := 0x24, pc := 0x8000 } [(0x0300, 0x70), (0x8000,
    0x2C), (0x8001, 0x00), (0x8002, 0x03)] false)
    { cpu0 with a := 0x0F, p := 0x66, pc := 0x8003 } 4 [(0x0300, 0x70)] = true := by decide +kernel

/-- Vector V40 of 95_test_vectors.md: BIT clears N V. -/
theorem test_v40_bit : stepEnds (start { cpu0 with a := 0xFF, p := 0xE4, pc := 0x8000 } [(0x0010, 0x01), (0x8000,
    0x24), (0x8001, 0x10)] false)
    { cpu0 with a := 0xFF, p := 0x24, pc := 0x8002 } 3 [(0x0010, 0x01)] = true := by decide +kernel

/-- Vector V41 of 95_test_vectors.md: ORA ($10,X). -/
theorem test_v41_ora : stepEnds (start { cpu0 with a := 0x01, x := 0x04, pc := 0x8000 } [(0x0014, 0x00), (0x0015,
    0x03), (0x0300, 0x80), (0x8000, 0x01), (0x8001, 0x10)] false)
    { cpu0 with a := 0x81, x := 0x04, p := 0xA4, pc := 0x8002 } 6 [(0x0015, 0x03), (0x0300,
      0x80)] = true := by decide +kernel

/-- Vector V42 of 95_test_vectors.md: AND $0300,Y. -/
theorem test_v42_and : stepEnds (start { cpu0 with a := 0xF0, y := 0x00, pc := 0x8000 } [(0x0300, 0x3C), (0x8000,
    0x39), (0x8001, 0x00), (0x8002, 0x03)] false)
    { cpu0 with a := 0x30, y := 0x00, pc := 0x8003 } 4 [(0x0300, 0x3C)] = true := by decide +kernel

/-- Vector V43 of 95_test_vectors.md: EOR same value gives zero. -/
theorem test_v43_eor : stepEnds (start { cpu0 with a := 0xAA, pc := 0x8000 } [(0x8000, 0x49), (0x8001, 0xAA)] false)
    { cpu0 with a := 0x00, p := 0x26, pc := 0x8002 } 2 [] = true := by decide +kernel

/-- Vector V44 of 95_test_vectors.md: ASL $10. -/
theorem test_v44_asl : stepEnds (start { cpu0 with pc := 0x8000 } [(0x0010, 0xC0), (0x8000, 0x06), (0x8001,
    0x10)] false)
    { cpu0 with p := 0xA5, pc := 0x8002 } 5 [(0x0010, 0x80)] = true := by decide +kernel

/-- Vector V45 of 95_test_vectors.md: LSR A $01. -/
theorem test_v45_lsr : stepEnds (start { cpu0 with a := 0x01, p := 0xA4, pc := 0x8000 } [(0x8000, 0x4A)] false)
    { cpu0 with a := 0x00, p := 0x27, pc := 0x8001 } 2 [] = true := by decide +kernel

/-- Vector V46 of 95_test_vectors.md: ROL $0300 C=0. -/
theorem test_v46_rol : stepEnds (start { cpu0 with pc := 0x8000 } [(0x0300, 0x80), (0x8000, 0x2E), (0x8001,
    0x00), (0x8002, 0x03)] false)
    { cpu0 with p := 0x27, pc := 0x8003 } 6 [] = true := by decide +kernel

/-- Vector V47 of 95_test_vectors.md: ROR $02FF,X: 7 cycles with or without cross. -/
theorem test_v47_ror : stepEnds (start { cpu0 with x := 0x01, p := 0x25, pc := 0x8000 } [(0x0300, 0x02), (0x8000,
    0x7E), (0x8001, 0xFF), (0x8002, 0x02)] false)
    { cpu0 with x := 0x01, p := 0xA4, pc := 0x8003 } 7 [(0x0300, 0x81)] = true := by decide +kernel

/-- Vector V48 of 95_test_vectors.md: INC $10,X. -/
theorem test_v48_inc : stepEnds (start { cpu0 with x := 0xF0, pc := 0x8000 } [(0x0000, 0x7F), (0x8000, 0xF6),
    (0x8001, 0x10)] false)
    { cpu0 with x := 0xF0, p := 0xA4, pc := 0x8002 } 6 [(0x0000, 0x80)] = true := by decide +kernel

/-- Vector V49 of 95_test_vectors.md: DEC $0300. -/
theorem test_v49_dec : stepEnds (start { cpu0 with pc := 0x8000 } [(0x0300, 0x01), (0x8000, 0xCE), (0x8001,
    0x00), (0x8002, 0x03)] false)
    { cpu0 with p := 0x26, pc := 0x8003 } 6 [] = true := by decide +kernel

/-- Vector V50 of 95_test_vectors.md: INX wraps. -/
theorem test_v50_inx : stepEnds (start { cpu0 with x := 0xFF, pc := 0x8000 } [(0x8000, 0xE8)] false)
    { cpu0 with x := 0x00, p := 0x26, pc := 0x8001 } 2 [] = true := by decide +kernel

/-- Vector V51 of 95_test_vectors.md: DEY wraps. -/
theorem test_v51_dey : stepEnds (start { cpu0 with y := 0x00, pc := 0x8000 } [(0x8000, 0x88)] false)
    { cpu0 with y := 0xFF, p := 0xA4, pc := 0x8001 } 2 [] = true := by decide +kernel

/-- Vector V53 of 95_test_vectors.md: JMP ($0310). -/
theorem test_v53_jmp : stepEnds (start { cpu0 with pc := 0x8000 } [(0x0310, 0x34), (0x0311, 0x12), (0x8000,
    0x6C), (0x8001, 0x10), (0x8002, 0x03)] false)
    { cpu0 with pc := 0x1234 } 5 [(0x0310, 0x34), (0x0311, 0x12)] = true := by decide +kernel

/-- Vector V54 of 95_test_vectors.md: JMP ($02FF): high byte from $0200. -/
theorem test_v54_jmp : stepEnds (start { cpu0 with pc := 0x8000 } [(0x0200, 0x90), (0x02FF, 0x00), (0x0300,
    0x40), (0x8000, 0x6C), (0x8001, 0xFF), (0x8002, 0x02)] false)
    { cpu0 with pc := 0x9000 } 5 [(0x0200, 0x90), (0x0300, 0x40)] = true := by decide +kernel

/-- Vector V55 of 95_test_vectors.md: JSR $9000. -/
theorem test_v55_jsr : stepEnds (start { cpu0 with pc := 0x8000 } [(0x8000, 0x20), (0x8001, 0x00), (0x8002,
    0x90)] false)
    { cpu0 with sp := 0xFB, pc := 0x9000 } 6 [(0x01FC, 0x02), (0x01FD, 0x80)] = true := by decide +kernel

/-- Vector V57 of 95_test_vectors.md: RTS pulled $FFFF wraps PC to $0000. -/
theorem test_v57_rts : stepEnds (start { cpu0 with sp := 0xFB, pc := 0x8000 } [(0x01FC, 0xFF), (0x01FD, 0xFF),
    (0x8000, 0x60)] false)
    { cpu0 with sp := 0xFD, pc := 0x0000 } 6 [(0x01FC, 0xFF), (0x01FD, 0xFF)] = true := by decide +kernel

/-- Vector V58 of 95_test_vectors.md: BNE not taken. -/
theorem test_v58_bne : stepEnds (start { cpu0 with p := 0x26, pc := 0x8000 } [(0x8000, 0xD0), (0x8001, 0x10)] false)
    { cpu0 with p := 0x26, pc := 0x8002 } 2 [] = true := by decide +kernel

/-- Vector V59 of 95_test_vectors.md: BNE taken, same page. -/
theorem test_v59_bne : stepEnds (start { cpu0 with pc := 0x8000 } [(0x8000, 0xD0), (0x8001, 0x10)] false)
    { cpu0 with pc := 0x8012 } 3 [] = true := by decide +kernel

/-- Vector V60 of 95_test_vectors.md: BCC taken backward across page. -/
theorem test_v60_bcc : stepEnds (start { cpu0 with pc := 0x8000 } [(0x8000, 0x90), (0x8001, 0x80)] false)
    { cpu0 with pc := 0x7F82 } 4 [] = true := by decide +kernel

/-- Vector V61 of 95_test_vectors.md: BCS taken forward across page. -/
theorem test_v61_bcs : stepEnds (start { cpu0 with p := 0x25, pc := 0x80F9 } [(0x80F9, 0xB0), (0x80FA, 0x05)] false)
    { cpu0 with p := 0x25, pc := 0x8100 } 4 [] = true := by decide +kernel

/-- Vector V62 of 95_test_vectors.md: BEQ to itself. -/
theorem test_v62_beq : stepEnds (start { cpu0 with p := 0x26, pc := 0x8000 } [(0x8000, 0xF0), (0x8001, 0xFE)] false)
    { cpu0 with p := 0x26, pc := 0x8000 } 3 [] = true := by decide +kernel

/-- Vector V63 of 95_test_vectors.md: BPL offset $00 taken: 3 cycles. -/
theorem test_v63_bpl : stepEnds (start { cpu0 with pc := 0x8000 } [(0x8000, 0x10), (0x8001, 0x00)] false)
    { cpu0 with pc := 0x8002 } 3 [] = true := by decide +kernel

/-- Vector V64 of 95_test_vectors.md: BMI +$7F from next instruction $80FF crosses to $817E. -/
theorem test_v64_bmi : stepEnds (start { cpu0 with p := 0xA4, pc := 0x80FD } [(0x80FD, 0x30), (0x80FE, 0x7F)] false)
    { cpu0 with p := 0xA4, pc := 0x817E } 4 [] = true := by decide +kernel

/-- Vector V65 of 95_test_vectors.md: BVS taken. -/
theorem test_v65_bvs : stepEnds (start { cpu0 with p := 0x64, pc := 0x8000 } [(0x8000, 0x70), (0x8001, 0x02)] false)
    { cpu0 with p := 0x64, pc := 0x8004 } 3 [] = true := by decide +kernel

/-- Vector V66 of 95_test_vectors.md: BVC not taken. -/
theorem test_v66_bvc : stepEnds (start { cpu0 with p := 0x64, pc := 0x8000 } [(0x8000, 0x50), (0x8001, 0x02)] false)
    { cpu0 with p := 0x64, pc := 0x8002 } 2 [] = true := by decide +kernel

/-- Vector V67 of 95_test_vectors.md: CLC. -/
theorem test_v67_clc : stepEnds (start { cpu0 with p := 0xE7, pc := 0x8000 } [(0x8000, 0x18)] false)
    { cpu0 with p := 0xE6, pc := 0x8001 } 2 [] = true := by decide +kernel

/-- Vector V69 of 95_test_vectors.md: CLV. -/
theorem test_v69_clv : stepEnds (start { cpu0 with p := 0xE4, pc := 0x8000 } [(0x8000, 0xB8)] false)
    { cpu0 with p := 0xA4, pc := 0x8001 } 2 [] = true := by decide +kernel

/-- Vector V70 of 95_test_vectors.md: BRK. -/
theorem test_v70_brk : stepEnds (start { cpu0 with pc := 0x8000 } [(0x8000, 0x00), (0xFFFE, 0x00), (0xFFFF,
    0x90)] false)
    { cpu0 with sp := 0xFA, pc := 0x9000 } 7 [(0x01FB, 0x34), (0x01FC, 0x02), (0x01FD,
      0x80)] = true := by decide +kernel

/-- Vector V72 of 95_test_vectors.md: RTI restores I=0. -/
theorem test_v72_rti : stepEnds (start { cpu0 with sp := 0xFA, p := 0x24, pc := 0x8000 } [(0x01FB, 0xC3),
    (0x01FC, 0x34), (0x01FD, 0x12), (0x8000, 0x40)] false)
    { cpu0 with sp := 0xFD, p := 0xE3, pc := 0x1234 } 6 [(0x01FB, 0xC3), (0x01FC, 0x34), (0x01FD,
      0x12)] = true := by decide +kernel

/-- Vector V75 of 95_test_vectors.md: undefined $FF. -/
theorem test_v75_undefined : stepEnds (start { cpu0 with pc := 0x8000 } [(0x8000, 0xFF)] false)
    { cpu0 with pc := 0x8000, halted := true } 1 [] = true := by decide +kernel

/-- Vector V76 of 95_test_vectors.md: NMI pending at boundary. -/
theorem test_v76_nmi : stepEnds (start { cpu0 with p := 0xA0, pc := 0x8123, nmiPending := true } [(0x8123, 0xEA),
    (0xFFFA, 0x00), (0xFFFB, 0xC1)] false)
    { cpu0 with sp := 0xFA, p := 0xA4, pc := 0xC100 } 7 [(0x01FB, 0xA0), (0x01FC, 0x23), (0x01FD,
      0x81)] = true := by decide +kernel

/-- Vector V77 of 95_test_vectors.md: IRQ with I=0. -/
theorem test_v77_irq : stepEnds (start { cpu0 with p := 0x20, pc := 0x8000 } [(0x8000, 0xEA), (0xFFFE, 0x00),
    (0xFFFF, 0x90)] true)
    { cpu0 with sp := 0xFA, p := 0x24, pc := 0x9000 } 7 [(0x01FB, 0x20), (0x01FD, 0x80)] = true := by decide +kernel

/-- Vector V82 of 95_test_vectors.md: NOP at $FFFF wraps PC. -/
theorem test_v82_nop : stepEnds (start { cpu0 with pc := 0xFFFF } [(0xFFFF, 0xEA)] false)
    { cpu0 with pc := 0x0000 } 2 [] = true := by decide +kernel

/-- From rule R89, STY zero page,X wraps. -/
theorem test_sty : stepEnds (start { cpu0 with x := 0x20, y := 0x12, pc := 0x8000 } [(0x8000, 0x94), (0x8001,
    0xF0)] false)
    { cpu0 with x := 0x20, y := 0x12, pc := 0x8002 } 4 [(0x0010, 0x12)] = true := by decide +kernel

/-- From rule R91. -/
theorem test_tay : stepEnds (start { cpu0 with a := 0x80, pc := 0x8000 } [(0x8000, 0xA8)] false)
    { cpu0 with a := 0x80, y := 0x80, p := 0xA4, pc := 0x8001 } 2 [] = true := by decide +kernel

/-- From rule R92. -/
theorem test_txa : stepEnds (start { cpu0 with a := 0x11, x := 0x00, pc := 0x8000 } [(0x8000, 0x8A)] false)
    { cpu0 with a := 0x00, x := 0x00, p := 0x26, pc := 0x8001 } 2 [] = true := by decide +kernel

/-- From rule R93. -/
theorem test_tya : stepEnds (start { cpu0 with y := 0x80, pc := 0x8000 } [(0x8000, 0x98)] false)
    { cpu0 with a := 0x80, y := 0x80, p := 0xA4, pc := 0x8001 } 2 [] = true := by decide +kernel

/-- From rule R119. -/
theorem test_iny : stepEnds (start { cpu0 with y := 0x7F, pc := 0x8000 } [(0x8000, 0xC8)] false)
    { cpu0 with y := 0x80, p := 0xA4, pc := 0x8001 } 2 [] = true := by decide +kernel

/-- From rule R120. -/
theorem test_dex : stepEnds (start { cpu0 with x := 0x01, pc := 0x8000 } [(0x8000, 0xCA)] false)
    { cpu0 with x := 0x00, p := 0x26, pc := 0x8001 } 2 [] = true := by decide +kernel

/-- From rule R136. -/
theorem test_sec : stepEnds (start { cpu0 with p := 0xE6, pc := 0x8000 } [(0x8000, 0x38)] false)
    { cpu0 with p := 0xE7, pc := 0x8001 } 2 [] = true := by decide +kernel

/-- From rule R137, vector V80. -/
theorem test_cli : stepEnds (start { cpu0 with pc := 0x8000 } [(0x8000, 0x58)] false)
    { cpu0 with p := 0x20, pc := 0x8001 } 2 [] = true := by decide +kernel

/-- From rule R138. -/
theorem test_sei : stepEnds (start { cpu0 with p := 0x20, pc := 0x8000 } [(0x8000, 0x78)] false)
    { cpu0 with p := 0x24, pc := 0x8001 } 2 [] = true := by decide +kernel

/-- From rule R140. -/
theorem test_cld : stepEnds (start { cpu0 with p := 0x2D, pc := 0x8000 } [(0x8000, 0xD8)] false)
    { cpu0 with p := 0x25, pc := 0x8001 } 2 [] = true := by decide +kernel

/-- From rule R141, vector V68. -/
theorem test_sed : stepEnds (start { cpu0 with pc := 0x8000 } [(0x8000, 0xF8)] false)
    { cpu0 with p := 0x2C, pc := 0x8001 } 2 [] = true := by decide +kernel
/-! ## Ports and dots -/

/-- The state after CPU writes, in order. -/
def writes (l : List (Word × Byte)) (s : State) : State := l.foldl (fun t w => memWrite w.1 w.2 t) s

/-- The PPU at a position, with a mask. -/
def atDot (scanline dot : Nat) (mask : Byte) : State :=
  { State.reset with ppu := { State.reset.ppu with scanline := scanline, dot := dot, mask := mask } }

/-- The same with a given `v`. -/
def atDotV (scanline dot : Nat) (mask : Byte) (v : Scroll) : State :=
  let s := atDot scanline dot mask
  s.setPpu { s.ppu with v := v }

/-- Vector W2. -/
theorem test_w2_scroll : let q := (writes [(0x2005, 0x7D), (0x2005, 0x5E)] State.reset).ppu
    q.t = 0x616F ∧ q.fineX = 5 ∧ q.w = false ∧ q.v = 0 := by decide +kernel

/-- Vector W5. -/
theorem test_w5_addr : let q := (writes [(0x2006, 0xFF), (0x2006, 0xFF)] State.reset).ppu
    q.t = 0x3FFF ∧ q.v = 0x3FFF ∧ q.w = false := by decide +kernel

/-- Vector W6. -/
theorem test_w6_shared_toggle : let q := (writes [(0x2005, 0x10), (0x2006, 0x00)] State.reset).ppu
    q.t = 0 ∧ q.v = 0 ∧ q.w = false := by decide +kernel

/-- Vectors W8 and W9: the shared palette entry, and the palette read with the nametable byte under it. -/
theorem test_w9_palette : let s := writes [(0x2006, 0x2F), (0x2006, 0x00), (0x2007, 0x99), (0x2006, 0x3F),
    (0x2006, 0x10),
      (0x2007, 0xFF), (0x2006, 0x3F), (0x2006, 0x00)] State.reset
    (memRead 0x2007 s).1 = 0x3F ∧ (memRead 0x2007 s).2.ppu.readBuffer = 0x99 ∧
      (memRead 0x2007 s).2.ppu.v = 0x3F01 := by
  decide +kernel

/-- Vector W10: the mirrors of the ports. -/
theorem test_w10_mirrors : let q := (writes [(0x3FF8, 0x90), (0x2009, 0x1E)] State.reset).ppu
    q.ctrl = 0x90 ∧ q.mask = 0x1E := by decide +kernel

/-- Vector W13. -/
theorem test_w13_increment : (writes [(0x2000, 0x04), (0x2006, 0x3F), (0x2006, 0xF0), (0x2007,
    0x01)] State.reset).ppu.v
    = 0x4010 := by decide +kernel

/-- By rule R111: INC of $2007 reads at `v` = $2000, then writes the old buffer plus 1 at $2001. -/
theorem test_inc_data_port : (match exec (.inc (.abs 0x2007)) (atDotV 0 0 0 0x2000) with
    | .next t => t.ppu.v == 0x2002 && t.vram == [(1, 1)] && t.cycles == 6
    | .fault _ => false
    | .refused _ => false) = true := by decide +kernel

/-- Vector T7, the step. -/
theorem test_t7_prerender_clear : let s := atDot 261 1 0
    let t := ppuStep (s.setPpu { s.ppu with status := 0xE0, spriteOverflow := true })
    t.ppu.status = 0 ∧ t.ppu.spriteOverflow = false := by decide +kernel

/-- The OAM of vector T8: sprites 0 to 8 at Y 100, the others at $F0. -/
def oamT8 : Memory :=
  ((List.range 64).foldl (fun m n => m.write (4 * n) (if n ≤ 8 then 100 else 0xF0)) []
    |> fun m => (List.range 9).foldl (fun m n => (m.write (4 * n + 1) (BitVec.ofNat 8 n)).write (4 * n + 3)
      (BitVec.ofNat 8 (8 * n))) m)

/-- Vector T8, the dot (100, 256). -/
def stateT8 : State := let s := atDot 100 256 0; s.setPpu { s.ppu with oam := oamT8 }

/-- Vector T8. -/
theorem test_t8_evaluation : let q := (ppuStep stateT8).ppu
    q.spriteCount = 8 ∧ q.secondaryByte 28 = 0x64 ∧ q.secondaryByte 29 = 7 ∧ q.secondaryByte 31 = 0x38 ∧
      q.spriteOverflow = true ∧ q.status = 0x20 ∧ q.sprite0Selected = true := by decide +kernel

/-- Vector T9. -/
theorem test_t9_vertical_reload : (ppuStep (atDotV 261 280 0x08 0x5555)).ppu.v = 0x0415 := by decide +kernel

/-- Vector T13. -/
theorem test_t13_increments : (ppuStep (atDotV 5 256 0x08 0x73A0)).ppu.v = 0x0801 ∧
    (ppuStep (atDotV 5 256 0x08 0x73E0)).ppu.v = 0x0001 ∧ (ppuStep (atDotV 5 256 0x08 0x7000)).ppu.v = 0x0021 ∧
    (ppuStep (atDotV 5 256 0x08 0x001F)).ppu.v = 0x1400 ∧ (ppuStep (atDotV 5 256 0x08 0x041F)).ppu.v = 0x1000 := by
  decide +kernel

/-- A dot of line 10 in which an opaque background pixel and an opaque pixel of sprite 0 meet. -/
def hitState (dot : Nat) : State :=
  let s := atDot 10 dot 0x1E
  s.setPpu { s.ppu with
    bgShiftLo := 0x8000, atShiftLo := 0x8000, lineSpriteCount := 1, lineHasSprite0 := true
    sprites := Vector.replicate 8 ⟨0xFF, 0x00, 0x02, BitVec.ofNat 8 (dot - 1)⟩
    palette := Vector.ofFn fun i => BitVec.ofNat 6 i.val }

/-- By rules R178, R179: the sprite in front gives entry `(4 + 2) * 4 + 1`, and the hit is set. -/
theorem test_pixel_and_hit : (ppuStep (hitState 100)).ppu.status = 0x40 ∧
    (ppuStep (hitState 100)).pixels.getLast? = some ⟨10, 99, 0x19⟩ := by decide +kernel

/-- By rule R179: no hit at column 255. -/
theorem test_no_hit_at_255 : (ppuStep (hitState 256)).ppu.status.getLsbD 6 = false := by decide +kernel

/-- By rule R169: the fetch of a horizontally flipped sprite's row 0 at dot 264. -/
def fetchState : State :=
  let s := atDot 20 264 0x10
  { s with
    chr := [(0x10, 0x80), (0x18, 0x01)]
    ppu := { s.ppu with
      spriteCount := 1, secondaryOam := (Vector.replicate 32 0xFF).set 0 20 |>.set 1 1 |>.set 2 0x40 |>.set 3 7 } }

/-- By rule R169. -/
theorem test_sprite_fetch : (ppuStep fetchState).ppu.spriteUnit 0 = ⟨0x01, 0x80, 0x40, 7⟩ ∧
    (ppuStep fetchState).ppu.oamAddress = 0 := by decide +kernel

/-! ## Reset -/

/-- The memories of the reset state are in canonical form. -/
theorem test_reset_memory_wf : [State.reset.ram, State.reset.prg, State.reset.prgRam, State.reset.chr, State.reset.vram,
    State.reset.ppu.oam].all Memory.wf = true := by decide

/-- Vector T1: power-on with reset vector bytes 00 80. -/
theorem test_t1_power_on : let s := powerOn Params.default [(0x7FFD, 0x80)] [] [] [] [] (Vector.replicate 32 0)
    s.cpu = cpu0 ∧ s.ppu.scanline = 0 ∧ s.ppu.dot = 21 ∧ s.cycles = 7 := by decide +kernel

/-- A word placed in the reset state is the next instruction run. -/
theorem test_with_fetch_word : stepEnds (State.reset.withFetchWord 16 0x80A9)
    { Cpu.reset with a := 0x80, p := 0xA4, pc := 2 } 2 [(0, 0xA9), (1, 0x80)] = true := by decide +kernel

/-! ## Witnesses: for each statement with hypotheses, a concrete state and operands that meet all of them -/

/-- The reset state with a load of $80 at $0000, where `PC` is. -/
def withLoad : State := State.reset.withFetchWord 16 0x80A9

/-- A legal state in the middle of the frame: the first dot of VBlank ahead, an instruction at `PC`. -/
def beforeVBlank : State :=
  let s := State.reset.withFetchWord 8 0xEA
  s.setPpu { s.ppu with scanline := 241, dot := 0, ctrl := 0x80 }

/-- A halted CPU. -/
def haltedState : State := State.reset.setHalted true

/-- An NMI is pending. -/
def nmiState : State := State.reset.setNmiPending true

/-- An IRQ is asserted and not masked. -/
def irqState : State := { (State.reset.setP 0x20) with irqLine := true }

/-- The port addresses at the two ends of the mirrors, for a port number. -/
def portEnds (n : Nat) : List Word := [BitVec.ofNat 16 (0x2000 + n), BitVec.ofNat 16 (0x3FF8 + n)]

theorem wit_reset_storage : State.reset.StorageLegal := reset_legal.2

theorem wit_reset_inv : State.reset.Inv := ⟨reset_legal.1, reset_legal.2, rfl, rfl⟩

theorem wit_haltedState_inv : haltedState.Inv :=
  ⟨reset_legal.1, ⟨⟨rfl, rfl⟩, ⟨rfl, rfl⟩, ⟨rfl, rfl⟩, ⟨rfl, rfl⟩, ⟨rfl, rfl⟩⟩, rfl, rfl⟩

theorem wit_beforeVBlank_inv : beforeVBlank.Inv :=
  ⟨⟨by decide, by decide, by decide, by decide, by decide +kernel, ⟨by decide +kernel, by decide +kernel⟩⟩,
    ⟨⟨by decide +kernel, by decide +kernel⟩, ⟨rfl, rfl⟩, ⟨rfl, rfl⟩, ⟨rfl, rfl⟩, ⟨rfl, rfl⟩⟩, rfl, rfl⟩

theorem wit_DecodeOfEncodeIsTheInstruction : (Instr.lda (.mem (.izy 0xFF))).WellFormed ∧
    (Instr.undefined 0x02).WellFormed := by
  decide

theorem wit_EncodeOfDecodeIsTheBytes : decode [0xA9, 0x80, 0x77] = .ok (.lda (.imm 0x80), [0x77]) := by rfl

theorem wit_UndefinedOpcodesAreThe105 : decode [0xFF, 0x01] = .ok (.undefined 0xFF, [0x01]) ∧
    (0xFF : Byte) ∈ undefinedOpcodes ∧
    decode [0xFE, 0x01, 0x02] = .ok (.inc (.abx 0x0201), []) := ⟨rfl, by decide, rfl⟩

theorem wit_StepRunsTheDecodedInstruction : withLoad.params.mapperId = 0 ∧ withLoad.cpu.halted = false ∧
    withLoad.cpu.nmiPending = false ∧ ¬ (withLoad.irqLine = true ∧ flagI withLoad.cpu.p = false) ∧
    decode (fetchInstr { withLoad with pixels := [] }).1 = .ok (.lda (.imm 0x80), []) ∧
    ∃ t, exec (.lda (.imm 0x80)) (fetchInstr { withLoad with pixels := [] }).2 = .next t :=
  ⟨rfl, rfl, rfl, by decide, rfl, _, rfl⟩

theorem wit_StepRunsTheInstructionAtPc : withLoad.params.mapperId = 0 ∧ withLoad.cpu.halted = false ∧
    withLoad.cpu.nmiPending = false ∧ ¬ (withLoad.irqLine = true ∧ flagI withLoad.cpu.p = false) ∧
    encode (.lda (.imm 0x80)) = some [0xA9, 0x80] ∧
    (∀ (k : Nat) (h : k < [0xA9, (0x80 : Byte)].length),
      isPort withLoad.params (withLoad.cpu.pc + BitVec.ofNat 16 k) = false ∧
      peek (withLoad.cpu.pc + BitVec.ofNat 16 k) withLoad = [0xA9, (0x80 : Byte)][k]) ∧
    ∃ t, exec (.lda (.imm 0x80)) ({ withLoad with pixels :=
      [] }.setPc (withLoad.cpu.pc + BitVec.ofNat 16 2)) = .next t :=
  ⟨rfl, rfl, rfl, by decide, rfl, by decide +kernel, _, rfl⟩

theorem wit_TickAlwaysAnswersAndRunsThreeDotsPerCycle :
    ((atDot 261 340 0).params.mapperId = 0 ∧ (atDot 261 340 0).ppu.scanline ≤ 261 ∧ (atDot 261 340 0).ppu.dot ≤ 340) ∧
    { State.reset with params := { Params.default with mapperId := 1 } }.params.mapperId ≠ 0 := by decide

theorem wit_InterruptPriorityAtTheBoundary : haltedState.cpu.halted = true ∧
    (nmiState.cpu.halted = false ∧ nmiState.cpu.nmiPending = true) ∧
    (irqState.cpu.halted = false ∧ irqState.cpu.nmiPending = false ∧ irqState.irqLine = true ∧
      flagI irqState.cpu.p = false) ∧
    (withLoad.cpu.halted = false ∧ withLoad.cpu.nmiPending = false ∧ withLoad.irqLine = false) ∧
    ((irqState.setP 0x24).cpu.nmiPending = false ∧ flagI (irqState.setP 0x24).cpu.p = true) := by decide

theorem wit_StepKeepsLegal : State.reset.Inv ∧ ∃ t, step State.reset = .next t := ⟨wit_reset_inv, _, rfl⟩

theorem wit_StepKeepsConstantBitsAndCartridge : (∃ t, step withLoad = .next t) ∧
    withLoad.params.chrWritable = false :=
  ⟨⟨_, rfl⟩, rfl⟩

theorem wit_OnlyAnUndefinedOpcodeHalts : (∃ t, step haltedState = .next t ∧ haltedState.cpu.halted = true) ∧
    ∃ t, step (State.reset.withFetchWord 8 0x02) = .next t ∧ (State.reset.withFetchWord 8 0x02).cpu.halted = false ∧
      t.cpu.halted = true :=
  ⟨⟨_, rfl, rfl⟩, _, rfl, rfl, by decide +kernel⟩

theorem wit_HaltedStepOnlyRunsThePpu : haltedState.Inv ∧ haltedState.params.mapperId = 0 ∧
    haltedState.cpu.halted = true :=
  ⟨wit_haltedState_inv, rfl, rfl⟩

theorem wit_NmiIsRaisedOnlyAtVBlankEntry : beforeVBlank.Inv ∧ beforeVBlank.cpu.nmiPending = false ∧
    ∃ t, step beforeVBlank = .next t ∧ t.cpu.nmiPending = true :=
  ⟨wit_beforeVBlank_inv, rfl, _, rfl, by decide +kernel⟩

theorem wit_InterruptServiceEntersTheHandler : (nmiState.StorageLegal ∧ nmiState.cpu.halted = false ∧
    nmiState.cpu.nmiPending = true) ∧
    irqState.StorageLegal ∧ irqState.cpu.halted = false ∧ irqState.cpu.nmiPending = false ∧ irqState.irqLine = true ∧
      flagI irqState.cpu.p = false :=
  ⟨⟨⟨⟨rfl, rfl⟩, ⟨rfl, rfl⟩, ⟨rfl, rfl⟩, ⟨rfl, rfl⟩, ⟨rfl, rfl⟩⟩, rfl, rfl⟩,
    ⟨⟨rfl, rfl⟩, ⟨rfl, rfl⟩, ⟨rfl, rfl⟩, ⟨rfl, rfl⟩, ⟨rfl, rfl⟩⟩, rfl, rfl, rfl, by decide⟩

theorem wit_BrkEntersTheHandler : State.reset.StorageLegal ∧ State.reset.cpu.pc = 0xFFFF + 1 :=
  ⟨wit_reset_storage, by decide⟩

theorem wit_RtiUndoesAnInterruptEntry : (nmiState.StorageLegal ∧ nmiState.cpu.halted = false ∧
    nmiState.cpu.nmiPending = true) ∧
    irqState.StorageLegal ∧ irqState.cpu.halted = false ∧ irqState.irqLine = true ∧ flagI irqState.cpu.p = false :=
  ⟨⟨⟨⟨rfl, rfl⟩, ⟨rfl, rfl⟩, ⟨rfl, rfl⟩, ⟨rfl, rfl⟩, ⟨rfl, rfl⟩⟩, rfl, rfl⟩,
    ⟨⟨rfl, rfl⟩, ⟨rfl, rfl⟩, ⟨rfl, rfl⟩, ⟨rfl, rfl⟩, ⟨rfl, rfl⟩⟩, rfl, rfl, by decide⟩

theorem wit_JsrAndRts : State.reset.StorageLegal ∧ State.reset.cpu.pc = 0xFFFD + 3 ∧
    isPort State.reset.params 0x0100 = false ∧
    cpuCell State.reset.params 0x0100 ≠ cpuCell State.reset.params (stackAddr State.reset.cpu.sp) ∧
    cpuCell State.reset.params 0x0100 ≠ cpuCell State.reset.params (stackAddr (State.reset.cpu.sp - 1)) :=
  ⟨wit_reset_storage, by decide, by decide, by decide, by decide⟩

theorem wit_BranchesFollowTheirFlag :
    (Instr.bne 0x80, true) ∈ [(Instr.bpl 0x80, !flagN State.reset.cpu.p), (Instr.bmi 0x80, flagN State.reset.cpu.p),
      (Instr.bvc 0x80, !flagV State.reset.cpu.p), (Instr.bvs 0x80, flagV State.reset.cpu.p),
      (Instr.bcc 0x80, !flagC State.reset.cpu.p), (Instr.bcs 0x80, flagC State.reset.cpu.p),
      (Instr.bne 0x80, !flagZ State.reset.cpu.p), (Instr.beq 0x80, flagZ State.reset.cpu.p)] ∧
    (Instr.beq 0x80, false) ∈ [(Instr.bpl 0x80, !flagN State.reset.cpu.p), (Instr.bmi 0x80, flagN State.reset.cpu.p),
      (Instr.bvc 0x80, !flagV State.reset.cpu.p), (Instr.bvs 0x80, flagV State.reset.cpu.p),
      (Instr.bcc 0x80, !flagC State.reset.cpu.p), (Instr.bcs 0x80, flagC State.reset.cpu.p),
      (Instr.bne 0x80, !flagZ State.reset.cpu.p), (Instr.beq 0x80, flagZ State.reset.cpu.p)] := by decide

theorem wit_FlagInstructionsAndNop : (Instr.sed, 3, true) ∈ [(Instr.clc, 0, false), (Instr.sec, 0, true),
    (Instr.cli, 2, false),
    (Instr.sei, 2, true), (Instr.clv, 6, false), (Instr.cld, 3, false), (Instr.sed, 3, true)] := by decide

theorem wit_UndefinedOpcodeHalts : State.reset.cpu.pc = 0xFFFF + 1 ∧ cpu0.pc = 0x7FFF + 1 := by decide

theorem wit_CycleCountsByMode :
    (0x1FE : Nat) = (0x02FF : Word).toNat % 256 + ({ cpu0 with x := 0xFF } : Cpu).x.toNat ∧
    (0x100 : Nat) = (0x02FF : Word).toNat % 256 + ({ cpu0 with y := 0x01 } : Cpu).y.toNat ∧
    (0x01 : Nat) = (peek (zext16 0x10) (State.reset.setY 1)).toNat + (State.reset.setY 1).cpu.y.toNat :=
      by decide +kernel

/-- The two ends of each range of the CPU map, and both cases of the RAM parameter. -/
theorem wit_CpuMemoryMap : State.reset.StorageLegal ∧ (0x1FFF : Word).toNat < 0x2000 ∧
    (0x07FF : Word).toNat < 0x2000 ∧
    (0x4000 ≤ (0x4000 : Word).toNat ∧ (0x5FFF : Word).toNat < 0x6000) ∧
    (0x6000 ≤ (0x6000 : Word).toNat ∧ (0x7FFF : Word).toNat < 0x8000 ∧ (0x7FFF : Word) ≠ 0x6000) ∧
    State.reset.params.hasPrgRam = false ∧
    { State.reset with params := { Params.default with hasPrgRam := true } }.StorageLegal ∧
    { State.reset with params := { Params.default with hasPrgRam := true } }.params.hasPrgRam = true ∧
    0x8000 ≤ (0x8000 : Word).toNat ∧ 0x8000 ≤ (0xFFFF : Word).toNat ∧
    (0x2000 ≤ (0x2000 : Word).toNat ∧ (0x3FFF : Word).toNat < 0x4000) ∧ 0x4020 ≤ (0x4020 : Word).toNat ∧
    (0x1FFF : PpuAddr).toNat < 0x2000 :=
  ⟨wit_reset_storage, by decide, by decide, by decide, by decide, rfl,
    ⟨⟨rfl, rfl⟩, ⟨rfl, rfl⟩, ⟨rfl, rfl⟩, ⟨rfl, rfl⟩, ⟨rfl, rfl⟩⟩, rfl, by decide, by decide, by decide, by decide,
    by decide⟩

/-- Both ends of the port range for every port: the hypotheses of StatusReadClearsVBlank, ControlPortWrites,
DataPortWrite,
DataPortRead, OamDataPort, and PortsInTheWrongDirection about the address. -/
theorem wit_port_addresses : (List.range 8).all (fun n => (portEnds n).all fun a =>
    decide (0x2000 ≤ a.toNat ∧ a.toNat < 0x4000 ∧ a.toNat % 8 = n)) = true := by decide

theorem wit_StatusReadClearsVBlank : 0x2000 ≤ (0x2002 : Word).toNat ∧ (0x3FFA : Word).toNat < 0x4000 ∧
    (0x2002 : Word).toNat % 8 = 2 ∧ (0x3FFA : Word).toNat % 8 = 2 := by decide

theorem wit_ControlPortWrites : 0x2000 ≤ (0x2000 : Word).toNat ∧ (0x3FFB : Word).toNat < 0x4000 ∧
    (0x2000 : Word).toNat % 8 = 0 ∧ (0x3FF9 : Word).toNat % 8 = 1 ∧ (0x3FFB : Word).toNat % 8 = 3 := by decide

/-- Both values of the toggle, at both ports. -/
theorem wit_TwoStepPortWrites : 0x2000 ≤ (0x2005 : Word).toNat ∧ (0x3FFE : Word).toNat < 0x4000 ∧
    (0x2005 : Word).toNat % 8 = 5 ∧ (0x3FFE : Word).toNat % 8 = 6 ∧ State.reset.ppu.w = false ∧
    (memWrite 0x2005 0xFF State.reset).ppu.w = true := by decide +kernel

theorem wit_DataPortWrite : 0x2000 ≤ (0x2007 : Word).toNat ∧ (0x3FFF : Word).toNat < 0x4000 ∧
    (0x2007 : Word).toNat % 8 = 7 ∧ (0x3FFF : Word).toNat % 8 = 7 := by decide

/-- Both sides of $3F00. -/
theorem wit_DataPortRead : (0x2007 : Word).toNat % 8 = 7 ∧ (atDotV 0 0 0 0x3EFF).ppu.v.toNat % 16384 < 0x3F00 ∧
    0x3F00 ≤ (atDotV 0 0 0 0x3F00).ppu.v.toNat % 16384 ∧
      0x3F00 ≤ (atDotV 0 0 0 0x7FFF).ppu.v.toNat % 16384 := by decide +kernel

theorem wit_OamDataPort : State.reset.ppu.Legal ∧ 0x2000 ≤ (0x2004 : Word).toNat ∧ (0x2004 : Word).toNat < 0x4000 ∧
    (0x2004 : Word).toNat % 8 = 4 := ⟨reset_legal.1, by decide⟩

theorem wit_PortsInTheWrongDirection : 0x2000 ≤ (0x2000 : Word).toNat ∧ (0x3FFE : Word).toNat < 0x4000 ∧
    (0x2000 : Word).toNat % 8 ∈ [0, 1, 3, 5, 6] ∧ (0x3FFE : Word).toNat % 8 ∈ [0, 1, 3, 5, 6] ∧
    (0x2002 : Word).toNat % 8 = 2 := by decide

/-- The ends of the three ranges, both CHR kinds. -/
theorem wit_PpuAddressMap : State.reset.StorageLegal ∧ (0x1FFF : PpuAddr).toNat < 0x2000 ∧
    State.reset.params.chrWritable = false ∧
    { State.reset with params := { Params.default with chrWritable := true } }.params.chrWritable = true ∧
    (0x2000 ≤ (0x2000 : PpuAddr).toNat ∧ (0x3EFF : PpuAddr).toNat < 0x3F00) ∧ 0x3F00 ≤ (0x3F00 : PpuAddr).toNat ∧
    0x3F00 ≤ (0x3FFF : PpuAddr).toNat :=
  ⟨wit_reset_storage, by decide, rfl, rfl, by decide, by decide, by decide⟩

/-- With and without a PPUSTATUS read just before. -/
theorem wit_VBlankEntryDot : (atDot 241 1 0).ppu.scanline = 241 ∧ (atDot 241 1 0).ppu.dot = 1 ∧
    (atDot 241 1 0).ppu.nmiLine = false ∧ (atDot 241 1 0).ppu.vblReadLatch = false ∧
    (memRead 0x2002 (atDot 241 1 0)).2.ppu.nmiLine = false ∧
      (memRead 0x2002 (atDot 241 1 0)).2.ppu.vblReadLatch = true ∧
    (memRead 0x2002 (atDot 241 1 0)).2.ppu.scanline = 241 ∧
      (memRead 0x2002 (atDot 241 1 0)).2.ppu.dot = 1 := by decide +kernel

/-- The dot of the clear, the dots about it, and the ends of the ranges in which a dot does nothing, rendering on. -/
theorem wit_PreRenderClearAndVBlankElsewhere : ((atDot 261 1 0x18).ppu.scanline = 261 ∧
    (atDot 261 1 0x18).ppu.dot = 1 ∧ ¬ ((atDot 261 1 0x18).ppu.scanline = 241)) ∧
    ((atDot 261 0 0x18).ppu.dot = 0 ∧ (atDot 0 0 0x18).ppu.dot = 0) ∧
    (240 ≤ (atDot 240 340 0x18).ppu.scanline ∧ (atDot 260 340 0x18).ppu.scanline ≤ 260) ∧
    ((atDot 241 0 0x18).ppu.dot = 0 ∧ ¬ ((atDot 241 0 0x18).ppu.dot = 1)) ∧
    ¬ ((atDot 241 2 0).ppu.scanline = 241 ∧ (atDot 241 2 0).ppu.dot = 1) ∧
    ¬ ((atDot 241 2 0).ppu.scanline = 261 ∧ (atDot 241 2 0).ppu.dot = 1) := by decide

/-- The dot 256, with nine sprites in range: the eighth fills the last slot. -/
theorem wit_SpriteEvaluationFillsTheSlots : (stateT8.ppu.scanline ≤ 239 ∨ stateT8.ppu.scanline = 261) ∧
    stateT8.ppu.dot = 256 ∧
    ((List.range 64).filter fun n => decide ((stateT8.ppu.oam.read (4 * n)).toNat ≤ stateT8.ppu.scanline ∧
      stateT8.ppu.scanline < (stateT8.ppu.oam.read (4 * n)).toNat + 8))[7]? = some 7 := by decide +kernel

/-- The first and the last dot of the clear. -/
theorem wit_SecondaryOamClearDots : ((atDot 239 1 0).ppu.scanline ≤ 239 ∧ 1 ≤ (atDot 239 1 0).ppu.dot ∧
    (atDot 239 1 0).ppu.dot ≤ 64) ∧
    ((atDot 261 64 0).ppu.scanline = 261 ∧ 1 ≤ (atDot 261 64 0).ppu.dot ∧ (atDot 261 64 0).ppu.dot ≤ 64) ∧
    (atDot 261 1 0x18).ppu.scanline = 261 ∧ (atDot 261 1 0x18).ppu.dot = 1 := by decide

theorem wit_RenderingDisabledStopsThePipeline : (atDot 0 256 0xE7).ppu.mask.getLsbD 3 = false ∧
    (atDot 0 256 0xE7).ppu.mask.getLsbD 4 = false := by decide

/-- Every clause at a boundary dot: a tile's end, dots 256 and 257, the vertical copy, and a dot of none of them. -/
theorem wit_ScrollUpdatesByDot :
    let tile := fun d : Nat => (8 ≤ d ∧ d ≤ 256 ∨ 328 ≤ d ∧ d ≤ 336) ∧ d % 8 = 0
    (atDot 239 8 0x08).ppu.mask.getLsbD 3 = true ∧ (atDot 239 8 0x10).ppu.mask.getLsbD 4 = true ∧
    (atDot 239 8 0x08).ppu.scanline ≤ 239 ∧ (tile 8 ∧ (8 : Nat) ≠ 256) ∧ (tile 336 ∧ (336 : Nat) ≠ 256) ∧
    (atDot 239 256 0x08).ppu.dot = 256 ∧ (atDot 239 257 0x08).ppu.dot = 257 ∧
    ((atDot 261 280 0x08).ppu.scanline = 261 ∧ 280 ≤ (atDot 261 280 0x08).ppu.dot ∧
      (atDot 261 280 0x08).ppu.dot ≤ 304) ∧
    (¬ tile 305 ∧ (305 : Nat) ≠ 257 ∧ ¬ ((261 : Nat) = 261 ∧ 280 ≤ (305 : Nat) ∧ (305 : Nat) ≤ 304)) := by decide

theorem wit_BackgroundFetchesByPhase : (atDot 261 321 0x08).ppu.mask.getLsbD 3 = true ∧
    (atDot 261 321 0x08).ppu.scanline = 261 ∧
    (1 ≤ (atDot 0 1 0x10).ppu.dot ∧ (atDot 0 256 0x10).ppu.dot ≤ 256) ∧
    (321 ≤ (atDot 261 321 0x08).ppu.dot ∧ (atDot 261 336 0x08).ppu.dot ≤ 336) := by decide

/-- The first dot, the last dot of the first unit with a sprite in range, and the last dot with an empty slot. -/
theorem wit_SpriteFetchLoadsTheUnits : (fetchState.ppu.mask.getLsbD 4 = true ∧ fetchState.ppu.scanline ≤ 239 ∧
    257 ≤ fetchState.ppu.dot ∧ fetchState.ppu.dot ≤ 320 ∧ fetchState.ppu.dot = 264 + 8 * 0 ∧
      0 < fetchState.ppu.spriteCount ∧
    (fetchState.ppu.secondaryByte 0).toNat ≤ fetchState.ppu.scanline ∧
    fetchState.ppu.scanline < (fetchState.ppu.secondaryByte 0).toNat + 8) ∧
    (257 ≤ (atDot 239 257 0x10).ppu.dot ∧ (atDot 239 257 0x10).ppu.dot = 257) ∧
    ((atDot 239 320 0x10).ppu.dot ≤ 320 ∧ (atDot 239 320 0x10).ppu.dot = 264 + 8 * 7 ∧
      (atDot 239 320 0x10).ppu.dot ≠ 257 ∧
      (atDot 239 320 0x10).ppu.spriteCount ≤ 7) := by decide +kernel

/-- Dots 337 and 340. -/
theorem wit_ExtraNametableReads : ((atDot 0 337 0x08).ppu.mask.getLsbD 3 = true ∧ (atDot 0 337 0x08).ppu.scanline ≤ 239 ∧
    337 ≤ (atDot 0 337 0x08).ppu.dot) ∧ (atDot 261 340 0x10).ppu.scanline = 261 ∧ (atDot 261 340 0x10).ppu.dot ≤ 340 := by
  decide

/-- A dot with no unit shown, and the dots 1 and 256 with unit 0 shown. -/
theorem wit_PixelOutputByLayers : ((hitState 1).ppu.mask.getLsbD 3 = true ∧ (hitState 1).ppu.scanline ≤ 239 ∧
    1 ≤ (hitState 1).ppu.dot ∧ (hitState 256).ppu.dot ≤ 256) ∧
    ((hitState 256).ppu.mask.getLsbD 4 = true ∧ 0 < (hitState 256).ppu.lineSpriteCount ∧
      ((hitState 256).ppu.spriteUnit 0).x.toNat ≤ 255 ∧ 255 ≤ ((hitState 256).ppu.spriteUnit 0).x.toNat + 7 ∧
      ((hitState 256).ppu.spriteUnit 0).patHi = 0 ∧ ((hitState 256).ppu.spriteUnit 0).patLo.getLsbD 7 = true) ∧
    (∀ i, ¬ i < (atDot 10 100 0x1E).ppu.lineSpriteCount) := by
  refine ⟨by decide +kernel, by decide +kernel, fun i h => ?_⟩
  exact absurd h (Nat.not_lt_zero i)

theorem wit_SpriteZeroHitDot : ((hitState 1).ppu.mask.getLsbD 3 = true ∧ (hitState 1).ppu.scanline ≤ 239 ∧
    1 ≤ (hitState 1).ppu.dot ∧ (hitState 1).ppu.dot ≤ 256) ∧ 1 ≤ (hitState 256).ppu.dot ∧
      (hitState 256).ppu.dot ≤ 256 := by
  decide +kernel

theorem wit_WarmResetKeepsMemoryAndPpu : haltedState.ppu.Legal := reset_legal.1

/-- The hypothesis of PushesWriteTheStack, StoresWriteTheRegister, AslAndRolShiftLeft, LsrAndRorShiftRight and
IncAndDecChangeMemoryByOne, and every case of the frame of a store: the byte under two of its addresses, another byte, ROM
and a port. -/
theorem wit_stores : State.reset.StorageLegal ∧ isWritable State.reset.params 0x0300 = true ∧
    isPort State.reset.params 0x0301 = false ∧
    cpuCell State.reset.params 0x0301 ≠ cpuCell State.reset.params 0x0300 ∧
    cpuCell State.reset.params 0x0B00 = cpuCell State.reset.params 0x0300 ∧
    isWritable State.reset.params 0x8000 = false ∧ cpuCell State.reset.params 0x2007 = .port 7 :=
  ⟨wit_reset_storage, by decide, by decide, by decide, by decide, by decide, by decide⟩

end Sys2Proof.Tests
end

/-! ## Whole-machine invariants (10_state.md): reset is legal, and every step keeps what it must keep -/

namespace Sys2Proof.Machine

/-- Inversion of `step` (49_system_clock.md rule R180): a CPU step from the state with the pixel output emptied, which
keeps what every CPU step keeps, then three dots for each of its cycles. -/
theorem step_eq_next {s t : State} (h : step s = .next t) :
    ∃ u, StepKeeps { s with pixels := [] } u ∧ 1 ≤ u.cycles ∧ t = clockDots (3 * u.cycles) u := by
  obtain ⟨u, -, hkeeps, hpos, -, hstep⟩ := step_cases (step_mapper h)
  rw [hstep] at h
  injection h with h
  exact ⟨u, hkeeps, hpos, h.symm⟩

/-- No dot writes `CHR`: the PPU only reads it (20_memory.md rule R47). -/
theorem clockDots_chr (n : Nat) (s : State) : (clockDots n s).chr = s.chr := by rw [clockDots_rest]

/-- Dots after a CPU step make a legal state: ranges and memories are kept by each dot, and the last dot leaves the two
latches 0, so at least one is needed. -/
theorem clockDots_inv {n : Nat} {s : State} (hppu : s.ppu.Legal) (hstorage : s.StorageLegal) (hn : n ≠ 0) :
    (clockDots n s).Inv := by
  obtain ⟨-, -, -, -, -, hkept⟩ := clockDots_keeps n s
  obtain ⟨k, rfl⟩ := Nat.exists_eq_succ_of_ne_zero hn
  obtain ⟨hline, hlatch⟩ := clockDots_latches k s
  exact ⟨clockDots_legal _ hppu, hkept hstorage, hline, hlatch⟩

/-- Settles O10: the CPU step keeps the PPU and the storage legal (`StepKeeps`), and its dots do the rest
(`clockDots_inv`). -/
theorem stepKeepsLegal : Obligations.StepKeepsLegal := by
  intro s t hinv hstep
  obtain ⟨u, hkeeps, hpos, rfl⟩ := step_eq_next hstep
  obtain ⟨hram, hprg, hprgRam, hchr, hvram⟩ := hinv.storage
  have hstart : State.StorageLegal { s with pixels := [] } := ⟨hram, hprg, hprgRam, hchr, hvram⟩
  exact clockDots_inv (hkeeps.ppu hinv.ppu) (hkeeps.storage hstart) (by omega)

/-- Settles O11: neither the CPU step (`StepKeeps`) nor the dots after it (`clockDots_keeps`, `clockDots_chr`) write any of
these fields. -/
theorem stepKeepsConstantBitsAndCartridge : Obligations.StepKeepsConstantBitsAndCartridge := by
  intro s t hstep
  obtain ⟨u, hkeeps, -, rfl⟩ := step_eq_next hstep
  obtain ⟨hparams, hprg, hirq, hstatus, -, -⟩ := clockDots_keeps (3 * u.cycles) u
  rw [hstatus, hparams, hprg, hirq, clockDots_chr]
  exact ⟨hkeeps.status 5 (.inl rfl), hkeeps.status 4 (.inr rfl), hkeeps.prg, hkeeps.params, hkeeps.irqLine, hkeeps.chr⟩

/-- Settles O9: the ranges and memories are those of `reset_legal`, and both latches start 0. -/
theorem resetIsLegal : Obligations.ResetIsLegal := by
  obtain ⟨hppu, hstorage⟩ := reset_legal
  exact ⟨hppu, hstorage, rfl, rfl⟩

end Sys2Proof.Machine

/-! ## The memory maps (20_memory.md): what every CPU address and every PPU address selects, reads and stores -/

namespace Sys2Proof.Machine

/-! ### The CPU decode above the ports (rules R42, R44) -/

/-- The stub and the range that the fixed mapping leaves empty are one range without a device. -/
theorem cpuCell_unmapped (q : Params) {a : Word} (h : 0x4000 ≤ a.toNat) (h' : a.toNat < 0x6000) :
    cpuCell q a = .nothing := by
  by_cases hstub : a.toNat < 0x4020
  · exact cpuCell_stub q h hstub
  · rw [cpuCell_mapper q (by omega), translateCpuAddress, if_pos h']

theorem cpuCell_cartridgeRam {q : Params} {a : Word} (h : 0x6000 ≤ a.toNat) (h' : a.toNat < 0x8000)
    (hram : q.hasPrgRam = true) : cpuCell q a = .prgRam (a.toNat - 0x6000) := by
  rw [cpuCell_mapper q (by omega), translateCpuAddress, if_neg (by omega), if_pos h', if_pos hram]

theorem cpuCell_noCartridgeRam {q : Params} {a : Word} (h : 0x6000 ≤ a.toNat) (h' : a.toNat < 0x8000)
    (hram : q.hasPrgRam = false) : cpuCell q a = .nothing := by
  rw [cpuCell_mapper q (by omega), translateCpuAddress, if_neg (by omega), if_pos h', hram]
  rfl

/-- Above $8000 the decode selects a byte inside one of two banks; with one bank both halves are that bank. -/
theorem cpuCell_prgBank (q : Params) {a : Word} (h : 0x8000 ≤ a.toNat) :
    ∃ k o, cpuCell q a = .prg k o ∧ k < 2 ∧ o < 16384 ∧
      (q.prgBanks = .one → prgIndex k o = (a.toNat - 0x8000) % 0x4000) ∧
      (q.prgBanks = .two → prgIndex k o = a.toNat - 0x8000) := by
  have ha := a.isLt
  rw [cpuCell_mapper q (by omega), translateCpuAddress, if_neg (by omega), if_neg (by omega)]
  by_cases hlow : a.toNat < 0xC000
  · have hindex : prgIndex 0 (a.toNat - 0x8000) = a.toNat - 0x8000 := by simp [prgIndex]
    exact ⟨0, a.toNat - 0x8000, if_pos hlow, by decide, by omega, fun _ => by omega, fun _ => hindex⟩
  · rw [if_neg hlow]
    cases q.prgBanks with
    | one =>
      have hindex : prgIndex 0 (a.toNat - 0xC000) = a.toNat - 0xC000 := by simp [prgIndex]
      exact ⟨0, a.toNat - 0xC000, rfl, by decide, by omega, fun _ => by omega, nofun⟩
    | two =>
      have hindex : prgIndex 1 (a.toNat - 0xC000) = 0x4000 + (a.toNat - 0xC000) := by simp [prgIndex]
      exact ⟨1, a.toNat - 0xC000, rfl, by decide, by omega, nofun, fun _ => by omega⟩

/-! ### CPU accesses by what the address selects -/

section
variable {a b : Word} {s : State}

theorem memRead_prgRamCell {i : Nat} (h : cpuCell s.params a = .prgRam i) :
    memRead a s = (s.prgRam.read i, s) := by
  unfold memRead; rw [h]

theorem memRead_prgCell {k i : Nat} (h : cpuCell s.params a = .prg k i) :
    memRead a s = (s.prg.read (prgIndex k i), s) := by
  unfold memRead; rw [h]

theorem memRead_nothing (h : cpuCell s.params a = .nothing) : memRead a s = (s.params.openBus, s) := by
  unfold memRead; rw [h]

/-- An address without a device reads `OPEN_BUS` and ignores writes (rules R42, R44). -/
theorem access_nothing (h : cpuCell s.params a = .nothing) (v : Byte) :
    memRead a s = (s.params.openBus, s) ∧ memWrite a v s = s :=
  ⟨memRead_nothing h, memWrite_nothing h v⟩

/-- After a write to a byte that can be written, that byte reads `v` under every address that selects it, and every
other byte reads as before. -/
theorem peek_memWrite (hs : s.StorageLegal) (ha : isWritable s.params a = true) (hb : isPort s.params b = false)
    (v : Byte) :
    peek b (memWrite a v s) = if cpuCell s.params b = cpuCell s.params a then v else peek b s := by
  have hw := memWrite_storedAt hs.ram.wf hs.prgRam.wf a v
  split
  next hsame => exact hw.stored ha b hsame
  next hother => exact hw.others b hb hother

/-- Internal RAM: the mirrors of the byte written read it, the rest of RAM reads as before (rule R40). -/
theorem peek_memWrite_ram (hs : s.StorageLegal) (ha : a.toNat < 0x2000) (hb : b.toNat < 0x2000) (v : Byte) :
    peek b (memWrite a v s) = if a.toNat % 0x800 = b.toNat % 0x800 then v else peek b s := by
  have hcell := cpuCell_ram s.params ha
  have hcell' := cpuCell_ram s.params hb
  rw [peek_memWrite hs (by rw [isWritable, hcell]) (by rw [isPort, hcell']), hcell, hcell']
  exact if_congr (by rw [CpuCell.ram.injEq, eq_comm]) rfl rfl

/-- Cartridge RAM: its window has no mirrors (rule R44). -/
theorem peek_memWrite_prgRam (hs : s.StorageLegal) (hram : s.params.hasPrgRam = true)
    (ha : 0x6000 ≤ a.toNat) (ha' : a.toNat < 0x8000) (hb : 0x6000 ≤ b.toNat) (hb' : b.toNat < 0x8000) (v : Byte) :
    peek b (memWrite a v s) = if b = a then v else peek b s := by
  have hcell := cpuCell_cartridgeRam ha ha' hram
  have hcell' := cpuCell_cartridgeRam hb hb' hram
  rw [peek_memWrite hs (by rw [isWritable, hcell]) (by rw [isPort, hcell']), hcell, hcell']
  exact if_congr (by rw [CpuCell.prgRam.injEq, ← BitVec.toNat_inj]; omega) rfl rfl

end

/-! ### The PPU's own map by range (rules R46 to R49) -/

theorem ppuRead_pattern (s : State) {a : PpuAddr} (h : a.toNat < 0x2000) : ppuRead s a = s.chr.read a.toNat :=
  if_pos h

theorem ppuRead_nametable (s : State) {a : PpuAddr} (h : 0x2000 ≤ a.toNat) (h' : a.toNat < 0x3F00) :
    ppuRead s a = s.vram.read (nametableIndex s.params.mirroring a) := by
  rw [ppuRead, if_neg (by omega), if_pos h']

theorem ppuRead_palette (s : State) {a : PpuAddr} (h : 0x3F00 ≤ a.toNat) :
    ppuRead s a = (s.ppu.colour (paletteIndex a)).setWidth 8 := by
  rw [ppuRead, if_neg (by omega), if_neg (by omega)]

theorem ppuWrite_patternRom {s : State} {a : PpuAddr} (h : a.toNat < 0x2000) (hw : s.params.chrWritable = false)
    (d : Byte) : ppuWrite s a d = s := by
  rw [ppuWrite, if_pos h, hw]
  rfl

theorem ppuWrite_patternRam {s : State} {a : PpuAddr} (h : a.toNat < 0x2000) (hw : s.params.chrWritable = true)
    (d : Byte) : ppuWrite s a d = { s with chr := s.chr.write a.toNat d } := by
  rw [ppuWrite, if_pos h, if_pos hw]

theorem ppuWrite_nametable (s : State) {a : PpuAddr} (h : 0x2000 ≤ a.toNat) (h' : a.toNat < 0x3F00) (d : Byte) :
    ppuWrite s a d = { s with vram := s.vram.write (nametableIndex s.params.mirroring a) d } := by
  rw [ppuWrite, if_neg (by omega), if_pos h']

theorem ppuWrite_palette (s : State) {a : PpuAddr} (h : 0x3F00 ≤ a.toNat) (d : Byte) :
    ppuWrite s a d = { s with ppu := { s.ppu with
      palette := s.ppu.palette.setIfInBounds (paletteIndex a) (field 0 6 d) } } := by
  rw [ppuWrite, if_neg (by omega), if_neg (by omega)]
  rfl

/-- Under horizontal mirroring the two nametables of one half of the space share their KiB of VRAM. -/
theorem nametableIndex_horizontal (a : PpuAddr) :
    nametableIndex .horizontal a = (a.toNat / 0x800) % 2 * 1024 + a.toNat % 0x400 := by
  simp only [nametableIndex]
  omega

/-- Under vertical mirroring every second nametable is the same KiB of VRAM. -/
theorem nametableIndex_vertical (a : PpuAddr) :
    nametableIndex .vertical a = (a.toNat / 0x400) % 2 * 1024 + a.toNat % 0x400 := by
  simp only [nametableIndex]
  omega

/-- The shared entries are those whose number is a multiple of 4: the upper half reads the lower. -/
theorem paletteIndex_eq (a : PpuAddr) :
    paletteIndex a = if a.toNat % 32 % 4 = 0 then a.toNat % 16 else a.toNat % 32 := by
  simp only [paletteIndex]
  split <;> split <;> omega

theorem paletteIndex_lt (a : PpuAddr) : paletteIndex a < 32 := by
  rw [paletteIndex_eq]
  split <;> omega

/-- A colour number is the low 6 bits of the byte written (rule R49: `x & $3F`). -/
theorem field_six_toNat (d : Byte) : (field 0 6 d).toNat = d.toNat % 64 := by
  simp [field, BitVec.extractLsb'_toNat]

/-- A byte written to pattern-table RAM reads back, and every other PPU address reads as before. -/
theorem ppuRead_ppuWrite_patternRam {s : State} {a : PpuAddr} (hs : s.StorageLegal) (h : a.toNat < 0x2000)
    (hw : s.params.chrWritable = true) (b : PpuAddr) (d : Byte) :
    ppuRead (ppuWrite s a d) b = if b = a then d else ppuRead s b := by
  rw [ppuWrite_patternRam h hw]
  by_cases hba : b = a
  · subst hba
    rw [if_pos rfl, ppuRead_pattern _ h]
    exact Memory.read_write_self _ d hs.chr.wf
  · rw [if_neg hba]
    by_cases hb : b.toNat < 0x2000
    · rw [ppuRead_pattern _ hb, ppuRead_pattern _ hb]
      exact Memory.read_write_other _ d fun hne => hba (BitVec.eq_of_toNat_eq hne)
    · simp only [ppuRead, if_neg hb]

/-- What a palette write leaves of each entry. -/
theorem colour_ppuWrite_palette (s : State) {a : PpuAddr} (h : 0x3F00 ≤ a.toNat) (d : Byte) (j : Nat) :
    (ppuWrite s a d).ppu.colour j = if j = paletteIndex a then field 0 6 d else s.ppu.colour j := by
  rw [ppuWrite_palette s h, Ppu.colour, Ppu.colour, Vector.getElem?_setIfInBounds]
  by_cases hj : j = paletteIndex a
  · rw [if_pos hj.symm, if_pos hj, if_pos (paletteIndex_lt a)]
    rfl
  · rw [if_neg (Ne.symm hj), if_neg hj]

/-! ### The two maps -/

/-- Settles O39: each range of addresses selects one kind of cell (`cpuCell_ram` to `cpuCell_prgBank`), and each kind of
cell has one read and one write. -/
theorem cpuMemoryMap : Obligations.CpuMemoryMap := by
  intro a b v s hs
  have hunmapped (hlo : 0x4000 ≤ a.toNat) (hhi : a.toNat < 0x6000) := cpuCell_unmapped s.params hlo hhi
  refine ⟨fun ha => ?ram, fun hlo hhi => ?ports, fun hlo hhi => access_nothing (hunmapped hlo hhi) v,
    fun hlo => ?mapper, fun hlo hhi hram => access_nothing (cpuCell_noCartridgeRam hlo hhi hram) v,
    fun hlo hhi hram => ?prgRam, fun hlo => ?rom, fun c hc => ppuRead_pattern s hc⟩
  case ram =>
    have hcell := cpuCell_ram s.params ha
    refine ⟨?_, ?_, ?_, fun hb => peek_memWrite_ram hs ha hb v⟩
    · rw [peek, memRead_ram hcell]
    · rw [memWrite_ram hcell]
    · rw [peek, memRead_ram hcell]
  case ports =>
    have hcell := cpuCell_port s.params hlo hhi
    exact ⟨memRead_port hcell, memWrite_port hcell v⟩
  case mapper =>
    by_cases hexp : a.toNat < 0x6000
    · have hcell := hunmapped (by omega) hexp
      exact .inl ⟨hcell, access_nothing hcell v⟩
    by_cases hrom : a.toNat < 0x8000
    · cases hram : s.params.hasPrgRam with
      | false =>
        have hcell := cpuCell_noCartridgeRam (by omega) hrom hram
        exact .inl ⟨hcell, access_nothing hcell v⟩
      | true =>
        have hcell := cpuCell_cartridgeRam (by omega) hrom hram
        exact .inr (.inl ⟨_, hcell, by omega, memRead_prgRamCell hcell, memWrite_prgRamCell hcell v⟩)
    · obtain ⟨k, o, hcell, hk, ho, -⟩ := cpuCell_prgBank s.params (a := a) (by omega)
      exact .inr (.inr ⟨k, o, hcell, hk, ho, memRead_prgCell hcell, memWrite_prgCell hcell v⟩)
  case prgRam =>
    have hcell := cpuCell_cartridgeRam hlo hhi hram
    refine ⟨memRead_prgRamCell hcell, ?_, ?_, fun hblo hbhi hne => ?_⟩
    · rw [peek_memWrite_prgRam hs hram hlo hhi hlo hhi, if_pos rfl]
    · rw [memWrite_prgRamCell hcell]
    · rw [peek_memWrite_prgRam hs hram hlo hhi hblo hbhi, if_neg hne]
  case rom =>
    obtain ⟨k, o, hcell, -, -, hone, htwo⟩ := cpuCell_prgBank s.params hlo
    have hread := memRead_prgCell hcell
    refine ⟨memWrite_prgCell hcell v, by rw [hread], ?_⟩
    rw [peek, hread]
    cases hbanks : s.params.prgBanks with
    | one => rw [hone hbanks]
    | two => rw [htwo hbanks]

/-- Settles O47: one read and one write per range, at the index that the mirroring and the palette's shared entries
give (`nametableIndex_horizontal`, `nametableIndex_vertical`, `paletteIndex_eq`). -/
theorem ppuAddressMap : Obligations.PpuAddressMap := by
  intro a b d s hs
  refine ⟨fun ha => ?pattern, fun hlo hhi => ?nametable, fun hlo => ?palette⟩
  case pattern =>
    exact ⟨ppuRead_pattern s ha, fun hw => ppuWrite_patternRom ha hw d,
      fun hw => ppuRead_ppuWrite_patternRam hs ha hw b d⟩
  case nametable =>
    rw [ppuWrite_nametable s hlo hhi]
    refine ⟨nametableIndex s.params.mirroring a, nametableIndex_lt _ a, ?_, ppuRead_nametable s hlo hhi,
      Memory.read_write_self _ d hs.vram.wf, rfl, fun j hj => Memory.read_write_other _ d hj⟩
    cases s.params.mirroring with
    | horizontal => exact nametableIndex_horizontal a
    | vertical => exact nametableIndex_vertical a
  case palette =>
    refine ⟨paletteIndex a, paletteIndex_lt a, paletteIndex_eq a, ?_, by rw [ppuWrite_palette s hlo],
      fun j _ => ?_⟩
    · rw [ppuRead_palette s hlo]
      exact BitVec.toNat_setWidth_of_le (by decide)
    · rw [colour_ppuWrite_palette s hlo]
      split
      next => exact field_six_toNat d
      next => rfl

end Sys2Proof.Machine

/-! ## Encoding (30_encoding.md): the opcode map and the tables of files 40 to 46 are the same 256 rows -/

namespace Sys2Proof

/-! ### Addressing modes and their operand bytes -/

theorem wordOperand_joinBytes (b1 b2 : Byte) : wordOperand (joinBytes b2 b1) = [b1, b2] := by
  rw [wordOperand, loByte_joinBytes, hiByte_joinBytes]

/-- The mode of the opcode map that builds an address of this form (rules R66 to R74). -/
def Addr.mode : Addr → OpMap.Mode
  | .zp _ => OpMap.zp
  | .zpx _ => OpMap.zpx
  | .zpy _ => OpMap.zpy
  | .abs _ => OpMap.ab
  | .abx _ => OpMap.abx
  | .aby _ => OpMap.aby
  | .izx _ => OpMap.izx
  | .izy _ => OpMap.izy

/-- An address is what its mode builds from its operand bytes. -/
theorem Addr.mode_operands (m : Addr) : m.mode (m.operands.getD 0 0) (m.operands.getD 1 0) = m := by
  cases m with
  | abs w => exact congrArg Addr.abs (joinBytes_hi_lo w)
  | abx w => exact congrArg Addr.abx (joinBytes_hi_lo w)
  | aby w => exact congrArg Addr.aby (joinBytes_hi_lo w)
  | zp | zpx | zpy | izx | izy => rfl

/-- Conversely, the operand bytes of a built address are the bytes its mode read. -/
theorem Addr.operands_mode (m : Addr) (b1 b2 : Byte) :
    (m.mode b1 b2).operands = [b1, b2].take (m.mode b1 b2).operandBytes := by
  cases m with
  | abs | abx | aby => exact wordOperand_joinBytes b1 b2
  | zp | zpx | zpy | izx | izy => rfl

/-! ### The row of an instruction -/

/-- The row `op` of the opcode map is the row of the form of `i` (rules R61, R77): it gives `i` back from the operand
bytes of `i`, and whatever it reads has the opcode `op` and, as operands, the bytes it was given. -/
structure Instr.InRow (i : Instr) (op : Byte) : Prop where
  reads : decodeBytes op (i.operands.getD 0 0) (i.operands.getD 1 0) = i
  opcode : ∀ b1 b2, (decodeBytes op b1 b2).opcode = some op
  operands : ∀ b1 b2, (decodeBytes op b1 b2).operands = [b1, b2].take (operandCount op)

/-- A form `f` with one operand in memory stands in the row whose cell is `f` at the mode of the address. -/
theorem inRow_mem {f : Addr → Instr} (m : Addr) {op : Byte}
    (hf : ∀ m, (f m).operands = m.operands ∧ (f m).operandBytes = m.operandBytes)
    (hrow : decodeBytes op = OpMap.ea m.mode f op ∧ ∀ b1 b2, (f (m.mode b1 b2)).opcode = some op) :
    (f m).InRow op where
  reads := by rw [hrow.1, (hf m).1, OpMap.ea, m.mode_operands]
  opcode := by rw [hrow.1]; exact hrow.2
  operands b1 b2 := by
    rw [← (decodeBytes_uniform op b1 b2).1, hrow.1, OpMap.ea, (hf _).1, (hf _).2, m.operands_mode]

/-- A form `f` with a 16-bit operand of its own (JMP, JSR) stands in the row whose cell is `f` at the joined bytes. -/
theorem inRow_word {f : Word → Instr} (w : Word) {op : Byte}
    (hf : ∀ w, (f w).operands = wordOperand w ∧ (f w).operandBytes = 2 ∧ (f w).opcode = some op)
    (hcell : ∀ b1 b2, decodeBytes op b1 b2 = f (joinBytes b2 b1)) : (f w).InRow op where
  reads := by rw [hcell, (hf w).1]; exact congrArg f (joinBytes_hi_lo w)
  opcode b1 b2 := by rw [hcell, (hf _).2.2]
  operands b1 b2 := by
    rw [operandCount, hcell, hcell, (hf _).1, (hf _).2.1, wordOperand_joinBytes]; rfl

theorem opcode_undefined_eq_some {b op : Byte} :
    (Instr.undefined b).opcode = some op ↔ b = op ∧ op ∈ undefinedOpcodes := by
  rw [Instr.opcode, Option.ite_none_right_eq_some, List.contains_iff_mem, Option.some_inj]
  constructor
  · rintro ⟨hmem, rfl⟩
    exact ⟨rfl, hmem⟩
  · rintro ⟨rfl, hmem⟩
    exact ⟨hmem, rfl⟩

/-- The bytes R78 lists are cells marked `--` in the map of R77. -/
theorem decodeBytes_undefined : ∀ op ∈ undefinedOpcodes, decodeBytes op = OpMap.und op :=
  List.map_inj_left.mp rfl

/-- The encoder has an opcode for exactly the instructions of the machine. -/
theorem isSome_opcode (i : Instr) : i.opcode.isSome = i.wellFormed := by
  cases i with
  | lda src | ldx src | ldy src | ora src | and src | eor src | adc src | sbc src | cmp src | cpx src | cpy src =>
    cases src with
    | imm b => rfl
    | mem m => cases m <;> rfl
  | asl d | lsr d | rol d | ror d =>
    cases d with
    | acc => rfl
    | mem m => cases m <;> rfl
  | sta m | stx m | sty m | bit m | inc m | dec m => cases m <;> rfl
  | jmp target => cases target <;> rfl
  | undefined b => rw [Instr.opcode, Instr.wellFormed]; cases undefinedOpcodes.contains b <;> rfl
  | _ => rfl

/-- The opcode the encoder's tables give an instruction is the row of the map that reads it. -/
theorem inRow_of_opcode {i : Instr} {op : Byte} (h : i.opcode = some op) : i.InRow op := by
  cases i with
  | lda src | ldx src | ldy src | ora src | and src | eor src | adc src | sbc src | cmp src | cpx src | cpy src =>
    cases src with
    | imm b => cases h; exact ⟨rfl, fun _ _ => rfl, fun _ _ => rfl⟩
    | mem m =>
      apply inRow_mem m
      · exact fun _ => ⟨rfl, rfl⟩
      · cases m <;> cases h <;> exact ⟨rfl, fun _ _ => rfl⟩
  | asl d | lsr d | rol d | ror d =>
    cases d with
    | acc => cases h; exact ⟨rfl, fun _ _ => rfl, fun _ _ => rfl⟩
    | mem m =>
      apply inRow_mem m
      · exact fun _ => ⟨rfl, rfl⟩
      · cases m <;> cases h <;> exact ⟨rfl, fun _ _ => rfl⟩
  | sta m | stx m | sty m | bit m | inc m | dec m =>
    apply inRow_mem m
    · exact fun _ => ⟨rfl, rfl⟩
    · cases m <;> cases h <;> exact ⟨rfl, fun _ _ => rfl⟩
  | jmp target =>
    cases target with
    | abs w =>
      cases h
      exact inRow_word (f := (.jmp <| .abs ·)) w (fun _ => ⟨rfl, rfl, rfl⟩) fun _ _ => rfl
    | ind w =>
      cases h
      exact inRow_word (f := (.jmp <| .ind ·)) w (fun _ => ⟨rfl, rfl, rfl⟩) fun _ _ => rfl
  | jsr w => cases h; exact inRow_word w (fun _ => ⟨rfl, rfl, rfl⟩) fun _ _ => rfl
  | undefined b =>
    obtain ⟨rfl, hmem⟩ := opcode_undefined_eq_some.mp h
    have hcell := decodeBytes_undefined b hmem
    exact ⟨by rw [hcell]; rfl, fun _ _ => by rw [hcell]; exact h, fun _ _ => by rw [operandCount, hcell]; rfl⟩
  | _ => cases h; exact ⟨rfl, fun _ _ => rfl, fun _ _ => rfl⟩

/-- Every cell of the map holds a form whose table has that cell's opcode: the 256 cells, each at operand bytes 0. -/
theorem opcode_decodeBytes_zero : ∀ op : Byte, (decodeBytes op 0 0).opcode = some op := by
  decide +kernel

theorem decodeBytes_zero_inRow (op : Byte) : (decodeBytes op 0 0).InRow op :=
  inRow_of_opcode (opcode_decodeBytes_zero op)

theorem opcode_decodeBytes (op b1 b2 : Byte) : (decodeBytes op b1 b2).opcode = some op :=
  (decodeBytes_zero_inRow op).opcode b1 b2

theorem operands_decodeBytes (op b1 b2 : Byte) :
    (decodeBytes op b1 b2).operands = [b1, b2].take (operandCount op) :=
  (decodeBytes_zero_inRow op).operands b1 b2

/-! ### Lengths (rule R61) -/

theorem operandBytes_of_opcode {i : Instr} {op : Byte} (h : i.opcode = some op) : i.operandBytes = operandCount op := by
  rw [← (inRow_of_opcode h).reads, (decodeBytes_uniform op _ _).1]

theorem operands_length_of_opcode {i : Instr} {op : Byte} (h : i.opcode = some op) :
    i.operands.length = operandCount op := by
  have hle := operandCount_le op
  rw [← (inRow_of_opcode h).reads, operands_decodeBytes, List.length_take]
  exact Nat.min_eq_left hle

/-! ### The decoder and the encoder -/

/-- The decoder reads an opcode byte with the operand bytes it asks for, and leaves what follows. -/
theorem decode_append {op : Byte} {bs : List Byte} (h : bs.length = operandCount op) (rest : List Byte) :
    decode (op :: (bs ++ rest)) = .ok (decodeBytes op (bs.getD 0 0) (bs.getD 1 0), rest) := by
  have hle := operandCount_le op
  match bs, h with
  | [], h => simp [decode, ← h]
  | [b1], h => simp [decode, ← h]
  | [b1, b2], h => simp [decode, ← h]
  | _ :: _ :: _ :: _, h =>
    simp only [List.length_cons] at h
    omega

/-- Inversion of the decoder: what it accepts is an opcode byte and the operand bytes of its row, then the rest. -/
theorem decode_eq_ok {bs rest : List Byte} {i : Instr} (h : decode bs = .ok (i, rest)) :
    ∃ op b1 b2, i = decodeBytes op b1 b2 ∧ bs = op :: ([b1, b2].take (operandCount op) ++ rest) := by
  unfold decode at h
  split at h
  · cases h
  · split at h
    next hcount => cases h; exact ⟨_, 0, 0, rfl, by rw [hcount]; rfl⟩
    next b1 _ hcount => cases h; exact ⟨_, b1, 0, rfl, by rw [hcount]; rfl⟩
    next b1 b2 _ hcount => cases h; exact ⟨_, b1, b2, rfl, by rw [hcount]; rfl⟩
    next => cases h

theorem encode_eq_some {i : Instr} {bs : List Byte} :
    encode i = some bs ↔ ∃ op, i.opcode = some op ∧ op :: i.operands = bs :=
  Option.map_eq_some_iff

theorem encode_length {i : Instr} {bs : List Byte} (h : encode i = some bs) : bs.length = i.length := by
  obtain ⟨op, hop, rfl⟩ := encode_eq_some.mp h
  rw [List.length_cons, operands_length_of_opcode hop, Instr.length, operandBytes_of_opcode hop, Nat.add_comm]

theorem decode_encode {i : Instr} {bs : List Byte} (h : encode i = some bs) (rest : List Byte) :
    decode (bs ++ rest) = .ok (i, rest) := by
  obtain ⟨op, hop, rfl⟩ := encode_eq_some.mp h
  rw [List.cons_append, decode_append (operands_length_of_opcode hop), (inRow_of_opcode hop).reads]

theorem encode_decodeBytes (op b1 b2 : Byte) :
    encode (decodeBytes op b1 b2) = some (op :: [b1, b2].take (operandCount op)) :=
  encode_eq_some.mpr ⟨op, opcode_decodeBytes op b1 b2, by rw [operands_decodeBytes]⟩

/-- Settles O1: a well-formed instruction has an opcode (`isSome_opcode`), and that opcode's row reads it back
(`inRow_of_opcode`, through `decode_encode`). -/
theorem decodeOfEncodeIsTheInstruction : Obligations.DecodeOfEncodeIsTheInstruction := by
  intro i hwf
  obtain ⟨op, hop⟩ := Option.isSome_iff_exists.mp ((isSome_opcode i).trans hwf)
  have henc : encode i = some (op :: i.operands) := encode_eq_some.mpr ⟨op, hop, rfl⟩
  exact ⟨_, henc, encode_length henc, decode_encode henc⟩

/-- Settles O2: the bytes accepted are those of a row (`decode_eq_ok`), which the encoder gives back. -/
theorem encodeOfDecodeIsTheBytes : Obligations.EncodeOfDecodeIsTheBytes := by
  intro bs rest i hdec
  have hwf := decode_wellFormed hdec
  obtain ⟨op, b1, b2, rfl, rfl⟩ := decode_eq_ok hdec
  exact ⟨hwf, _, encode_decodeBytes op b1 b2, rfl⟩

/-- Settles O4: the list of R78 rises, so its bytes differ; its rows are the undefined cells, and an instruction read at
`op` has the opcode `op`, which for an undefined one is in the list. -/
theorem undefinedOpcodesAreThe105 : Obligations.UndefinedOpcodesAreThe105 := by
  have hrising : undefinedOpcodes.IsChain (· < ·) := by decide +kernel
  refine ⟨rfl, hrising.pairwise.imp BitVec.ne_of_lt, by decide +kernel, ?_⟩
  intro op bs i rest hdec
  obtain ⟨op', b1, b2, rfl, hbytes⟩ := decode_eq_ok hdec
  obtain ⟨rfl, rfl⟩ := List.cons.inj hbytes
  have hundefined : op ∈ undefinedOpcodes → decodeBytes op b1 b2 = .undefined op := fun hmem => by
    rw [decodeBytes_undefined op hmem]; rfl
  refine ⟨⟨?_, fun hmem => ⟨op, hundefined hmem⟩⟩, fun hmem => ⟨hundefined hmem, ?_⟩⟩
  · rintro ⟨b, hb⟩
    have hop := opcode_decodeBytes op b1 b2
    rw [hb] at hop
    exact (opcode_undefined_eq_some.mp hop).2
  · have hcount : operandCount op = 0 := by rw [operandCount, decodeBytes_undefined op hmem]; rfl
    rw [hcount]
    rfl

/-- Settles O3: each of the ten words is read by evaluation. -/
theorem writtenOutWordsDecode : Obligations.WrittenOutWordsDecode :=
  ⟨rfl, rfl, rfl, rfl, rfl, rfl, rfl, rfl, rfl, rfl⟩

end Sys2Proof

/-! ## One instruction of a step (30_encoding.md, 49_system_clock.md), addressing and JMP -/

namespace Sys2Proof.Machine

/-! ### The fetch and the step (rules R59 to R61, R180) -/

section
variable {s : State}

/-- With nothing to service, a CPU step is one instruction (rule R60). -/
theorem cpuStep_instruction (hhalted : s.cpu.halted = false) (hnmi : s.cpu.nmiPending = false)
    (hirq : ¬ (s.irqLine = true ∧ flagI s.cpu.p = false)) : cpuStep s = instructionStep s := by
  have htaken : irqTaken s = false := by
    rw [irqTaken, Bool.and_eq_false_imp]
    intro hline
    rw [Bool.not_eq_false', Bool.eq_true_of_not_eq_false fun hi => hirq ⟨hline, hi⟩]
  rw [cpuStep, hhalted, hnmi, htaken]
  rfl

/-- The fetch is one run of bytes, as many as the first of them asks for. -/
theorem fetchInstr_eq (s : State) : fetchInstr s = fetchBytes (operandCount (fetchByte s).1 + 1) s := rfl

/-- The bytes of an instruction at `PC`, none of them a port, are what the fetch reads; it moves `PC` past them and has
no other effect (rules R59, R61). -/
theorem fetchInstr_storage {op : Byte} {operands : List Byte} (hcount : operands.length = operandCount op)
    (hbytes : ∀ (k : Nat) (h : k < (op :: operands).length),
      isPort s.params (s.cpu.pc + BitVec.ofNat 16 k) = false ∧
        peek (s.cpu.pc + BitVec.ofNat 16 k) s = (op :: operands)[k]) :
    fetchInstr s = (op :: operands, s.setPc (s.cpu.pc + BitVec.ofNat 16 (op :: operands).length)) := by
  have hfetch : fetchBytes (op :: operands).length s =
      (op :: operands, s.setPc (s.cpu.pc + BitVec.ofNat 16 (op :: operands).length)) := by
    rw [fetchBytes_storage _ fun k h => (hbytes k h).1]
    refine Prod.ext (List.ext_getElem (by simp) fun k h _ => ?_) rfl
    simp only [List.getElem_map, List.getElem_range]
    exact (hbytes k _).2
  have hop : (fetchByte s).1 = op := (List.cons.inj (congrArg Prod.fst hfetch)).1
  rw [fetchInstr_eq, hop, ← hcount]
  exact hfetch

end

/-- Settles O5: with nothing to service the CPU step is that instruction, and `step_cases` adds the dots. -/
theorem stepRunsTheDecodedInstruction : Obligations.StepRunsTheDecodedInstruction := by
  intro s t i rest hmapper hhalted hnmi hirq hdec hexec
  obtain ⟨u, hcpu, -, -, -, hstep⟩ := step_cases hmapper
  rw [cpuStep_instruction (s := { s with pixels := [] }) hhalted hnmi hirq, instructionStep_eq hdec, hexec] at hcpu
  cases hcpu
  exact hstep

/-- Settles O6: the fetch reads the encoded bytes without a side effect, they decode to the instruction, and O5 does the
rest. -/
theorem stepRunsTheInstructionAtPc : Obligations.StepRunsTheInstructionAtPc := by
  intro s t i bs hmapper hhalted hnmi hirq henc hbytes hexec
  rw [← encode_length henc] at hexec
  have hdec := decode_encode henc []
  obtain ⟨op, hop, rfl⟩ := encode_eq_some.mp henc
  have hfetch := fetchInstr_storage (s := { s with pixels := [] }) (operands_length_of_opcode hop) fun k hk => by
    obtain ⟨hport, hpeek⟩ := hbytes k hk
    exact ⟨hport, (peek_congr (s := s) (t := { s with pixels := [] }) rfl rfl rfl rfl hport).trans hpeek⟩
  refine stepRunsTheDecodedInstruction s t i [] hmapper hhalted hnmi hirq ?_ ?_
  · rw [hfetch, ← List.append_nil (op :: i.operands)]
    exact hdec
  · rw [hfetch]
    exact hexec

/-! ### Effective addresses and cycle counts (rules R66 to R76, R207) -/

theorem indexed_addr_toNat (base : Word) (index : Byte) (s : State) :
    (indexed base index s).addr.toNat = (base.toNat + index.toNat) % 65536 := by
  rw [indexed, BitVec.toNat_add, zext16_toNat]

/-- The word at a zero-page pointer, whose second byte wraps inside page 0 (rules R73, R74). -/
def zeroPageWord (p : Byte) (s : State) : Word := joinBytes (peek (zext16 (p + 1)) s) (peek (zext16 p) s)

theorem readPair_pointer (p : Byte) (s : State) :
    readPair (zext16 p) (zext16 (p + 1)) s = (zeroPageWord p s, s) := by
  simp only [readPair_zeroPage, zeroPageWord, peek, memRead_zext16]

theorem resolve_izx (b : Byte) (s : State) :
    resolve (.izx b) s = ⟨zeroPageWord (b + s.cpu.x) s, false, s⟩ := by
  simp only [resolve, readPair_pointer]

theorem resolve_izy (b : Byte) (s : State) :
    resolve (.izy b) s = indexed (zeroPageWord b s) s.cpu.y s := by
  simp only [resolve, readPair_pointer]

theorem zeroPageWord_toNat (p : Byte) (s : State) :
    (zeroPageWord p s).toNat = (peek (BitVec.ofNat 16 p.toNat) s).toNat +
      256 * (peek (BitVec.ofNat 16 ((p.toNat + 1) % 256)) s).toNat := by
  have hnext : zext16 (p + 1) = BitVec.ofNat 16 ((p.toNat + 1) % 256) := by
    rw [zext16, ← BitVec.ofNat_toNat, BitVec.toNat_add]; rfl
  rw [zeroPageWord, joinBytes_toNat, hnext, zext16, ← BitVec.ofNat_toNat, Nat.add_comm]

theorem loByte_zeroPageWord (p : Byte) (s : State) : loByte (zeroPageWord p s) = peek (zext16 p) s :=
  loByte_joinBytes _ _

/-- Settles O37: the sums of bytes wrap in page 0, the pointers are `zeroPageWord`, and the three indexed modes share
`indexed`. -/
theorem effectiveAddresses : Obligations.EffectiveAddresses := by
  intro b w s word px ptrX ptrY
  have hpx : (b + s.cpu.x).toNat = px := BitVec.toNat_add b s.cpu.x
  have hpy : (b + s.cpu.y).toNat = (b.toNat + s.cpu.y.toNat) % 256 := BitVec.toNat_add b s.cpu.y
  have hptrX : (zeroPageWord (b + s.cpu.x) s).toNat = ptrX := by rw [zeroPageWord_toNat, hpx]
  have hptrY : (zeroPageWord b s).toNat = ptrY := zeroPageWord_toNat b s
  have hindexed : ∀ (base : Word) (index : Byte),
      (indexed base index s).addr.toNat = (base.toNat + index.toNat) % 65536 ∧
        (indexed base index s).crossed = decide (256 ≤ base.toNat % 256 + index.toNat) := fun base index =>
    ⟨indexed_addr_toNat base index s, by rw [indexed_crossed, loByte_toNat]⟩
  refine ⟨fun m => resolve_st m s, ⟨zext16_toNat b, rfl⟩, ⟨(zext16_toNat _).trans hpx, rfl⟩,
    ⟨(zext16_toNat _).trans hpy, rfl⟩, ⟨rfl, rfl⟩, hindexed w s.cpu.x, hindexed w s.cpu.y, ?izx, ?izy⟩
  case izx => rw [resolve_izx]; exact ⟨hptrX, rfl⟩
  case izy => rw [resolve_izy, ← hptrY]; exact hindexed _ _

/-- One more cycle when a page is crossed. -/
theorem add_bit_decide (k n : Nat) : k + bit (decide (256 ≤ n)) = if 256 ≤ n then k + 1 else k := by
  by_cases h : 256 ≤ n <;> simp [bit, h]

/-- Settles O38: the modes without a penalty by evaluation, the three indexed reads by their page crossing. -/
theorem cycleCountsByMode : Obligations.CycleCountsByMode := by
  intro b w s n
  refine ⟨⟨rfl, rfl, rfl, rfl, rfl, rfl⟩, ?abx, ?aby, ?izy, ⟨rfl, rfl, rfl, rfl, rfl, rfl, rfl, rfl⟩,
    ⟨rfl, rfl, rfl, rfl⟩⟩
  case abx =>
    rintro rfl
    rw [operandCycles, resolve, readCycles, indexed_crossed, add_bit_decide, loByte_toNat]
  case aby =>
    rintro rfl
    rw [operandCycles, resolve, readCycles, indexed_crossed, add_bit_decide, loByte_toNat]
  case izy =>
    rintro rfl
    rw [operandCycles, resolve_izy, readCycles, indexed_crossed, add_bit_decide, loByte_zeroPageWord]

/-! ### JMP (rules R69, R72, R123) -/

theorem StorageKept.trans {s t u : State} (hst : StorageKept s t) (htu : StorageKept t u) : StorageKept s u where
  cpu a h := (htu.cpu a (by rwa [hst.params])).trans (hst.cpu a h)
  ppu a := (htu.ppu a).trans (hst.ppu a)
  oam k := (htu.oam k).trans (hst.oam k)
  prg := htu.prg.trans hst.prg
  params := htu.params.trans hst.params
  irqLine := htu.irqLine.trans hst.irqLine
  pixels := htu.pixels.trans hst.pixels

/-- The CPU's registers and the cycle count are no storage. -/
theorem storageKept_cpu (s : State) (c : Cpu) (n : Nat) : StorageKept s { s with cpu := c, cycles := n } where
  cpu _ h := peek_congr (s := s) (t := { s with cpu := c, cycles := n }) rfl rfl rfl rfl h
  ppu := ppuRead_congr rfl rfl rfl rfl
  oam _ := rfl
  prg := rfl
  params := rfl
  irqLine := rfl
  pixels := rfl

/-- The next address in the same page: only the low byte counts up (rule R72). -/
theorem joinBytes_succ_low (w : Word) :
    joinBytes (hiByte w) (loByte w + 1) = BitVec.ofNat 16 (256 * (w.toNat / 256) + (w.toNat + 1) % 256) := by
  have hw := w.isLt
  apply BitVec.eq_of_toNat_eq
  have hone : (1 : Byte).toNat = 1 := rfl
  rw [joinBytes_toNat, hiByte_toNat, BitVec.toNat_add, loByte_toNat, hone, BitVec.toNat_ofNat]
  omega

/-- JMP indirect reads the pointer's low byte, then its high byte on the state the first read left. -/
theorem exec_jmp_ind (w : Word) (s : State) :
    let high := joinBytes (hiByte w) (loByte w + 1)
    exec (.jmp (.ind w)) s = .next { (memRead high (memRead w s).2).2 with
      cpu := { s.cpu with pc := joinBytes (peek high (memRead w s).2) (peek w s) }, cycles := 5 } := by
  intro high
  show Host.Outcome.next (((memRead high (memRead w s).2).2.setCycles 5).setPc _) = _
  rw [State.setPc, State.setCycles_cpu, memRead_cpu, memRead_cpu]
  rfl

/-- Settles O32: two bus reads keep the storage, and the second is at the address of `joinBytes_succ_low`. -/
theorem jmpSetsThePc : Obligations.JmpSetsThePc := by
  refine ⟨fun w => ⟨rfl, rfl⟩, fun w s => ⟨rfl, _, exec_jmp_ind w s, rfl, ?_, ?_⟩⟩
  · exact ((memRead_storageKept _ _).trans (memRead_storageKept _ _)).trans (storageKept_cpu _ _ _)
  · rw [joinBytes_succ_low]
    exact ⟨rfl, rfl⟩

end Sys2Proof.Machine

/-! ## Loads, stores, transfers (40_load_store_transfer.md) and the counts of X and Y (rules R118 to R121) -/

namespace Sys2Proof.Machine

/-! ### N and Z (rule R11) -/

/-- `withNZ` writes the bits of N and Z, which are 7 and 1, and no other (`withNZ_getLsbD`). -/
theorem setsNZ_withNZ (r p : Byte) : SetsNZ r p (withNZ r p) := by
  refine ⟨?_, ?_, fun i hi => ?_⟩
  · rw [flagZ, withNZ_getLsbD, if_neg (by decide), if_pos rfl, beq_eq_decide]
  · rw [flagN, withNZ_getLsbD, if_pos rfl]
  · obtain ⟨hn, hz⟩ : i ≠ 7 ∧ i ≠ 1 := by simpa using hi
    rw [withNZ_getLsbD, if_neg hn, if_neg hz]

/-! ### Loads (rules R84 to R86) -/

/-- An instruction with the opcode table and the operand bytes of the eight accumulator modes has their encodings. -/
theorem accumulatorTable_of_opcode {f : Src → Instr} {im zp zpx ab abx aby izx izy : Byte}
    (hop : ∀ src, (f src).opcode = accumulatorOpcode im zp zpx ab abx aby izx izy src)
    (hoperands : ∀ src, (f src).operands = src.operands) : AccumulatorTable f im zp zpx ab abx aby izx izy := by
  have hencode (src : Src) :
      encode (f src) = (accumulatorOpcode im zp zpx ab abx aby izx izy src).map (· :: src.operands) := by
    rw [encode, hop, hoperands]
  constructor <;> exact fun _ => hencode _

/-- The state after a read instruction that leaves the registers `c`: the PPU as the operand read leaves it, and the
cycle count (rule R83). -/
def State.afterRead (src : Src) (s : State) (c : Cpu) : State :=
  { (s.setPpu (ppuAfterRead src s)).setCycles (operandCycles src s) with cpu := c }

theorem readSrc_afterRead (src : Src) (s : State) : readSrc src s = (operandByte src s, s.afterRead src s.cpu) :=
  readSrc_eq src s

theorem readFrame_afterRead (src : Src) (s : State) (c : Cpu) : ReadFrame src s (s.afterRead src c) :=
  readFrame_of src s c

theorem exec_lda (src : Src) (s : State) : exec (.lda src) s = .next (s.afterRead src
    { s.cpu with a := operandByte src s, p := withNZ (operandByte src s) s.cpu.p }) := by
  rw [exec, execLda, readSrc_afterRead]
  rfl

theorem exec_ldx (src : Src) (s : State) : exec (.ldx src) s = .next (s.afterRead src
    { s.cpu with x := operandByte src s, p := withNZ (operandByte src s) s.cpu.p }) := by
  rw [exec, execLdx, readSrc_afterRead]
  rfl

theorem exec_ldy (src : Src) (s : State) : exec (.ldy src) s = .next (s.afterRead src
    { s.cpu with y := operandByte src s, p := withNZ (operandByte src s) s.cpu.p }) := by
  rw [exec, execLdy, readSrc_afterRead]
  rfl

/-- Settles O21: the three tables by evaluation; each load leaves `afterRead` with the register and the flags written,
whose frame is the operand read's. -/
theorem loadsPutTheOperandInTheRegister : Obligations.LoadsPutTheOperandInTheRegister := by
  refine ⟨accumulatorTable_of_opcode (fun _ => rfl) (fun _ => rfl), fun n w => ⟨rfl, rfl, rfl, rfl, rfl⟩,
    fun n w => ⟨rfl, rfl, rfl, rfl, rfl⟩, fun src s => ⟨?lda, ?ldx, ?ldy⟩⟩
  case lda => exact ⟨_, exec_lda src s, rfl, setsNZ_withNZ _ _, readFrame_afterRead src s _⟩
  case ldx => exact ⟨_, exec_ldx src s, rfl, setsNZ_withNZ _ _, readFrame_afterRead src s _⟩
  case ldy => exact ⟨_, exec_ldy src s, rfl, setsNZ_withNZ _ _, readFrame_afterRead src s _⟩

/-! ### Stores (rules R87 to R89) -/

/-- No byte that the CPU reads depends on the CPU's registers or the cycle count, at a port either. -/
theorem peek_cpu (a : Word) (s : State) (c : Cpu) (n : Nat) : peek a { s with cpu := c, cycles := n } = peek a s := by
  unfold peek memRead
  dsimp only
  cases cpuCell s.params a with
  | port k =>
    dsimp only
    unfold portRead
    split <;> rfl
  | _ => rfl

/-- What a write left of storage stays so when the CPU's registers and the cycle count change. -/
theorem StoredAt.cpu {ea : Word} {v : Byte} {s t : State} (h : StoredAt ea v s t) (c : Cpu) (n : Nat) :
    StoredAt ea v s { t with cpu := c, cycles := n } where
  others a hport hne := (peek_cpu a t c n).trans (h.others a hport hne)
  stored hw a hcell := (peek_cpu a t c n).trans (h.stored hw a hcell)
  readOnly hw a hport := (peek_cpu a t c n).trans (h.readOnly hw a hport)
  noPort := h.noPort
  port := h.port
  prg := h.prg
  params := h.params
  irqLine := h.irqLine
  pixels := h.pixels

/-- A store is one write at the effective address: finding the address changes nothing, and `ea` is not read (R83). -/
theorem store_storedAt {s : State} (hs : s.StorageLegal) (m : Addr) (v : Byte) :
    StoredAt (resolve m s).addr v s (store m v s) := by
  rw [store_eq]
  exact (memWrite_storedAt hs.ram.wf hs.prgRam.wf _ v).cpu _ _

@[simp] theorem store_cpu (m : Addr) (v : Byte) (s : State) : (store m v s).cpu = s.cpu := by simp [store_eq]

@[simp] theorem store_cycles_eq (m : Addr) (v : Byte) (s : State) : (store m v s).cycles = writeCycles m := rfl

/-- Settles O22: the tables by evaluation; each store is `store` of its register. -/
theorem storesWriteTheRegister : Obligations.StoresWriteTheRegister := by
  refine ⟨fun n w => ⟨rfl, rfl, rfl, rfl, rfl, rfl, rfl⟩, fun n w => ⟨rfl, rfl, rfl⟩, fun n w => ⟨rfl, rfl, rfl⟩,
    fun m s hs => ?_⟩
  have hstore (v : Byte) : StoredAt (resolve m s).addr v s (store m v s) ∧ (store m v s).cpu = s.cpu ∧
      (store m v s).cycles = writeCycles m :=
    ⟨store_storedAt hs m v, store_cpu m v s, store_cycles_eq m v s⟩
  exact ⟨⟨_, rfl, hstore s.cpu.a⟩, ⟨_, rfl, hstore s.cpu.x⟩, ⟨_, rfl, hstore s.cpu.y⟩⟩

/-! ### Transfers and counts (rules R90 to R95, R118 to R121) -/

/-- The registers of `c` with N and Z from `r`, in 2 cycles: what a transfer or count leaves, whose frame is the rest of
the state. -/
theorem registerResult_withNZ (s : State) (c : Cpu) (r : Byte) :
    RegisterResult s { s with cpu := { c with p := withNZ r s.cpu.p }, cycles := 2 } c r where
  only := rfl
  cpu := rfl
  flags := setsNZ_withNZ r s.cpu.p
  cycles := rfl

theorem toNat_add_one (b : Byte) : (b + 1).toNat = (b.toNat + 1) % 256 := BitVec.toNat_add b 1

theorem toNat_sub_one (b : Byte) : (b - 1).toNat = (b.toNat + 255) % 256 := by
  rw [BitVec.toNat_sub, Nat.add_comm]
  rfl

/-- Settles O23: each but TXS writes one register and `withNZ` of its value (`registerResult_withNZ`); a count is one
more, or 255 more, modulo 256. -/
theorem registerTransfersAndCounts : Obligations.RegisterTransfersAndCounts := by
  refine ⟨⟨rfl, rfl, rfl, rfl, rfl, rfl⟩, ⟨rfl, rfl, rfl, rfl⟩, fun s => ?_⟩
  refine ⟨?tax, ?tay, ?txa, ?tya, ?tsx, rfl, ?inx, ?iny, ?dex, ?dey⟩
  case tax => exact ⟨_, rfl, registerResult_withNZ s { s.cpu with x := s.cpu.a } s.cpu.a⟩
  case tay => exact ⟨_, rfl, registerResult_withNZ s { s.cpu with y := s.cpu.a } s.cpu.a⟩
  case txa => exact ⟨_, rfl, registerResult_withNZ s { s.cpu with a := s.cpu.x } s.cpu.x⟩
  case tya => exact ⟨_, rfl, registerResult_withNZ s { s.cpu with a := s.cpu.y } s.cpu.y⟩
  case tsx => exact ⟨_, rfl, registerResult_withNZ s { s.cpu with x := s.cpu.sp } s.cpu.sp⟩
  case inx => exact ⟨_, rfl, toNat_add_one _, registerResult_withNZ s { s.cpu with x := s.cpu.x + 1 } _⟩
  case iny => exact ⟨_, rfl, toNat_add_one _, registerResult_withNZ s { s.cpu with y := s.cpu.y + 1 } _⟩
  case dex => exact ⟨_, rfl, toNat_sub_one _, registerResult_withNZ s { s.cpu with x := s.cpu.x - 1 } _⟩
  case dey => exact ⟨_, rfl, toNat_sub_one _, registerResult_withNZ s { s.cpu with y := s.cpu.y - 1 } _⟩

end Sys2Proof.Machine

/-! ## Stack instructions (41_stack.md) -/

namespace Sys2Proof.Machine

/-! ### The status byte on the stack (rules R98, R100) -/

/-- A status byte has eight bits: only those can tell two of them apart. -/
theorem flagsKeptBut_of_lt {bits : List Nat} {p p' : Byte}
    (h : ∀ i < 8, i ∉ bits → p'.getLsbD i = p.getLsbD i) : FlagsKeptBut bits p p' := by
  intro i hi
  by_cases hlt : i < 8
  · exact h i hlt hi
  · rw [BitVec.getLsbD_of_ge p' i (by omega), BitVec.getLsbD_of_ge p i (by omega)]

theorem flagsKeptBut_pushedByProgram (p : Byte) : FlagsKeptBut [5, 4] p (pushedByProgram p) :=
  flagsKeptBut_of_lt fun i hlt hi => by
    have hbits : ¬ (i = 5 ∨ i = 4) := by simpa using hi
    rw [pushedByProgram_getLsbD p i hlt, decide_eq_false hbits, Bool.false_or]

theorem flagsKeptBut_pulledStatus (m p : Byte) : FlagsKeptBut [5, 4] m (pulledStatus m p) :=
  flagsKeptBut_of_lt fun i hlt hi => by
    have hbits : ¬ (i = 5 ∨ i = 4) := by simpa using hi
    rw [pulledStatus_getLsbD m p i hlt, if_neg hbits]

/-! ### One push, one pull (rule R96) -/

/-- Page 1 is internal RAM: the stack can be written. -/
theorem isWritable_stackAddr (q : Params) (sp : Byte) : isWritable q (stackAddr sp) = true := by
  rw [isWritable, cpuCell_stackAddr]

theorem push_cpu (v : Byte) (s : State) : (push v s).cpu = { s.cpu with sp := s.cpu.sp - 1 } := by rw [push_eq]

/-- A push is one bus write at the stack address; what else it changes, `SP`, is the CPU's. -/
theorem push_storedAt {s : State} (hs : s.StorageLegal) (v : Byte) (n : Nat) :
    StoredAt (stackAddr s.cpu.sp) v s ((push v s).setCycles n) :=
  (memWrite_storedAt hs.ram.wf hs.prgRam.wf _ v).cpu _ n

theorem peek_push {s : State} (hs : s.StorageLegal) (v : Byte) (n : Nat) :
    peek (stackAddr s.cpu.sp) ((push v s).setCycles n) = v :=
  (push_storedAt hs v n).stored (isWritable_stackAddr _ _) _ rfl

/-- A pull reads the byte above the stack pointer and moves the pointer to it; the read has no side effect. -/
theorem pull_eq_peek (s : State) :
    pull s = (peek (stackAddr (s.cpu.sp + 1)) s, s.setSp (s.cpu.sp + 1)) := by
  rw [pull_eq, peek, memRead_stackAddr]

/-! ### The four instructions (rules R97 to R100) -/

theorem exec_pla (s : State) : exec .pla s = .next
    { s with
      cpu := { s.cpu with
        sp := s.cpu.sp + 1, a := peek (stackAddr (s.cpu.sp + 1)) s
        p := withNZ (peek (stackAddr (s.cpu.sp + 1)) s) s.cpu.p }
      cycles := 4 } := by
  rw [exec, execPla, pull_eq_peek]
  rfl

theorem exec_plp (s : State) : exec .plp s = .next
    { s with
      cpu := { s.cpu with
        sp := s.cpu.sp + 1, p := pulledStatus (peek (stackAddr (s.cpu.sp + 1)) s) s.cpu.p }
      cycles := 4 } := by
  rw [exec, execPlp, pullStatus, pull_eq_peek]
  rfl

/-- Settles O19: each is one push (`push_storedAt`, `peek_push`), PHP's of `pushedByProgram`. -/
theorem pushesWriteTheStack : Obligations.PushesWriteTheStack := by
  refine ⟨rfl, rfl, fun s hs => ⟨?pha, ?php⟩⟩
  case pha => exact ⟨_, rfl, push_storedAt hs _ 3, peek_push hs _ 3, push_cpu _ s, rfl⟩
  case php =>
    refine ⟨_, pushedByProgram s.cpu.p, rfl, push_storedAt hs _ 3, peek_push hs _ 3, ?_, ?_,
      flagsKeptBut_pushedByProgram s.cpu.p, push_cpu _ s, rfl⟩
    · exact pushedByProgram_getLsbD s.cpu.p 5 (by decide)
    · exact pushedByProgram_getLsbD s.cpu.p 4 (by decide)

/-- Settles O20: one pull each (`exec_pla`, `exec_plp`), PLA with N and Z of the byte, PLP with `pulledStatus` of it. -/
theorem pullsReadTheStack : Obligations.PullsReadTheStack := by
  refine ⟨rfl, rfl, fun s => ⟨?pla, ?plp⟩⟩
  case pla => exact ⟨_, exec_pla s, rfl, rfl, rfl, setsNZ_withNZ _ s.cpu.p⟩
  case plp =>
    refine ⟨_, exec_plp s, rfl, rfl, rfl, flagsKeptBut_pulledStatus _ s.cpu.p, ?_, ?_⟩
    · exact pulledStatus_getLsbD _ s.cpu.p 5 (by decide)
    · exact pulledStatus_getLsbD _ s.cpu.p 4 (by decide)

end Sys2Proof.Machine

/-! ## Logic, arithmetic and compare (42_logic_arith_compare.md) -/

namespace Sys2Proof.Machine

/-! ### Logic (rules R102 to R104) -/

theorem exec_ora (src : Src) (s : State) : exec (.ora src) s = .next (s.afterRead src
    { s.cpu with a := s.cpu.a ||| operandByte src s, p := withNZ (s.cpu.a ||| operandByte src s) s.cpu.p }) := by
  rw [exec, execOra, readSrc_afterRead]
  rfl

theorem exec_and (src : Src) (s : State) : exec (.and src) s = .next (s.afterRead src
    { s.cpu with a := s.cpu.a &&& operandByte src s, p := withNZ (s.cpu.a &&& operandByte src s) s.cpu.p }) := by
  rw [exec, execAnd, readSrc_afterRead]
  rfl

theorem exec_eor (src : Src) (s : State) : exec (.eor src) s = .next (s.afterRead src
    { s.cpu with a := s.cpu.a ^^^ operandByte src s, p := withNZ (s.cpu.a ^^^ operandByte src s) s.cpu.p }) := by
  rw [exec, execEor, readSrc_afterRead]
  rfl

/-- Settles O24: the three tables by evaluation; each instruction leaves `afterRead` with `A` and `withNZ` of the result,
whose bits are those of the bitwise operation. -/
theorem logicInstructionsCombineBitwise : Obligations.LogicInstructionsCombineBitwise := by
  refine ⟨accumulatorTable_of_opcode (fun _ => rfl) (fun _ => rfl),
    accumulatorTable_of_opcode (fun _ => rfl) (fun _ => rfl),
    accumulatorTable_of_opcode (fun _ => rfl) (fun _ => rfl), fun src s => ⟨?ora, ?and, ?eor⟩⟩
  case ora =>
    exact ⟨_, exec_ora src s, rfl, fun _ => BitVec.getLsbD_or, setsNZ_withNZ _ _, readFrame_afterRead src s _⟩
  case and =>
    exact ⟨_, exec_and src s, rfl, fun _ => BitVec.getLsbD_and, setsNZ_withNZ _ _, readFrame_afterRead src s _⟩
  case eor =>
    exact ⟨_, exec_eor src s, rfl, fun _ => BitVec.getLsbD_xor, setsNZ_withNZ _ _, readFrame_afterRead src s _⟩

/-! ### The sign bit of a byte -/

theorem getLsbD_seven_eq_decide (b : Byte) : b.getLsbD 7 = decide (128 ≤ b.toNat) :=
  (BitVec.msb_eq_getLsbD_last b).symm.trans (BitVec.msb_eq_decide b)

/-- The mask `$80` of the rules tests bit 7. -/
theorem and_0x80_bne_zero (b : Byte) : (b &&& 0x80 != 0) = b.getLsbD 7 := by
  have hmask : b &&& 0x80 = if b.getLsbD 7 then 0x80 else 0 := BitVec.and_twoPow b 7
  rw [hmask]
  cases b.getLsbD 7 <;> rfl

/-- Two's complement: from 128 up a byte stands for the number 256 less. -/
theorem toInt_eq_ite_le (b : Byte) : b.toInt = if 128 ≤ b.toNat then (b.toNat : Int) - 256 else b.toNat := by
  rw [BitVec.toInt_eq_msb_cond, BitVec.msb_eq_decide]
  simp only [decide_eq_true_eq]
  rfl

/-! ### Addition and subtraction (rules R105, R106) -/

theorem toNat_addResult (a m : Byte) (c : Bool) : (addResult a m c).toNat = addSum a m c % 256 :=
  BitVec.toNat_ofNat _ 8

/-- V is set when both operands have the sign that the result has not. -/
theorem addOverflow_eq_signs (a m : Byte) (c : Bool) : addOverflow a m c =
    ((a.getLsbD 7 ^^ (addResult a m c).getLsbD 7) && (m.getLsbD 7 ^^ (addResult a m c).getLsbD 7)) := by
  rw [addOverflow, and_0x80_bne_zero, BitVec.getLsbD_and, BitVec.getLsbD_xor, BitVec.getLsbD_xor]

/-- V is set exactly when the signed sum is no signed byte. -/
theorem addOverflow_iff_toInt (a m : Byte) (c : Bool) : addOverflow a m c = true ↔
    a.toInt + m.toInt + (bit c : Int) < -128 ∨ 127 < a.toInt + m.toInt + (bit c : Int) := by
  have ha := a.isLt
  have hm := m.isLt
  have hc := bit_le_one c
  simp only [addOverflow_eq_signs, getLsbD_seven_eq_decide, toNat_addResult, addSum, toInt_eq_ite_le,
    Bool.and_eq_true, bne_iff_ne, ne_eq, decide_eq_decide]
  split <;> split <;> omega

theorem complement_eq_not (m : Byte) : complement m = ~~~m := BitVec.xor_allOnes

theorem toNat_complement (m : Byte) : (complement m).toNat = 255 - m.toNat := by
  rw [complement_eq_not, BitVec.toNat_not]

theorem toInt_complement (m : Byte) : (complement m).toInt = -1 - m.toInt := by
  have hm := m.isLt
  rw [toInt_eq_ite_le, toInt_eq_ite_le, toNat_complement]
  split <;> split <;> omega

/-- The sum that SBC forms is 256 more than the difference with borrow (rule R106). -/
theorem addSum_complement (a m : Byte) (c : Bool) :
    addSum a (complement m) c = 256 + a.toNat - m.toNat - if c then 0 else 1 := by
  have hm := m.isLt
  rw [addSum, toNat_complement, bit]
  split <;> omega

theorem addCarry_complement (a m : Byte) (c : Bool) :
    addCarry a (complement m) c = decide (m.toNat + (if c then 0 else 1) ≤ a.toNat) := by
  have hm := m.isLt
  rw [addCarry, addSum_complement, decide_eq_decide]
  split <;> omega

theorem addOverflow_complement_iff_toInt (a m : Byte) (c : Bool) : addOverflow a (complement m) c = true ↔
    a.toInt - m.toInt - ((if c then 0 else 1 : Nat) : Int) < -128 ∨
      127 < a.toInt - m.toInt - ((if c then 0 else 1 : Nat) : Int) := by
  have hborrow : a.toInt + (complement m).toInt + (bit c : Int) =
      a.toInt - m.toInt - ((if c then 0 else 1 : Nat) : Int) := by
    rw [toInt_complement, bit]
    split <;> omega
  rw [addOverflow_iff_toInt, hborrow]

/-- Adding the complement overflows when `A` has not the sign of `m`, nor of the result. -/
theorem addOverflow_complement (a m : Byte) (c : Bool) : addOverflow a (complement m) c =
    (((a ^^^ m) &&& (a ^^^ addResult a (complement m) c)) &&& 0x80 != 0) := by
  have hnot : (complement m).getLsbD 7 = !m.getLsbD 7 := by
    rw [complement_eq_not]
    exact BitVec.getLsbD_not
  have htable : ∀ x y r : Bool, ((x ^^ r) && (!y ^^ r)) = ((x ^^ y) && (x ^^ r)) := by decide
  rw [addOverflow_eq_signs, and_0x80_bne_zero, BitVec.getLsbD_and, BitVec.getLsbD_xor, BitVec.getLsbD_xor, hnot, htable]

theorem flagC_addFlags (a m p : Byte) : flagC (addFlags a m p) = addCarry a m (flagC p) :=
  addFlags_getLsbD a m p 0

theorem flagV_addFlags (a m p : Byte) : flagV (addFlags a m p) = addOverflow a m (flagC p) :=
  addFlags_getLsbD a m p 6

theorem flagZ_addFlags (a m p : Byte) : flagZ (addFlags a m p) = decide (addResult a m (flagC p) = 0) :=
  (addFlags_getLsbD a m p 1).trans (beq_eq_decide _ _)

theorem flagN_addFlags (a m p : Byte) : flagN (addFlags a m p) = (addResult a m (flagC p)).getLsbD 7 :=
  addFlags_getLsbD a m p 7

theorem flagsKeptBut_addFlags (a m p : Byte) : FlagsKeptBut [7, 6, 1, 0] p (addFlags a m p) := by
  intro i hi
  obtain ⟨hn, hv, hz, hc⟩ : i ≠ 7 ∧ i ≠ 6 ∧ i ≠ 1 ∧ i ≠ 0 := by simpa using hi
  rw [addFlags_getLsbD, if_neg hn, if_neg hz, if_neg hv, if_neg hc]

theorem exec_adc (src : Src) (s : State) : exec (.adc src) s = .next (s.afterRead src
    { s.cpu with
      a := addResult s.cpu.a (operandByte src s) (flagC s.cpu.p)
      p := addFlags s.cpu.a (operandByte src s) s.cpu.p }) := by
  rw [exec, execAdc, readSrc_afterRead]
  rfl

theorem exec_sbc (src : Src) (s : State) : exec (.sbc src) s = .next (s.afterRead src
    { s.cpu with
      a := addResult s.cpu.a (complement (operandByte src s)) (flagC s.cpu.p)
      p := addFlags s.cpu.a (complement (operandByte src s)) s.cpu.p }) := by
  rw [exec, execSbc, readSrc_afterRead]
  rfl

/-- Settles O25: the table by evaluation; the result and C are those of the sum, and V in both forms
(`addOverflow_iff_toInt`) is that of `addFlags`, which reads C alone of the old status. -/
theorem adcAddsWithCarry : Obligations.AdcAddsWithCarry := by
  refine ⟨accumulatorTable_of_opcode (fun _ => rfl) (fun _ => rfl), fun src s => ⟨_, exec_adc src s, rfl, ?_⟩⟩
  intro m c
  refine ⟨toNat_addResult _ _ _, flagC_addFlags _ _ _, flagV_addFlags _ _ _, ?signed, flagZ_addFlags _ _ _,
    flagN_addFlags _ _ _, flagsKeptBut_addFlags _ _ _, readFrame_afterRead src s _⟩
  case signed =>
    exact (Bool.eq_iff_iff.mp (flagV_addFlags _ _ _)).trans (addOverflow_iff_toInt s.cpu.a m (flagC s.cpu.p))

/-- Settles O26: SBC is ADC of the one's complement, whose sum, carry and overflow are those of the difference with borrow
(`addSum_complement`, `addCarry_complement`, `addOverflow_complement`). -/
theorem sbcSubtractsWithBorrow : Obligations.SbcSubtractsWithBorrow := by
  refine ⟨accumulatorTable_of_opcode (fun _ => rfl) (fun _ => rfl), fun src s => ⟨_, exec_sbc src s, rfl, ?_⟩⟩
  intro m b
  have hv := flagV_addFlags s.cpu.a (complement m) s.cpu.p
  refine ⟨?result, ?carry, hv.trans (addOverflow_complement _ _ _), ?signed, flagZ_addFlags _ _ _,
    flagN_addFlags _ _ _, flagsKeptBut_addFlags _ _ _, readFrame_afterRead src s _⟩
  case result => exact (toNat_addResult _ _ _).trans (congrArg (· % 256) (addSum_complement _ _ _))
  case carry => exact (flagC_addFlags _ _ _).trans (addCarry_complement _ _ _)
  case signed =>
    exact (Bool.eq_iff_iff.mp hv).trans (addOverflow_complement_iff_toInt s.cpu.a m (flagC s.cpu.p))

/-! ### Compare (rules R107 to R109) -/

theorem flagC_compareFlags (r m p : Byte) : flagC (compareFlags r m p) = decide (m.toNat ≤ r.toNat) :=
  compareFlags_getLsbD r m p 0

theorem flagZ_compareFlags (r m p : Byte) : flagZ (compareFlags r m p) = decide (r = m) :=
  (compareFlags_getLsbD r m p 1).trans (beq_eq_decide r m)

theorem flagN_compareFlags (r m p : Byte) :
    flagN (compareFlags r m p) = decide (128 ≤ (256 + r.toNat - m.toNat) % 256) := by
  have hm := m.isLt
  have hdiff : (r - m).toNat = (256 + r.toNat - m.toNat) % 256 := by
    rw [BitVec.toNat_sub]
    omega
  rw [← hdiff, ← getLsbD_seven_eq_decide]
  exact compareFlags_getLsbD r m p 7

theorem flagsKeptBut_compareFlags (r m p : Byte) : FlagsKeptBut [7, 1, 0] p (compareFlags r m p) := by
  intro i hi
  obtain ⟨hn, hz, hc⟩ : i ≠ 7 ∧ i ≠ 1 ∧ i ≠ 0 := by simpa using hi
  rw [compareFlags_getLsbD, if_neg hn, if_neg hz, if_neg hc]

theorem exec_cmp (src : Src) (s : State) : exec (.cmp src) s = .next (s.afterRead src
    { s.cpu with p := compareFlags s.cpu.a (operandByte src s) s.cpu.p }) := by
  rw [exec, execCmp, readSrc_afterRead]
  rfl

theorem exec_cpx (src : Src) (s : State) : exec (.cpx src) s = .next (s.afterRead src
    { s.cpu with p := compareFlags s.cpu.x (operandByte src s) s.cpu.p }) := by
  rw [exec, execCpx, readSrc_afterRead]
  rfl

theorem exec_cpy (src : Src) (s : State) : exec (.cpy src) s = .next (s.afterRead src
    { s.cpu with p := compareFlags s.cpu.y (operandByte src s) s.cpu.p }) := by
  rw [exec, execCpy, readSrc_afterRead]
  rfl

/-- Settles O27: the tables by evaluation; each instruction leaves `afterRead` with `compareFlags` of its register, whose
bits the argument `hflags` reads off for all three. -/
theorem comparesSetOnlyFlags : Obligations.ComparesSetOnlyFlags := by
  refine ⟨accumulatorTable_of_opcode (fun _ => rfl) (fun _ => rfl), ⟨fun _ => rfl, fun _ => rfl, fun _ => rfl⟩,
    ⟨fun _ => rfl, fun _ => rfl, fun _ => rfl⟩, fun src s => ?_⟩
  have hflags (r : Byte) : let p' := compareFlags r (operandByte src s) s.cpu.p
      flagC p' = decide ((operandByte src s).toNat ≤ r.toNat) ∧ flagZ p' = decide (r = operandByte src s) ∧
      flagN p' = decide (128 ≤ (256 + r.toNat - (operandByte src s).toNat) % 256) ∧
      FlagsKeptBut [7, 1, 0] s.cpu.p p' ∧ ReadFrame src s (s.afterRead src { s.cpu with p := p' }) :=
    ⟨flagC_compareFlags _ _ _, flagZ_compareFlags _ _ _, flagN_compareFlags _ _ _, flagsKeptBut_compareFlags _ _ _,
      readFrame_afterRead src s _⟩
  exact ⟨⟨_, exec_cmp src s, rfl, hflags s.cpu.a⟩, ⟨_, exec_cpx src s, rfl, hflags s.cpu.x⟩,
    ⟨_, exec_cpy src s, rfl, hflags s.cpu.y⟩⟩

/-! ### Bit test (rule R110) -/

theorem flagZ_bitFlags (a m p : Byte) :
    flagZ (bitFlags a m p) = true ↔ ∀ i, ¬ (a.getLsbD i = true ∧ m.getLsbD i = true) := by
  have hz : flagZ (bitFlags a m p) = ((a &&& m) == 0) := bitFlags_getLsbD a m p 1
  rw [hz, beq_iff_eq]
  calc a &&& m = 0 ↔ ∀ i, (a &&& m).getLsbD i = false := BitVec.zero_iff_eq_false
    _ ↔ _ := forall_congr' fun i => by rw [BitVec.getLsbD_and, ← Bool.and_eq_true, Bool.not_eq_true]

theorem flagN_bitFlags (a m p : Byte) : flagN (bitFlags a m p) = m.getLsbD 7 := bitFlags_getLsbD a m p 7

theorem flagV_bitFlags (a m p : Byte) : flagV (bitFlags a m p) = m.getLsbD 6 := bitFlags_getLsbD a m p 6

theorem flagsKeptBut_bitFlags (a m p : Byte) : FlagsKeptBut [7, 6, 1] p (bitFlags a m p) := by
  intro i hi
  obtain ⟨hn, hv, hz⟩ : i ≠ 7 ∧ i ≠ 6 ∧ i ≠ 1 := by simpa using hi
  rw [bitFlags_getLsbD, if_neg hv, if_neg hn, if_neg hz]

theorem exec_bit (m : Addr) (s : State) : exec (.bit m) s = .next (s.afterRead (.mem m)
    { s.cpu with p := bitFlags s.cpu.a (operandByte (.mem m) s) s.cpu.p }) := by
  rw [exec, execBit, readSrc_afterRead]
  rfl

/-- Settles O28: the table by evaluation; BIT leaves `afterRead` with `bitFlags`, and `A & m` is 0 when no bit is set in
both. -/
theorem bitTestsMemory : Obligations.BitTestsMemory :=
  ⟨fun _ _ => ⟨rfl, rfl⟩, fun m s => ⟨_, exec_bit m s, rfl, flagZ_bitFlags _ _ _, flagN_bitFlags _ _ _,
    flagV_bitFlags _ _ _, flagsKeptBut_bitFlags _ _ _, readFrame_afterRead (.mem m) s _⟩⟩

end Sys2Proof.Machine

/-! ## Shifts, rotates, INC and DEC (43_shift_rotate_incdec.md) -/

namespace Sys2Proof.Machine

/-! ### One read-modify-write (rules R83, R111) -/

/-- The state after a read-modify-write that leaves the byte `r` in memory and the status `p`: the read with its side
effect, the write at the same address, the cycle count. -/
def State.afterModify (m : Addr) (r p : Byte) (s : State) : State :=
  { memWrite (resolve m s).addr r (memRead (resolve m s).addr s).2 with
    cpu := { s.cpu with p := p }, cycles := modifyCycles m }

theorem modifyMem_afterModify (m : Addr) (f : Byte → Byte) (flags : Byte → Byte → Byte) (s : State) :
    modifyMem m f flags s =
      s.afterModify m (f (peek (resolve m s).addr s)) (flags (peek (resolve m s).addr s) s.cpu.p) := by
  rw [modifyMem_eq, State.setP, memWrite_cpu, memRead_cpu]
  rfl

/-- The write happens on the state that the read left, whose RAM arrays are those of `s`. -/
theorem modifiedAt_afterModify {s : State} (hs : s.StorageLegal) (m : Addr) (r p : Byte) :
    ModifiedAt (resolve m s).addr r s (s.afterModify m r p) where
  stored := (memWrite_storedAt (by rw [memRead_ram_kept]; exact hs.ram.wf)
    (by rw [memRead_prgRam]; exact hs.prgRam.wf) _ r).cpu _ _
  cpu := rfl

/-! ### C, N and Z of a shift -/

theorem flagC_shiftFlags (c : Bool) (r p : Byte) : flagC (shiftFlags c r p) = c := shiftFlags_getLsbD c r p 0

theorem flagZ_shiftFlags (c : Bool) (r p : Byte) : flagZ (shiftFlags c r p) = decide (r = 0) :=
  (shiftFlags_getLsbD c r p 1).trans (beq_eq_decide r 0)

theorem flagN_shiftFlags (c : Bool) (r p : Byte) : flagN (shiftFlags c r p) = r.getLsbD 7 :=
  shiftFlags_getLsbD c r p 7

theorem flagsKeptBut_shiftFlags (c : Bool) (r p : Byte) : FlagsKeptBut [7, 1, 0] p (shiftFlags c r p) := by
  intro i hi
  obtain ⟨hn, hz, hc⟩ : i ≠ 7 ∧ i ≠ 1 ∧ i ≠ 0 := by simpa using hi
  rw [shiftFlags_getLsbD, if_neg hn, if_neg hz, if_neg hc]

/-! ### The shared form of the four shifts and rotates (rules R112 to R115) -/

/-- A shift or rotate by `f` whose new carry is `carry` of the operand. -/
def shift (d : Dst) (f : Byte → Byte) (carry : Byte → Bool) (s : State) : State :=
  modify d f (fun m p => shiftFlags (carry m) (f m) p) s

theorem exec_asl (d : Dst) (s : State) : exec (.asl d) s = .next (shift d aslResult (·.getLsbD 7) s) := rfl

theorem exec_lsr (d : Dst) (s : State) : exec (.lsr d) s = .next (shift d lsrResult (·.getLsbD 0) s) := rfl

theorem exec_rol (d : Dst) (s : State) :
    exec (.rol d) s = .next (shift d (rolResult (flagC s.cpu.p)) (·.getLsbD 7) s) := rfl

theorem exec_ror (d : Dst) (s : State) :
    exec (.ror d) s = .next (shift d (rorResult (flagC s.cpu.p)) (·.getLsbD 0) s) := rfl

/-- A shift of the accumulator, where the result is the number `r`, its bit 7 is `n` and the new carry is `c`. -/
theorem shift_acc {f : Byte → Byte} {carry : Byte → Bool} {s : State} {r : Nat} {c n : Bool}
    (hr : (f s.cpu.a).toNat = r) (hc : carry s.cpu.a = c) (hn : (f s.cpu.a).getLsbD 7 = n) :
    let t := shift .acc f carry s
    OnlyCpu s t ∧ t.cpu = { s.cpu with a := t.cpu.a, p := t.cpu.p } ∧ t.cpu.a.toNat = r ∧ flagC t.cpu.p = c ∧
      flagZ t.cpu.p = decide (t.cpu.a = 0) ∧ flagN t.cpu.p = n ∧ FlagsKeptBut [7, 1, 0] s.cpu.p t.cpu.p ∧
      t.cycles = 2 :=
  ⟨rfl, rfl, hr, (flagC_shiftFlags _ _ _).trans hc, flagZ_shiftFlags _ _ _, (flagN_shiftFlags _ _ _).trans hn,
    flagsKeptBut_shiftFlags _ _ _, rfl⟩

/-- A shift of the byte at the effective address, with `r`, `n` and `c` as in `shift_acc`. -/
theorem shift_mem {f : Byte → Byte} {carry : Byte → Bool} {m : Addr} {s : State} (hs : s.StorageLegal) {r : Nat}
    {c n : Bool} (hr : (f (peek (resolve m s).addr s)).toNat = r) (hc : carry (peek (resolve m s).addr s) = c)
    (hn : (f (peek (resolve m s).addr s)).getLsbD 7 = n) :
    let t := shift (.mem m) f carry s
    ModifiedAt (resolve m s).addr (f (peek (resolve m s).addr s)) s t ∧ (f (peek (resolve m s).addr s)).toNat = r ∧
      flagC t.cpu.p = c ∧ flagZ t.cpu.p = decide (f (peek (resolve m s).addr s) = 0) ∧ flagN t.cpu.p = n ∧
      FlagsKeptBut [7, 1, 0] s.cpu.p t.cpu.p ∧ t.cycles = modifyCycles m := by
  rw [shift, modify, modifyMem_afterModify]
  exact ⟨modifiedAt_afterModify hs m _ _, hr, (flagC_shiftFlags _ _ _).trans hc, flagZ_shiftFlags _ _ _,
    (flagN_shiftFlags _ _ _).trans hn, flagsKeptBut_shiftFlags _ _ _, rfl⟩

/-- An instruction with the opcode table and the operand bytes of the shifts has their encodings. -/
theorem shiftTable_of_opcode {f : Dst → Instr} {acc zp zpx ab abx : Byte}
    (hop : ∀ d, (f d).opcode = shiftOpcode acc zp zpx ab abx d) (hoperands : ∀ d, (f d).operands = d.operands) :
    ShiftTable f acc zp zpx ab abx := by
  have hencode (d : Dst) : encode (f d) = (shiftOpcode acc zp zpx ab abx d).map (· :: d.operands) := by
    rw [encode, hop, hoperands]
  exact ⟨hencode _, fun _ => hencode _, fun _ => hencode _, fun _ => hencode _, fun _ => hencode _⟩

/-! ### ASL and ROL (rules R112, R114) -/

theorem toNat_aslResult (m : Byte) : (aslResult m).toNat = 2 * m.toNat % 256 := by
  rw [aslResult, BitVec.toNat_shiftLeft, Nat.shiftLeft_eq, Nat.mul_comm]

/-- The carry enters at bit 0, which the shift has emptied. -/
theorem rolResult_eq_shiftConcat (c : Bool) (m : Byte) : rolResult c m = m.shiftConcat c := by
  ext i
  cases i with
  | zero => simp [rolResult]
  | succ i => simp [rolResult]

theorem toNat_rolResult (c : Bool) (m : Byte) :
    (rolResult c m).toNat = (2 * m.toNat + if c then 1 else 0) % 256 := by
  rw [rolResult_eq_shiftConcat, BitVec.toNat_shiftConcat, Nat.shiftLeft_eq, Nat.mul_comm]
  cases c <;> rfl

/-- Settles O29: the tables by evaluation; both are `shift`, of the accumulator and of memory, with `toNat_aslResult` and
`toNat_rolResult` for the result and the operand's bit 7 for C. -/
theorem aslAndRolShiftLeft : Obligations.AslAndRolShiftLeft := by
  refine ⟨shiftTable_of_opcode (fun _ => rfl) (fun _ => rfl), shiftTable_of_opcode (fun _ => rfl) (fun _ => rfl),
    fun s => ⟨?aslAcc, ?rolAcc⟩, fun m s hs => ⟨?aslMem, ?rolMem⟩⟩
  case aslAcc => exact ⟨_, exec_asl .acc s, shift_acc (toNat_aslResult _) (getLsbD_seven_eq_decide _) rfl⟩
  case rolAcc => exact ⟨_, exec_rol .acc s, shift_acc (toNat_rolResult _ _) (getLsbD_seven_eq_decide _) rfl⟩
  case aslMem =>
    exact ⟨_, _, exec_asl (.mem m) s, shift_mem hs (toNat_aslResult _) (getLsbD_seven_eq_decide _) rfl⟩
  case rolMem =>
    exact ⟨_, _, exec_rol (.mem m) s, shift_mem hs (toNat_rolResult _ _) (getLsbD_seven_eq_decide _) rfl⟩

/-! ### LSR and ROR (rules R113, R115) -/

theorem getLsbD_zero_eq_decide (b : Byte) : b.getLsbD 0 = decide (b.toNat % 2 = 1) := Nat.testBit_zero b.toNat

theorem toNat_lsrResult (m : Byte) : (lsrResult m).toNat = m.toNat / 2 := by
  rw [lsrResult, BitVec.toNat_ushiftRight, Nat.shiftRight_eq_div_pow, Nat.pow_one]

theorem lsrResult_getLsbD_seven (m : Byte) : (lsrResult m).getLsbD 7 = false := by
  rw [lsrResult, BitVec.getLsbD_ushiftRight]
  exact BitVec.getLsbD_of_ge m 8 (by decide)

/-- The carry enters at bit 7, above the seven bits that the shift keeps. -/
theorem rorResult_eq_cons (c : Bool) (m : Byte) : rorResult c m = BitVec.cons c (m.extractLsb' 1 7) := by
  ext i hi
  by_cases h : i = 7
  · subst h
    simp [rorResult, BitVec.getElem_cons]
  · have hlt : i < 7 := by omega
    simp [rorResult, BitVec.getElem_cons, h, hlt]

theorem toNat_rorResult (c : Bool) (m : Byte) :
    (rorResult c m).toNat = m.toNat / 2 + 128 * if c then 1 else 0 := by
  have hm := m.isLt
  rw [rorResult_eq_cons, BitVec.toNat_cons', BitVec.extractLsb'_toNat, Nat.shiftRight_eq_div_pow, Nat.shiftLeft_eq,
    Nat.mod_eq_of_lt (by omega), Nat.add_comm, Nat.mul_comm]
  cases c <;> rfl

theorem rorResult_getLsbD_seven (c : Bool) (m : Byte) : (rorResult c m).getLsbD 7 = c := by
  rw [rorResult_eq_cons, BitVec.getLsbD_cons, if_pos rfl]

/-- Settles O30: the tables by evaluation; both are `shift`, of the accumulator and of memory, with `toNat_lsrResult` and
`toNat_rorResult` for the result and the operand's bit 0 for C; bit 7 of the result is 0, or the old carry. -/
theorem lsrAndRorShiftRight : Obligations.LsrAndRorShiftRight := by
  refine ⟨shiftTable_of_opcode (fun _ => rfl) (fun _ => rfl), shiftTable_of_opcode (fun _ => rfl) (fun _ => rfl),
    fun s => ⟨?lsrAcc, ?rorAcc⟩, fun m s hs => ⟨?lsrMem, ?rorMem⟩⟩
  case lsrAcc =>
    exact ⟨_, exec_lsr .acc s,
      shift_acc (toNat_lsrResult _) (getLsbD_zero_eq_decide _) (lsrResult_getLsbD_seven _)⟩
  case rorAcc =>
    exact ⟨_, exec_ror .acc s,
      shift_acc (toNat_rorResult _ _) (getLsbD_zero_eq_decide _) (rorResult_getLsbD_seven _ _)⟩
  case lsrMem =>
    exact ⟨_, _, exec_lsr (.mem m) s,
      shift_mem hs (toNat_lsrResult _) (getLsbD_zero_eq_decide _) (lsrResult_getLsbD_seven _)⟩
  case rorMem =>
    exact ⟨_, _, exec_ror (.mem m) s,
      shift_mem hs (toNat_rorResult _ _) (getLsbD_zero_eq_decide _) (rorResult_getLsbD_seven _ _)⟩

/-! ### INC and DEC (rules R116, R117) -/

/-- What INC and DEC share: `f` of the byte goes back to memory, N and Z from it. -/
theorem modifyMem_withNZ {s : State} (hs : s.StorageLegal) (m : Addr) (f : Byte → Byte) {r : Nat}
    (hr : (f (peek (resolve m s).addr s)).toNat = r) :
    let t := modifyMem m f (fun b p => withNZ (f b) p) s
    ModifiedAt (resolve m s).addr (f (peek (resolve m s).addr s)) s t ∧ (f (peek (resolve m s).addr s)).toNat = r ∧
      SetsNZ (f (peek (resolve m s).addr s)) s.cpu.p t.cpu.p ∧ t.cycles = modifyCycles m := by
  rw [modifyMem_afterModify]
  exact ⟨modifiedAt_afterModify hs m _ _, hr, setsNZ_withNZ _ _, rfl⟩

/-- Settles O31: the tables by evaluation; each is a read-modify-write with `withNZ` of the result (`modifyMem_withNZ`), one
more, or 255 more, modulo 256. -/
theorem incAndDecChangeMemoryByOne : Obligations.IncAndDecChangeMemoryByOne := by
  refine ⟨⟨fun _ => rfl, fun _ => rfl, fun _ => rfl, fun _ => rfl⟩,
    ⟨fun _ => rfl, fun _ => rfl, fun _ => rfl, fun _ => rfl⟩, fun m s hs => ⟨?inc, ?dec⟩⟩
  case inc => exact ⟨_, _, rfl, modifyMem_withNZ hs m (· + 1) (toNat_add_one _)⟩
  case dec => exact ⟨_, _, rfl, modifyMem_withNZ hs m (· - 1) (toNat_sub_one _)⟩

end Sys2Proof.Machine

/-! ## Subroutines and branches (44_jump_branch_subroutine.md) -/

namespace Sys2Proof.Machine

/-! ### A word on the stack (rule R96) -/

/-- Two stack pointers select the same byte of page 1 only when they are equal. -/
theorem cpuCell_stackAddr_inj {q : Params} {a b : Byte} :
    cpuCell q (stackAddr a) = cpuCell q (stackAddr b) ↔ a = b := by
  rw [cpuCell_stackAddr, cpuCell_stackAddr, CpuCell.ram.injEq, Nat.add_left_cancel_iff, BitVec.toNat_inj]

theorem isPort_stackAddr (q : Params) (sp : Byte) : isPort q (stackAddr sp) = false := by
  rw [isPort, cpuCell_stackAddr]

/-- A push is one bus write: it leaves `v` at the stack address, under every address that selects it. -/
theorem peek_push_eq_ite {s : State} (hs : s.StorageLegal) (v : Byte) {b : Word} (hb : isPort s.params b = false) :
    peek b (push v s) = if cpuCell s.params b = cpuCell s.params (stackAddr s.cpu.sp) then v else peek b s :=
  (peek_cpu b (memWrite (stackAddr s.cpu.sp) v s) _ _).trans (peek_memWrite hs (isWritable_stackAddr _ _) hb v)

/-- A pushed word: its low byte below its high byte, and every other byte as before. -/
theorem peek_pushWord {s : State} (hs : s.StorageLegal) (w : Word) {b : Word} (hb : isPort s.params b = false) :
    peek b (pushWord w s) =
      if cpuCell s.params b = cpuCell s.params (stackAddr (s.cpu.sp - 1)) then loByte w
      else if cpuCell s.params b = cpuCell s.params (stackAddr s.cpu.sp) then hiByte w else peek b s := by
  have hpushed : (push (hiByte w) s).StorageLegal := (push_keeps (hiByte w) s).storage hs
  have hparams : (push (hiByte w) s).params = s.params := (push_keeps (hiByte w) s).params
  rw [pushWord, peek_push_eq_ite hpushed _ (by rwa [hparams]), hparams, push_cpu, peek_push_eq_ite hs _ hb]

theorem peek_pushWord_low {s : State} (hs : s.StorageLegal) (w : Word) :
    peek (stackAddr (s.cpu.sp - 1)) (pushWord w s) = loByte w := by
  rw [peek_pushWord hs w (isPort_stackAddr _ _), if_pos rfl]

theorem peek_pushWord_high {s : State} (hs : s.StorageLegal) (w : Word) :
    peek (stackAddr s.cpu.sp) (pushWord w s) = hiByte w := by
  have hne : s.cpu.sp ≠ s.cpu.sp - 1 := by bv_omega
  rw [peek_pushWord hs w (isPort_stackAddr _ _), if_neg (mt cpuCell_stackAddr_inj.mp hne), if_pos rfl]

/-- A pulled word: its low byte just above the stack pointer, its high byte above that. -/
theorem pullWord_eq_peek (s : State) :
    pullWord s = (joinBytes (peek (stackAddr (s.cpu.sp + 2)) s) (peek (stackAddr (s.cpu.sp + 1)) s),
      s.setSp (s.cpu.sp + 2)) := by
  have htwo : s.cpu.sp + 1 + 1 = s.cpu.sp + 2 := BitVec.add_assoc _ _ _
  rw [pullWord_eq, htwo, peek, peek, memRead_stackAddr, memRead_stackAddr]

/-! ### JSR and RTS (rules R124, R125) -/

/-- The state after JSR: its last byte's address on the stack, `PC` at the target, 6 cycles. -/
def State.afterJsr (w : Word) (s : State) : State :=
  { pushWord (s.cpu.pc - 1) s with cpu := { s.cpu with pc := w, sp := s.cpu.sp - 2 }, cycles := 6 }

theorem exec_jsr (w : Word) (s : State) : exec (.jsr w) s = .next (s.afterJsr w) := by
  have htwo : s.cpu.sp - 1 - 1 = s.cpu.sp - 2 := by bv_omega
  rw [exec, execJsr, State.afterJsr, pushWord_eq, htwo]
  rfl

theorem peek_afterJsr (a w : Word) (s : State) : peek a (s.afterJsr w) = peek a (pushWord (s.cpu.pc - 1) s) :=
  peek_cpu a _ _ _

/-- JSR writes nothing but the CPU and RAM. -/
theorem afterJsr_frame (w : Word) (s : State) :
    s.afterJsr w = { s with cpu := (s.afterJsr w).cpu, cycles := 6, ram := (s.afterJsr w).ram } := by
  rw [State.afterJsr, pushWord_eq]

theorem exec_rts (s : State) : exec .rts s = .next
    { s with
      cpu := { s.cpu with
        sp := s.cpu.sp + 2
        pc := joinBytes (peek (stackAddr (s.cpu.sp + 2)) s) (peek (stackAddr (s.cpu.sp + 1)) s) + 1 }
      cycles := 6 } := by
  rw [exec, execRts, pullWord_eq_peek]
  rfl

/-- RTS undoes a JSR: the word it pulls is the one pushed, and adding 1 makes up for the 1 that JSR took off. -/
theorem exec_rts_afterJsr {s : State} (hs : s.StorageLegal) (w : Word) :
    ∃ u, exec .rts (s.afterJsr w) = .next u ∧ u.cpu = s.cpu := by
  have hsp : (s.afterJsr w).cpu.sp + 2 = s.cpu.sp := BitVec.sub_add_cancel _ _
  have hsp' : (s.afterJsr w).cpu.sp + 1 = s.cpu.sp - 1 := by simp only [State.afterJsr]; bv_omega
  have hpc : s.cpu.pc - 1 + 1 = s.cpu.pc := BitVec.sub_add_cancel _ _
  refine ⟨_, exec_rts _, ?_⟩
  rw [hsp, hsp', peek_afterJsr, peek_afterJsr, peek_pushWord_high hs, peek_pushWord_low hs, joinBytes_hi_lo, hpc]
  rfl

/-- Settles O33: JSR leaves the address of its last byte as a pushed word (`peek_pushWord`), RTS pulls a word
(`exec_rts`), and after a JSR it is the one pushed (`exec_rts_afterJsr`). -/
theorem jsrAndRts : Obligations.JsrAndRts := by
  refine ⟨fun w => rfl, rfl, fun w pc0 s hs hpc => ?jsr, fun s => ⟨_, exec_rts s, rfl, rfl, rfl⟩⟩
  have hret : s.cpu.pc - 1 = pc0 + 2 := by rw [hpc]; bv_omega
  refine ⟨_, exec_jsr w s, rfl, rfl, ?high, ?low, fun a hport hne hne' => ?others, afterJsr_frame w s,
    exec_rts_afterJsr hs w⟩
  case high => rw [peek_afterJsr, peek_pushWord_high hs, hret]
  case low => rw [peek_afterJsr, peek_pushWord_low hs, hret]
  case others => rw [peek_afterJsr, peek_pushWord hs _ hport, if_neg hne', if_neg hne]

/-! ### Branches (rules R75, R126 to R134) -/

/-- The target of a branch is the signed sum modulo 65536. -/
theorem branchTarget_eq_ofInt (off : Byte) (pc : Word) :
    branchTarget off pc = BitVec.ofInt 16 ((pc.toNat : Int) + off.toInt) := by
  rw [BitVec.ofInt_add, BitVec.ofInt_natCast, BitVec.ofNat_toNat, BitVec.setWidth_eq]
  rfl

theorem branchTarget_toNat (off : Byte) (pc : Word) :
    ((branchTarget off pc).toNat : Int) = ((pc.toNat : Int) + off.toInt) % 65536 := by
  rw [branchTarget_eq_ofInt, BitVec.toNat_ofInt]
  exact Int.toNat_of_nonneg (Int.emod_nonneg _ (by decide))

/-- One more cycle when two words have different high bytes. -/
theorem add_bit_hiByte_ne (k : Nat) (v w : Word) :
    k + bit (hiByte v != hiByte w) = if v.toNat / 256 = w.toNat / 256 then k else k + 1 := by
  rw [← hiByte_toNat, ← hiByte_toNat]
  by_cases h : hiByte v = hiByte w
  · simp [bit, h]
  · simp [bit, h, BitVec.toNat_inj]

theorem branch_not_taken (off : Byte) (s : State) : branch false off s = { s with cycles := 2 } := rfl

theorem branch_taken (off : Byte) (s : State) :
    branch true off s = { s with
      cpu := { s.cpu with pc := branchTarget off s.cpu.pc }
      cycles := if (branchTarget off s.cpu.pc).toNat / 256 = s.cpu.pc.toNat / 256 then 3 else 4 } := by
  rw [← add_bit_hiByte_ne]
  rfl

/-- Settles O34: each of the eight is `branch` of its flag, whose two cases are `branch_not_taken` and `branch_taken`. -/
theorem branchesFollowTheirFlag : Obligations.BranchesFollowTheirFlag := by
  refine ⟨fun n => ⟨rfl, rfl, rfl, rfl, rfl, rfl, rfl, rfl⟩, fun n s i cond hi => ?_⟩
  have hexec : exec i s = .next (branch cond n s) := by
    simp only [List.mem_cons, Prod.mk.injEq, List.not_mem_nil, or_false] at hi
    rcases hi with ⟨rfl, rfl⟩ | ⟨rfl, rfl⟩ | ⟨rfl, rfl⟩ | ⟨rfl, rfl⟩ | ⟨rfl, rfl⟩ | ⟨rfl, rfl⟩ | ⟨rfl, rfl⟩ | ⟨rfl, rfl⟩ <;>
      rfl
  refine ⟨_, hexec, ?_⟩
  cases cond with
  | false =>
    rw [branch_not_taken]
    exact ⟨rfl, rfl, fun _ => ⟨rfl, rfl⟩, nofun⟩
  | true =>
    rw [branch_taken]
    exact ⟨rfl, rfl, nofun, fun _ => ⟨branchTarget_toNat n s.cpu.pc, rfl⟩⟩

end Sys2Proof.Machine

/-! ## Flag, no-operation and system instructions (45_flag_nop_system.md) -/

namespace Sys2Proof.Machine

/-! ### One flag written (rules R135 to R141) -/

theorem flagsKeptBut_putBit (k : Nat) (b : Bool) (p : Byte) : FlagsKeptBut [k] p (putBit k b p) := fun i hi => by
  have hne : k ≠ i := by simpa [eq_comm] using hi
  rw [putBit_getLsbD, if_neg fun h => hne h.1]

/-- Settles O35: each of the seven is `flagOp` of a `putBit`, which writes its one bit; NOP by evaluation. -/
theorem flagInstructionsAndNop : Obligations.FlagInstructionsAndNop := by
  refine ⟨⟨rfl, rfl, rfl, rfl, rfl, rfl, rfl, rfl⟩, fun s i k b hi => ?flags, fun s => rfl⟩
  have hexec : k < 8 ∧ exec i s = .next (flagOp (putBit k b) s) := by
    simp only [List.mem_cons, Prod.mk.injEq, List.not_mem_nil, or_false] at hi
    rcases hi with ⟨rfl, rfl, rfl⟩ | ⟨rfl, rfl, rfl⟩ | ⟨rfl, rfl, rfl⟩ | ⟨rfl, rfl, rfl⟩ | ⟨rfl, rfl, rfl⟩ |
      ⟨rfl, rfl, rfl⟩ | ⟨rfl, rfl, rfl⟩ <;> exact ⟨by decide, rfl⟩
  obtain ⟨hk, hexec⟩ := hexec
  refine ⟨_, hexec, rfl, rfl, rfl, ?_, flagsKeptBut_putBit k b s.cpu.p⟩
  exact (putBit_getLsbD k b s.cpu.p k).trans (if_pos ⟨rfl, hk⟩)

/-! ### The entry of a handler (rules R143, R190) -/

/-- The state after an entry through `vec`: three bytes pushed, `P.I` set, `PC` at the handler, 7 cycles. -/
def State.afterEntry (ret : Word) (pushed : Byte) (vec : Word) (s : State) : State :=
  { push pushed (pushWord ret s) with
    cpu := { s.cpu with sp := s.cpu.sp - 3, p := withI true s.cpu.p, pc := vectorWord vec s }, cycles := 7 }

theorem enterHandler_eq_afterEntry (ret : Word) (pushed : Byte) {vec : Word} (h : 0x8000 ≤ vec.toNat)
    (h' : vec.toNat < 0xFFFF) (s : State) : enterHandler ret pushed vec s = s.afterEntry ret pushed vec := by
  have hsp : s.cpu.sp - 1 - 1 - 1 = s.cpu.sp - 3 := by bv_omega
  rw [enterHandler_eq ret pushed h h', State.afterEntry, push_eq, pushWord_eq, hsp]

/-- Three pushed bytes, `pushed` the lowest of them, and every other byte as before. -/
theorem peek_afterEntry {s : State} (hs : s.StorageLegal) (ret : Word) (pushed : Byte) (vec : Word) {b : Word}
    (hb : isPort s.params b = false) :
    peek b (s.afterEntry ret pushed vec) =
      if cpuCell s.params b = cpuCell s.params (stackAddr (s.cpu.sp - 2)) then pushed
      else if cpuCell s.params b = cpuCell s.params (stackAddr (s.cpu.sp - 1)) then loByte ret
      else if cpuCell s.params b = cpuCell s.params (stackAddr s.cpu.sp) then hiByte ret else peek b s := by
  have hword := pushWord_keeps ret s
  have hsp : (pushWord ret s).cpu.sp = s.cpu.sp - 2 := by rw [pushWord_eq]; bv_omega
  rw [State.afterEntry, peek_cpu, peek_push_eq_ite (hword.storage hs) pushed (by rwa [hword.params]), hword.params,
    hsp, peek_pushWord hs ret hb]

/-- An entry writes nothing but the CPU and RAM. -/
theorem afterEntry_frame (ret : Word) (pushed : Byte) (vec : Word) (s : State) :
    s.afterEntry ret pushed vec = { s with
      cpu := (s.afterEntry ret pushed vec).cpu, cycles := 7, ram := (s.afterEntry ret pushed vec).ram } := by
  rw [State.afterEntry, push_eq, pushWord_eq]

theorem handlerEntered_afterEntry {s : State} (hs : s.StorageLegal) (ret : Word) (pushed : Byte) (vec : Word) :
    HandlerEntered ret pushed vec s (s.afterEntry ret pushed vec) := by
  have hframe := afterEntry_frame ret pushed vec s
  have hstack (sp : Byte) := peek_afterEntry hs ret pushed vec (isPort_stackAddr s.params sp)
  simp only [cpuCell_stackAddr_inj] at hstack
  have h01 : s.cpu.sp ≠ s.cpu.sp - 1 := by bv_omega
  have h02 : s.cpu.sp ≠ s.cpu.sp - 2 := by bv_omega
  have h12 : s.cpu.sp - 1 ≠ s.cpu.sp - 2 := by bv_omega
  constructor
  case retHigh => rw [hstack, if_neg h02, if_neg h01, if_pos rfl]
  case retLow => rw [hstack, if_neg h12, if_pos rfl]
  case status => rw [hstack, if_pos rfl]
  case interruptDisable => exact withI_getLsbD true s.cpu.p 2
  case flags => exact flagsKeptBut_putBit 2 true s.cpu.p
  case others =>
    intro a hport hne
    have hzero : s.cpu.sp - (0 : Byte) = s.cpu.sp := BitVec.sub_zero _
    rw [peek_afterEntry hs ret pushed vec hport, if_neg (hne 2 (by decide)), if_neg (hne 1 (by decide)),
      if_neg (hzero ▸ hne 0 (by decide))]
  case ppuStorage => rw [hframe]; exact ppuRead_congr rfl rfl rfl rfl
  case cpu | cycles => rfl
  case ppu | prg | params | irqLine | pixels => rw [hframe]

/-! ### BRK and RTI (rules R143, R144) -/

theorem exec_brk (s : State) :
    exec .brk s = .next (s.afterEntry (s.cpu.pc + 1) (pushedByProgram s.cpu.p) 0xFFFE) := by
  rw [exec, execBrk, irqVector, enterHandler_eq_afterEntry _ _ (by decide) (by decide)]

/-- Settles O16: the handler is entered with the word after `PC` and `pushedByProgram` of the status
(`handlerEntered_afterEntry`). -/
theorem brkEntersTheHandler : Obligations.BrkEntersTheHandler := by
  refine ⟨rfl, fun s pc0 hs hpc => ?_⟩
  have hret : s.cpu.pc + 1 = pc0 + 2 := by rw [hpc]; bv_omega
  refine ⟨_, _, exec_brk s, ?_, ?_, ?_, flagsKeptBut_pushedByProgram s.cpu.p, rfl⟩
  · rw [hret]
    exact handlerEntered_afterEntry hs _ _ _
  · exact pushedByProgram_getLsbD s.cpu.p 4 (by decide)
  · exact pushedByProgram_getLsbD s.cpu.p 5 (by decide)

theorem exec_rti (s : State) : exec .rti s = .next
    { s with
      cpu := { s.cpu with
        sp := s.cpu.sp + 3
        p := pulledStatus (peek (stackAddr (s.cpu.sp + 1)) s) s.cpu.p
        pc := joinBytes (peek (stackAddr (s.cpu.sp + 3)) s) (peek (stackAddr (s.cpu.sp + 2)) s) }
      cycles := 6 } := by
  have htwo : s.cpu.sp + 1 + 1 = s.cpu.sp + 2 := by bv_omega
  have hthree : s.cpu.sp + 2 + 1 = s.cpu.sp + 3 := by bv_omega
  rw [exec, execRti, returnFromInterrupt_eq, htwo, hthree]
  simp only [peek, memRead_stackAddr]

/-- Settles O17: `exec_rti` gives the state, and `pulledStatus` keeps bits 5 and 4. -/
theorem rtiRestoresStatusAndPc : Obligations.RtiRestoresStatusAndPc := by
  refine ⟨rfl, fun s => ⟨_, exec_rti s, rfl, rfl, rfl, flagsKeptBut_pulledStatus _ s.cpu.p, ?_, ?_⟩⟩
  · exact pulledStatus_getLsbD _ s.cpu.p 5 (by decide)
  · exact pulledStatus_getLsbD _ s.cpu.p 4 (by decide)

end Sys2Proof.Machine

/-! ## The halt (46_undefined_opcodes.md) -/

namespace Sys2Proof.Machine

/-- The halt in full (rule R145): `halted` set, `PC` back at the byte, 1 cycle. -/
theorem exec_undefined (op : Byte) (s : State) : exec (.undefined op) s =
    .next { s with cpu := { s.cpu with halted := true, pc := s.cpu.pc - 1 }, cycles := 1 } := rfl

/-- Settles O36: `exec_undefined` puts `PC` back by one, which is the byte's address. -/
theorem undefinedOpcodeHalts : Obligations.UndefinedOpcodeHalts := by
  intro s op pc0 hpc
  rw [exec_undefined, hpc, BitVec.add_sub_cancel]

/-! ### No shared operation writes `halted` -/

section
variable (s : State)

theorem readSrc_halted (src : Src) : (readSrc src s).2.cpu.halted = s.cpu.halted := by rw [readSrc_eq]; rfl

theorem modifyMem_halted (m : Addr) (f : Byte → Byte) (flags : Byte → Byte → Byte) :
    (modifyMem m f flags s).cpu.halted = s.cpu.halted := by
  rw [modifyMem_eq, State.setCycles_cpu, State.setP_cpu_halted, memWrite_cpu, memRead_cpu]

theorem modify_halted (d : Dst) (f : Byte → Byte) (flags : Byte → Byte → Byte) :
    (modify d f flags s).cpu.halted = s.cpu.halted := by
  cases d with
  | acc => rfl
  | mem m => exact modifyMem_halted s m f flags

theorem readPair_halted (lo hi : Word) : (readPair lo hi s).2.cpu.halted = s.cpu.halted := by
  rw [readPair, memRead_cpu, memRead_cpu]

theorem enterHandler_halted (ret : Word) (pushed : Byte) (vec : Word) :
    (enterHandler ret pushed vec s).cpu.halted = s.cpu.halted := by
  rw [enterHandler, State.setCycles_cpu, State.setPc_cpu_halted, memRead16, readPair_halted, State.setP_cpu_halted,
    push_cpu, pushWord, push_cpu, push_cpu]

theorem branch_halted (c : Bool) (off : Byte) : (branch c off s).cpu.halted = s.cpu.halted := by
  cases c <;> rfl

theorem jumpTarget_halted (target : Target) : (jumpTarget target s).2.cpu.halted = s.cpu.halted := by
  cases target with
  | abs w => rfl
  | ind w => exact readPair_halted s _ _

end

/-! ### What halts the CPU (rules R145, R185) -/

/-- An instruction of the machine other than an undefined opcode leaves `halted` alone. -/
theorem exec_halted {i : Instr} {s t : State} (h : exec i s = .next t) :
    t.cpu.halted = s.cpu.halted ∨ ∃ op, i = .undefined op := by
  cases i
  case undefined op => exact .inr ⟨op, rfl⟩
  case pla | plp | jsr w | rts | brk | rti =>
    simp only [exec_pla, exec_plp, exec_jsr, exec_rts, exec_brk, exec_rti] at h
    injection h with h
    subst h
    exact .inl rfl
  all_goals
    injection h with h
    subst h
    refine .inl ?_
  case lda src | ldx src | ldy src | ora src | and src | eor src | adc src | sbc src | cmp src | cpx src | cpy src =>
    exact readSrc_halted s src
  case bit m => exact readSrc_halted s (.mem m)
  case sta m | stx m | sty m => exact congrArg Cpu.halted (store_cpu m _ s)
  case asl d | lsr d | rol d | ror d => exact modify_halted s d _ _
  case inc m | dec m => exact modifyMem_halted s m _ _
  case pha | php => rw [State.setCycles_cpu, push_cpu]
  case jmp target => exact jumpTarget_halted s target
  case bpl | bmi | bvc | bvs | bcc | bcs | bne | beq => exact branch_halted s _ _
  all_goals rfl

theorem fetchInstr_cpu (s : State) : (fetchInstr s).2.cpu =
    { s.cpu with pc := s.cpu.pc + BitVec.ofNat 16 (1 + operandCount (peek s.cpu.pc s)) } := by
  rw [fetchInstr_state]; rfl

/-- One instruction leaves `halted` alone, or the byte at `PC` is undefined and `PC` ends at that byte. -/
theorem instructionStep_halted {s t : State} (h : instructionStep s = .next t) :
    t.cpu.halted = s.cpu.halted ∨ (peek s.cpu.pc s ∈ undefinedOpcodes ∧ t.cpu.pc = s.cpu.pc) := by
  obtain ⟨i, hdec, -, hcount⟩ := fetchInstr_decodes s
  have hcpu := fetchInstr_cpu s
  rw [instructionStep_eq hdec] at h
  rcases exec_halted h with hkept | ⟨op, rfl⟩
  · exact .inl (by rw [hkept, hcpu])
  · obtain ⟨-, -, -, hundefined⟩ := undefinedOpcodesAreThe105
    have hmem := (hundefined (peek s.cpu.pc s) _ _ _ hdec).1.mp ⟨op, rfl⟩
    have hnoOperand : operandCount (peek s.cpu.pc s) = 0 := hcount.symm
    rw [exec_undefined, hcpu, hnoOperand] at h
    injection h with h
    subst h
    exact .inr ⟨hmem, BitVec.add_sub_cancel s.cpu.pc 1⟩

/-- The halted step (rule R146). -/
theorem cpuStep_of_halted {s : State} (h : s.cpu.halted = true) : cpuStep s = .next (s.setCycles 1) := by
  rw [cpuStep, if_pos h, haltedStep]

/-- A CPU step that enters the halt serviced no interrupt and found an undefined byte at `PC`, where `PC` stays. -/
theorem cpuStep_halts {s t : State} (h : cpuStep s = .next t) (hs : s.cpu.halted = false) (ht : t.cpu.halted = true) :
    s.cpu.nmiPending = false ∧ ¬ (s.irqLine = true ∧ flagI s.cpu.p = false) ∧
      peek s.cpu.pc s ∈ undefinedOpcodes ∧ t.cpu.pc = s.cpu.pc := by
  have hchanged : t.cpu.halted ≠ s.cpu.halted := by rw [hs, ht]; decide
  rw [cpuStep, if_neg (by rw [hs]; decide)] at h
  split at h
  next =>
    injection h with h
    subst h
    exact absurd (enterHandler_halted _ _ _ _) hchanged
  next hnmi =>
    split at h
    next =>
      injection h with h
      subst h
      exact absurd (enterHandler_halted _ _ _ _) hchanged
    next hirq =>
      have hquiet : ¬ (s.irqLine = true ∧ flagI s.cpu.p = false) := fun ⟨hline, hflag⟩ =>
        hirq (by rw [irqTaken, hline, hflag]; rfl)
      exact ⟨Bool.eq_false_iff.mpr hnmi, hquiet, (instructionStep_halted h).resolve_left hchanged⟩

/-! ### What the dots of a tick keep (rule R180) -/

/-- The dots write no CPU state but `nmi_pending`. -/
theorem clockDots_cpu (n : Nat) (s : State) :
    (clockDots n s).cpu = { s.cpu with nmiPending := (clockDots n s).cpu.nmiPending } :=
  congrArg State.cpu (clockDots_rest n s)

/-- No dot withdraws an NMI request: only the CPU consumes it. -/
theorem clockDots_nmiPending (n : Nat) {s : State} (h : s.cpu.nmiPending = true) :
    (clockDots n s).cpu.nmiPending = true := by
  induction n generalizing s with
  | zero => exact h
  | succ n ih => exact ih (by rw [clockDot_eq, h, Bool.true_or])

/-- The dots write neither of the PPU's own memories. -/
theorem clockDots_oam_palette (n : Nat) (s : State) :
    (clockDots n s).ppu.oam = s.ppu.oam ∧ (clockDots n s).ppu.palette = s.ppu.palette := by
  induction n generalizing s with
  | zero => exact ⟨rfl, rfl⟩
  | succ n ih =>
    obtain ⟨-, -, -, -, -, -, hoam, hpalette⟩ := ppuStep_ppu s
    obtain ⟨hoam', hpalette'⟩ := ih (clockDot s)
    rw [clockDots, hoam', hpalette', clockDot_eq]
    exact ⟨hoam, hpalette⟩

/-- The dots write no memory: neither those of the machine nor the PPU's own. -/
theorem clockDots_memories (n : Nat) (s : State) :
    (clockDots n s).ram = s.ram ∧ (clockDots n s).prgRam = s.prgRam ∧ (clockDots n s).chr = s.chr ∧
      (clockDots n s).vram = s.vram ∧ (clockDots n s).ppu.oam = s.ppu.oam ∧
      (clockDots n s).ppu.palette = s.ppu.palette := by
  refine ⟨?_, ?_, clockDots_chr n s, ?_, clockDots_oam_palette n s⟩
  all_goals rw [clockDots_rest]

/-- A step is its CPU step and three dots for each of the cycles. -/
theorem step_eq_cpuStep {s t : State} (h : step s = .next t) :
    ∃ u, cpuStep { s with pixels := [] } = .next u ∧ t = clockDots (3 * u.cycles) u := by
  obtain ⟨u, hcpu, -, -, -, hstep⟩ := step_cases (step_mapper h)
  rw [hstep] at h
  injection h with h
  exact ⟨u, hcpu, h.symm⟩

/-- The pixel output is no part of what a bus read sees. -/
theorem peek_pixels (a : Word) (l : List Pixel) (s : State) : peek a { s with pixels := l } = peek a s := by
  unfold peek memRead
  cases cpuCell s.params a with
  | port n => dsimp only; unfold portRead; split <;> rfl
  | _ => rfl

/-- Settles O12: the dots leave `halted` and `PC` alone (`clockDots_cpu`), so the CPU step decides: it stays halted
(`cpuStep_of_halted`), or halts at an undefined byte only (`cpuStep_halts`). -/
theorem onlyAnUndefinedOpcodeHalts : Obligations.OnlyAnUndefinedOpcodeHalts := by
  intro s t hstep
  obtain ⟨u, hcpu, rfl⟩ := step_eq_cpuStep hstep
  rw [clockDots_cpu]
  refine ⟨fun hs => ?_, fun hs hu => ?_⟩
  · rw [cpuStep_of_halted (s := { s with pixels := [] }) hs] at hcpu
    injection hcpu with hcpu
    subst hcpu
    exact hs
  · obtain ⟨hnmi, hirq, hundefined, hpc⟩ := cpuStep_halts hcpu hs hu
    exact ⟨hnmi, hirq, peek_pixels s.cpu.pc [] s ▸ hundefined, hpc⟩

/-- Settles O13: the CPU step is the halted one (`cpuStep_of_halted`), and the rest is what three dots keep. -/
theorem haltedStepOnlyRunsThePpu : Obligations.HaltedStepOnlyRunsThePpu := by
  intro s hinv hmapper hhalted
  obtain ⟨u, hcpu, -, -, -, hstep⟩ := step_cases hmapper
  rw [cpuStep_of_halted (s := { s with pixels := [] }) hhalted] at hcpu
  injection hcpu with hcpu
  subst hcpu
  change step s = .next (clockDots 3 { s with pixels := [], cycles := 1 }) at hstep
  have hcycles := congrArg State.cycles (clockDots_rest 3 { s with pixels := [], cycles := 1 })
  have hnmi := clockDots_nmiPending 3 (s := { s with pixels := [], cycles := 1 })
  have hposition := clockDots_position 3 (s := { s with pixels := [], cycles := 1 }) hinv.ppu.scanline hinv.ppu.dot
  exact ⟨_, hstep, rfl, clockDots_cpu 3 _, hnmi, hcycles, hposition, clockDots_memories 3 _⟩

end Sys2Proof.Machine

/-! ## The PPU register ports (47_ppu_register_ports.md) -/

namespace Sys2Proof.Machine

/-! ### The ports on the CPU bus (rules R41, R148) -/

section
variable {a : Word} {n : Nat}

/-- Every mirror of port `n` reads that port. -/
theorem memRead_portMirror (hlo : 0x2000 ≤ a.toNat) (hhi : a.toNat < 0x4000) (hn : a.toNat % 8 = n) (s : State) :
    memRead a s = portRead n s :=
  hn ▸ memRead_port (cpuCell_port s.params hlo hhi)

/-- Every mirror of port `n` writes that port. -/
theorem memWrite_portMirror (hlo : 0x2000 ≤ a.toNat) (hhi : a.toNat < 0x4000) (hn : a.toNat % 8 = n) (d : Byte)
    (s : State) : memWrite a d s = portWrite n d s :=
  hn ▸ memWrite_port (cpuCell_port s.params hlo hhi) d

end

/-- The write-only ports read `OPEN_BUS` (rule R159). -/
theorem portRead_writeOnly {n : Nat} (h : n ∈ [0, 1, 3, 5, 6]) (s : State) : portRead n s = (s.params.openBus, s) := by
  simp only [List.mem_cons, List.not_mem_nil, or_false] at h
  rcases h with rfl | rfl | rfl | rfl | rfl <;> rfl

/-- Settles O46: the five write-only ports, and the ignored write of PPUSTATUS. -/
theorem portsInTheWrongDirection : Obligations.PortsInTheWrongDirection := by
  intro a d s hlo hhi
  refine ⟨fun hn => ?_, fun hn => memWrite_portMirror hlo hhi hn d s⟩
  rw [memRead_portMirror hlo hhi rfl, portRead_writeOnly hn]

/-! ### PPUSTATUS, PPUCTRL, PPUMASK, OAMADDR (rules R149 to R152) -/

/-- Settles O40: the read clears one bit of the stored status (`flagsKeptBut_putBit`), and a second read sees that. -/
theorem statusReadClearsVBlank : Obligations.StatusReadClearsVBlank := by
  intro a s hlo hhi hn
  have hread (u : State) : memRead a u = (u.ppu.status, u.setPpu (readPpuStatus u.ppu)) :=
    memRead_portMirror hlo hhi hn u
  rw [peek, hread s, hread]
  exact ⟨rfl, rfl, putBit_getLsbD 7 false s.ppu.status 7, flagsKeptBut_putBit 7 false s.ppu.status, rfl⟩

/-- The low two bits of PPUCTRL are the nametable select of `t` (rule R149). -/
theorem writePpuCtrl_t_getLsbD (d : Byte) (q : Ppu) (i : Nat) :
    (writePpuCtrl d q).t.getLsbD i =
      if i = 11 then d.getLsbD 1 else if i = 10 then d.getLsbD 0 else q.t.getLsbD i := by
  rw [writePpuCtrl, putField_getLsbD]
  by_cases h : 10 ≤ i ∧ i < 12
  · obtain rfl | rfl : i = 10 ∨ i = 11 := by omega
    · exact field_getLsbD 0 2 d 0
    · exact field_getLsbD 0 2 d 1
  · rw [if_neg (by omega), if_neg (by omega), if_neg (by omega)]

/-- Settles O41: each write is its port's, and only PPUCTRL writes into `t` (`writePpuCtrl_t_getLsbD`). -/
theorem controlPortWrites : Obligations.ControlPortWrites := by
  intro a d s hlo hhi
  have hwrite {n : Nat} (hn : a.toNat % 8 = n) := memWrite_portMirror hlo hhi hn d s
  refine ⟨fun hn => ?_, hwrite, hwrite⟩
  rw [hwrite hn]
  exact ⟨rfl, writePpuCtrl_t_getLsbD d s.ppu⟩

/-! ### OAMDATA (rule R153) -/

/-- A read after a write, at any address. -/
theorem Memory.read_write {m : Memory} (hm : m.wf = true) (k : Nat) (b : Byte) (j : Nat) :
    (m.write k b).read j = if j = k then b else m.read j := by
  split
  next h => exact h ▸ Memory.read_write_self k b hm
  next h => exact Memory.read_write_other m b h

/-- Settles O45: one store into the object memory (`Memory.read_write`), and a read without effect. -/
theorem oamDataPort : Obligations.OamDataPort := by
  intro a d s hlegal hlo hhi hn
  have hwrite : memWrite a d s = s.setPpu (writeOamData d s.ppu) := memWrite_portMirror hlo hhi hn d s
  rw [hwrite]
  exact ⟨memRead_portMirror hlo hhi hn s, rfl, BitVec.toNat_add _ _, Memory.read_write hlegal.oam.wf _ d⟩

/-! ### PPUSCROLL and PPUADDR (rules R154, R155) -/

/-- A bit field as a number. -/
theorem field_toNat {n : Nat} (lo k : Nat) (x : BitVec n) : (field lo k x).toNat = x.toNat / 2 ^ lo % 2 ^ k := by
  rw [field, BitVec.extractLsb'_toNat, Nat.shiftRight_eq_div_pow]

theorem lowField_toNat {n : Nat} (k : Nat) (x : BitVec n) : (field 0 k x).toNat = x.toNat % 2 ^ k := by
  rw [field_toNat, pow_zero, Nat.div_one]

section
variable (d : Byte) {q : Ppu}

theorem writePpuScroll_first (hw : q.w = false) :
    writePpuScroll d q = { q with t := putField 0 (field 3 5 d) q.t, fineX := field 0 3 d, w := true } := by
  rw [writePpuScroll, hw]
  rfl

theorem writePpuScroll_second (hw : q.w = true) :
    writePpuScroll d q =
      { q with t := putField 5 (field 3 5 d) (putField 12 (field 0 3 d) q.t), w := false } := by
  rw [writePpuScroll, if_pos hw]

theorem writePpuAddr_first (hw : q.w = false) :
    writePpuAddr d q = { q with t := putBit 14 false (putField 8 (field 0 6 d) q.t), w := true } := by
  rw [writePpuAddr, hw]
  rfl

theorem writePpuAddr_second (hw : q.w = true) :
    writePpuAddr d q = { q with t := putField 0 d q.t, v := putField 0 d q.t, w := false } := by
  rw [writePpuAddr, if_pos hw]

end

/-- The first PPUSCROLL write puts bits 7 to 3 of the byte into coarse X. -/
theorem coarseX_getLsbD (d : Byte) (t : Scroll) (i : Nat) :
    (putField 0 (field 3 5 d) t).getLsbD i = if i < 5 then d.getLsbD (i + 3) else t.getLsbD i := by
  rw [putField_getLsbD, field_getLsbD]
  by_cases h : i < 5
  · rw [if_pos (by omega), if_pos h, decide_eq_true (by omega), Bool.true_and, Nat.sub_zero, Nat.add_comm]
  · rw [if_neg (by omega), if_neg h]

/-- The second PPUSCROLL write puts bits 2 to 0 of the byte into fine Y and bits 7 to 3 into coarse Y. -/
theorem fineYCoarseY_getLsbD (d : Byte) (t : Scroll) {i : Nat} (hi : i < 15) :
    (putField 5 (field 3 5 d) (putField 12 (field 0 3 d) t)).getLsbD i =
      if 12 ≤ i then d.getLsbD (i - 12) else if 5 ≤ i ∧ i < 10 then d.getLsbD (i - 2) else t.getLsbD i := by
  rw [putField_getLsbD, putField_getLsbD, field_getLsbD, field_getLsbD]
  by_cases hfine : 12 ≤ i
  · rw [if_neg (by omega), if_pos (by omega), if_pos hfine, decide_eq_true (by omega), Bool.true_and, Nat.zero_add]
  rw [if_neg hfine]
  by_cases hcoarse : 5 ≤ i ∧ i < 10
  · rw [if_pos (by omega), if_pos hcoarse, decide_eq_true (by omega), Bool.true_and,
      show 3 + (i - 5) = i - 2 by omega]
  · rw [if_neg (by omega), if_neg (by omega), if_neg hcoarse]

theorem clearBit14_toNat (x : Scroll) : (putBit 14 false x).toNat = x.toNat % 16384 := by
  have htop : field 14 1 (putBit 14 false x) = 0 := field_putField_self 14 _ x (by decide)
  have hlow : field 0 14 (putBit 14 false x) = field 0 14 x := field_putField_disjoint 14 0 _ x (by decide)
  rw [← BitVec.toNat_inj, field_toNat] at htop
  rw [← BitVec.toNat_inj, lowField_toNat, lowField_toNat] at hlow
  change _ = 0 at htop
  omega

/-- The first PPUADDR write: the byte's low 6 bits above the low byte of `t`, and bit 14 is 0. -/
theorem addressHigh_toNat (d : Byte) (t : Scroll) :
    (putBit 14 false (putField 8 (field 0 6 d) t)).toNat = 256 * (d.toNat % 64) + t.toNat % 256 := by
  have hhigh : field 8 6 (putField 8 (field 0 6 d) t) = field 0 6 d := field_putField_self 8 _ t (by decide)
  have hlow : field 0 8 (putField 8 (field 0 6 d) t) = field 0 8 t := field_putField_disjoint 8 0 _ t (by decide)
  rw [← BitVec.toNat_inj, field_toNat, lowField_toNat] at hhigh
  rw [← BitVec.toNat_inj, lowField_toNat, lowField_toNat] at hlow
  rw [clearBit14_toNat]
  omega

/-- The second PPUADDR write: the byte under the high bits of `t`. -/
theorem addressLow_toNat (d : Byte) (t : Scroll) :
    (putField 0 d t).toNat = 256 * (t.toNat / 256) + d.toNat := by
  have hlow : field 0 8 (putField 0 d t) = d := field_putField_self 0 d t (by decide)
  have hhigh : field 8 7 (putField 0 d t) = field 8 7 t := field_putField_disjoint 0 8 d t (by decide)
  rw [← BitVec.toNat_inj, lowField_toNat] at hlow
  rw [← BitVec.toNat_inj, field_toNat, field_toNat] at hhigh
  omega

/-- Settles O42: the two writes of each port, told apart by `w` alone, and what they put into `t`. -/
theorem twoStepPortWrites : Obligations.TwoStepPortWrites := by
  intro a d s hlo hhi
  have hwrite {n : Nat} (hn : a.toNat % 8 = n) := memWrite_portMirror hlo hhi hn d s
  have hscroll (hn : a.toNat % 8 = 5) : memWrite a d s = s.setPpu (writePpuScroll d s.ppu) := hwrite hn
  have haddr (hn : a.toNat % 8 = 6) : memWrite a d s = s.setPpu (writePpuAddr d s.ppu) := hwrite hn
  refine ⟨fun hn hw => ?_, fun hn hw => ?_, fun hn hw => ?_, fun hn hw => ?_⟩
  · rw [hscroll hn, writePpuScroll_first d hw]
    exact ⟨rfl, lowField_toNat 3 d, coarseX_getLsbD d s.ppu.t⟩
  · rw [hscroll hn, writePpuScroll_second d hw]
    exact ⟨rfl, fun i hi => fineYCoarseY_getLsbD d s.ppu.t hi⟩
  · rw [haddr hn, writePpuAddr_first d hw]
    exact ⟨rfl, addressHigh_toNat d s.ppu.t⟩
  · rw [haddr hn, writePpuAddr_second d hw]
    exact ⟨rfl, addressLow_toNat d s.ppu.t⟩

/-! ### PPUDATA (rules R156 to R158) -/

theorem busAddress_toNat (q : Ppu) : q.busAddress.toNat = q.v.toNat % 16384 := lowField_toNat 14 q.v

theorem busAddress_eq_ofNat (q : Ppu) : q.busAddress = BitVec.ofNat 14 q.v.toNat :=
  BitVec.eq_of_toNat_eq (busAddress_toNat q)

/-- The PPUDATA increment as a number (rule R156). -/
theorem incrementV_v_toNat (q : Ppu) :
    (incrementV q).v.toNat = (q.v.toNat + if q.ctrl.getLsbD 2 then 32 else 1) % 32768 := by
  rw [incrementV, BitVec.toNat_add]
  split <;> rfl

/-- A PPUDATA write: the increment of `v` around one write of the PPU space (rule R157). -/
theorem writePpuData_eq (d : Byte) (s : State) :
    writePpuData d s =
      { s with
        chr := (ppuWrite s s.ppu.busAddress d).chr, vram := (ppuWrite s s.ppu.busAddress d).vram
        ppu := { incrementV s.ppu with palette := (ppuWrite s s.ppu.busAddress d).ppu.palette } } := by
  rw [writePpuData, ppuWrite_state]
  rfl

/-- Settles O43: the byte goes where `ppuWrite` puts it, and nothing but `v` changes besides (`writePpuData_eq`). -/
theorem dataPortWrite : Obligations.DataPortWrite := by
  intro a d s hlo hhi hn
  have hwrite : memWrite a d s = writePpuData d s := memWrite_portMirror hlo hhi hn d s
  rw [hwrite, ← busAddress_eq_ofNat]
  refine ⟨?_, ?_, ppuRead_congr rfl rfl rfl rfl⟩
  · rw [writePpuData_eq]
    exact incrementV_v_toNat s.ppu
  · rw [writePpuData_eq]
    rfl

/-- The nametable byte under a palette address is $1000 below it (rule R158). -/
theorem busAddress_sub_eq_ofNat {q : Ppu} (h : 0x3F00 ≤ q.busAddress.toNat) :
    q.busAddress - 0x1000 = BitVec.ofNat 14 (q.busAddress.toNat - 0x1000) := by
  have hle : 0x1000 ≤ q.busAddress := BitVec.le_def.mpr (Nat.le_trans (by decide) h)
  apply BitVec.eq_of_toNat_eq
  rw [BitVec.toNat_sub_of_le hle, BitVec.toNat_ofNat, Nat.mod_eq_of_lt (by omega)]
  rfl

/-- Settles O44: below $3F00 the buffer is returned, above it the palette entry; `v` moves in both cases. -/
theorem dataPortRead : Obligations.DataPortRead := by
  intro a s hlo hhi hn
  have hread : memRead a s = (ppuDataResult s, readPpuData s) := memRead_portMirror hlo hhi hn s
  have hbus : BitVec.ofNat 14 s.ppu.busAddress.toNat = s.ppu.busAddress := by
    rw [BitVec.ofNat_toNat, BitVec.setWidth_eq]
  rw [hread, ← busAddress_toNat]
  refine ⟨rfl, incrementV_v_toNat s.ppu, fun hbelow => ⟨if_pos hbelow, ?_⟩, fun habove => ?_⟩
  · rw [hbus]
    exact if_pos hbelow
  · have hnot := Nat.not_lt.mpr habove
    rw [hbus, ← busAddress_sub_eq_ofNat habove]
    exact ⟨if_neg hnot, if_neg hnot⟩

end Sys2Proof.Machine

/-! ## The Clock (49_system_clock.md): the length of a tick, and where an NMI request comes from -/

namespace Sys2Proof.Machine

/-! ### The position (rules R161, R162, R180, R182) -/

theorem clockDot_position {s : State} (hs : s.ppu.scanline ≤ 261) (hd : s.ppu.dot ≤ 340) :
    (clockDot s).ppu.position = (s.ppu.position + 1) % 89342 ∧ (clockDot s).ppu.scanline ≤ 261 ∧
      (clockDot s).ppu.dot ≤ 340 := by
  rw [clockDot_eq]
  exact ppuStep_position s hs hd

/-- The position stays in range. -/
theorem clockDots_range (n : Nat) {s : State} (hs : s.ppu.scanline ≤ 261) (hd : s.ppu.dot ≤ 340) :
    (clockDots n s).ppu.scanline ≤ 261 ∧ (clockDots n s).ppu.dot ≤ 340 := by
  induction n generalizing s with
  | zero => exact ⟨hs, hd⟩
  | succ n ih =>
    obtain ⟨-, hs', hd'⟩ := clockDot_position hs hd
    exact ih hs' hd'

/-- The CPU step leaves the position alone. -/
theorem StepKeeps.position {s t : State} (h : StepKeeps s t) : t.ppu.position = s.ppu.position := by
  rw [Ppu.position, h.scanline, h.dot, Ppu.position]

/-- Settles O7: the CPU step answers within 1 to 7 cycles and leaves the position (`step_cases`); each dot after it moves
the position by one (`clockDots_position`) and keeps it in range. -/
theorem tickAlwaysAnswersAndRunsThreeDotsPerCycle : Obligations.TickAlwaysAnswersAndRunsThreeDotsPerCycle := by
  intro s
  refine ⟨fun hmapper hs hd => ?_, step_refused⟩
  obtain ⟨u, -, hkeeps, hpos, hmax, hstep⟩ := step_cases hmapper
  have hs' : u.ppu.scanline ≤ 261 := hkeeps.scanline.trans_le hs
  have hd' : u.ppu.dot ≤ 340 := hkeeps.dot.trans_le hd
  obtain ⟨-, -, -, -, hcycles, -⟩ := clockDots_keeps (3 * u.cycles) u
  refine ⟨_, hstep, ?_⟩
  rw [hcycles, clockDots_position _ hs' hd', hkeeps.position]
  obtain ⟨hscanline, hdot⟩ := clockDots_range (3 * u.cycles) hs' hd'
  exact ⟨hpos, hmax, hscanline, hdot, rfl⟩

/-! ### No instruction raises an NMI request (rule R187) -/

section
variable (s : State)

theorem readSrc_nmiPending (src : Src) : (readSrc src s).2.cpu.nmiPending = s.cpu.nmiPending := by
  rw [readSrc_eq]
  rfl

theorem jumpTarget_nmiPending (target : Target) : (jumpTarget target s).2.cpu.nmiPending = s.cpu.nmiPending := by
  cases target with
  | abs w => rfl
  | ind w => rw [jumpTarget, State.setCycles_cpu, readPair, memRead_cpu, memRead_cpu]

theorem modifyMem_nmiPending (m : Addr) (f : Byte → Byte) (flags : Byte → Byte → Byte) :
    (modifyMem m f flags s).cpu.nmiPending = s.cpu.nmiPending := by
  rw [modifyMem_eq, State.setCycles_cpu, State.setP_cpu_nmiPending, memWrite_cpu, memRead_cpu]

theorem modify_nmiPending (d : Dst) (f : Byte → Byte) (flags : Byte → Byte → Byte) :
    (modify d f flags s).cpu.nmiPending = s.cpu.nmiPending := by
  cases d with
  | acc => rfl
  | mem m => exact modifyMem_nmiPending s m f flags

theorem branch_nmiPending (c : Bool) (off : Byte) : (branch c off s).cpu.nmiPending = s.cpu.nmiPending := by
  cases c <;> rfl

end

theorem exec_nmiPending {i : Instr} {s t : State} (h : exec i s = .next t) :
    t.cpu.nmiPending = s.cpu.nmiPending := by
  cases i
  case pla | plp | jsr w | rts | brk | rti =>
    simp only [exec_pla, exec_plp, exec_jsr, exec_rts, exec_brk, exec_rti] at h
    injection h with h
    subst h
    rfl
  all_goals
    injection h with h
    subst h
  case lda src | ldx src | ldy src | ora src | and src | eor src | adc src | sbc src | cmp src | cpx src | cpy src =>
    exact readSrc_nmiPending s src
  case bit m => exact readSrc_nmiPending s (.mem m)
  case sta m | stx m | sty m => rw [store_cpu]
  case asl d | lsr d | rol d | ror d => exact modify_nmiPending s d _ _
  case inc m | dec m => exact modifyMem_nmiPending s m _ _
  case pha | php => rw [State.setCycles_cpu, push_cpu]
  case jmp target => exact jumpTarget_nmiPending s target
  case bpl | bmi | bvc | bvs | bcc | bcs | bne | beq => exact branch_nmiPending s _ _
  all_goals rfl

/-! ### Servicing an interrupt (rules R190 to R192) -/

/-- NMI service in full: the entry at $FFFA, and the request is consumed. -/
theorem nmiService_eq (s : State) : nmiService s =
    (s.setNmiPending false).afterEntry s.cpu.pc (pushedByInterrupt s.cpu.p) 0xFFFA :=
  enterHandler_eq_afterEntry _ _ (by decide) (by decide) _

/-- IRQ service in full: the entry at $FFFE. -/
theorem irqService_eq (s : State) : irqService s =
    s.afterEntry s.cpu.pc (pushedByInterrupt s.cpu.p) 0xFFFE :=
  enterHandler_eq_afterEntry _ _ (by decide) (by decide) _

section
variable {s : State} (hhalted : s.cpu.halted = false)
include hhalted

theorem cpuStep_nmi (hnmi : s.cpu.nmiPending = true) :
    cpuStep s = .next ((s.setNmiPending false).afterEntry s.cpu.pc (pushedByInterrupt s.cpu.p) 0xFFFA) := by
  rw [cpuStep, hhalted, if_neg Bool.false_ne_true, if_pos hnmi, nmiService_eq]

theorem cpuStep_irq (hnmi : s.cpu.nmiPending = false) (hline : s.irqLine = true) (hflag : flagI s.cpu.p = false) :
    cpuStep s = .next (s.afterEntry s.cpu.pc (pushedByInterrupt s.cpu.p) 0xFFFE) := by
  have htaken : irqTaken s = true := by rw [irqTaken, hline, hflag]; rfl
  rw [cpuStep, hhalted, hnmi, if_neg Bool.false_ne_true, if_neg Bool.false_ne_true, if_pos htaken, irqService_eq]

end

/-- The CPU never raises an NMI request itself. -/
theorem cpuStep_nmiPending {s t : State} (h : cpuStep s = .next t) (hs : s.cpu.nmiPending = false) :
    t.cpu.nmiPending = false := by
  by_cases hhalted : s.cpu.halted = true
  · rw [cpuStep_of_halted hhalted] at h
    injection h with h
    subst h
    exact hs
  rw [Bool.not_eq_true] at hhalted
  by_cases hirq : s.irqLine = true ∧ flagI s.cpu.p = false
  · rw [cpuStep_irq hhalted hs hirq.1 hirq.2] at h
    injection h with h
    subst h
    exact hs
  · obtain ⟨i, hdecode, -, -⟩ := fetchInstr_decodes s
    rw [cpuStep_instruction hhalted hs hirq, instructionStep_eq hdecode] at h
    rw [exec_nmiPending h, fetchInstr_cpu]
    exact hs

/-! ### The port registers (rule R202) -/

/-- The dots leave the registers that only ports write. -/
theorem clockDots_registers (n : Nat) (s : State) :
    (clockDots n s).ppu.ctrl = s.ppu.ctrl ∧ (clockDots n s).ppu.mask = s.ppu.mask ∧
      (clockDots n s).ppu.t = s.ppu.t ∧ (clockDots n s).ppu.fineX = s.ppu.fineX ∧
      (clockDots n s).ppu.w = s.ppu.w ∧ (clockDots n s).ppu.readBuffer = s.ppu.readBuffer := by
  induction n generalizing s with
  | zero => exact ⟨rfl, rfl, rfl, rfl, rfl, rfl⟩
  | succ n ih =>
    obtain ⟨hctrl, hmask, ht, hfineX, hw, hbuffer, -, -⟩ := ppuStep_ppu s
    obtain ⟨hctrl', hmask', ht', hfineX', hw', hbuffer'⟩ := ih (clockDot s)
    rw [clockDots, hctrl', hmask', ht', hfineX', hw', hbuffer', clockDot_eq]
    exact ⟨hctrl, hmask, ht, hfineX, hw, hbuffer⟩

/-! ### A dot raises a request only at VBlank entry (rules R164, R165, R187) -/

/-- The dot (241, 1) is the one dot that can assert the NMI line, and only with `ctrl[7]` set. -/
theorem clockDot_nmiPending {s : State} (hline : s.ppu.nmiLine = false) (hbefore : s.cpu.nmiPending = false)
    (hafter : (clockDot s).cpu.nmiPending = true) :
    s.ppu.ctrl.getLsbD 7 = true ∧ s.ppu.position = 341 * 241 + 1 := by
  rw [clockDot_eq, ppuStep_nmiLine] at hafter
  simp only [hbefore, hline, Bool.false_or, Bool.and_eq_true, decide_eq_true_eq] at hafter
  obtain ⟨⟨hscanline, hdot⟩, -, hctrl⟩ := hafter
  exact ⟨hctrl, by rw [Ppu.position, hscanline, hdot]⟩

theorem clockDot_ctrl (s : State) : (clockDot s).ppu.ctrl = s.ppu.ctrl := by
  rw [clockDot_eq]
  exact (ppuStep_ppu s).1

/-- A request that a run of dots raises was raised by the dot (241, 1) among them. -/
theorem clockDots_raise_nmi (n : Nat) {s : State} (hs : s.ppu.scanline ≤ 261) (hd : s.ppu.dot ≤ 340)
    (hline : s.ppu.nmiLine = false) (hbefore : s.cpu.nmiPending = false)
    (hafter : (clockDots n s).cpu.nmiPending = true) :
    s.ppu.ctrl.getLsbD 7 = true ∧ ∃ k, k < n ∧ (s.ppu.position + k) % 89342 = 341 * 241 + 1 := by
  induction n generalizing s with
  | zero => exact absurd hafter (by rw [clockDots, hbefore]; decide)
  | succ n ih =>
    by_cases hfirst : (clockDot s).cpu.nmiPending = true
    · obtain ⟨hctrl, hpos⟩ := clockDot_nmiPending hline hbefore hfirst
      exact ⟨hctrl, 0, Nat.succ_pos n, by rw [hpos]⟩
    · obtain ⟨hpos, hs', hd'⟩ := clockDot_position hs hd
      obtain ⟨hctrl, k, hk, hat⟩ := ih hs' hd' (clockDot_nmiLine s) (Bool.eq_false_iff.mpr hfirst) hafter
      rw [clockDot_ctrl] at hctrl
      exact ⟨hctrl, k + 1, by omega, by omega⟩

/-- Settles O14: the CPU step raises no request (`cpuStep_nmiPending`), so one of the dots did (`clockDots_raise_nmi`). -/
theorem nmiIsRaisedOnlyAtVBlankEntry : Obligations.NmiIsRaisedOnlyAtVBlankEntry := by
  intro s t hinv hstep hbefore hafter
  obtain ⟨u, hcpu, hkeeps, -, -, hdots⟩ := step_cases (step_mapper hstep)
  rw [hdots] at hstep
  injection hstep with hstep
  subst hstep
  have hline : u.ppu.nmiLine = false := hkeeps.nmiLine.trans hinv.nmiLine
  obtain ⟨hctrl, k, hk, hat⟩ := clockDots_raise_nmi (3 * u.cycles) (hkeeps.scanline.trans_le hinv.ppu.scanline)
    (hkeeps.dot.trans_le hinv.ppu.dot) hline (cpuStep_nmiPending hcpu hbefore) hafter
  obtain ⟨-, -, -, -, hcycles, -⟩ := clockDots_keeps (3 * u.cycles) u
  obtain ⟨hctrlKept, -⟩ := clockDots_registers (3 * u.cycles) u
  rw [hctrlKept, hcycles]
  exact ⟨hctrl, k, hk, hkeeps.position ▸ hat⟩

end Sys2Proof.Machine

/-! ## Interrupts (60_exceptions.md): the instruction boundary, the entry of a handler and the return from it -/

namespace Sys2Proof.Machine

/-! ### The instruction boundary (rule R186) -/

theorem fetchInstr_pc {s : State} {i : Instr} (h : i.operandBytes = operandCount (fetchByte s).1) :
    (fetchInstr s).2.cpu.pc = s.cpu.pc + BitVec.ofNat 16 i.length := by
  rw [fetchInstr_state, State.setPc_cpu_pc, ← h, Instr.length]

/-- Settles O8: the first three cases are `cpuStep_of_halted`, `cpuStep_nmi` and `cpuStep_irq`; else one instruction is
fetched whole, and its bytes decode (`fetchInstr_decodes`). -/
theorem interruptPriorityAtTheBoundary : Obligations.InterruptPriorityAtTheBoundary := by
  intro s
  refine ⟨cpuStep_of_halted, fun hhalted hnmi => ?nmi, fun hhalted hnmi hline hflag => ?irq,
    fun hhalted hnmi hquiet => ?instruction⟩
  case nmi => exact ⟨_, cpuStep_nmi hhalted hnmi, vectorWord_congr (by decide) (by decide) rfl rfl, rfl, rfl⟩
  case irq =>
    refine ⟨_, cpuStep_irq hhalted hnmi hline hflag, rfl, ?_, rfl⟩
    rw [afterEntry_frame]
    exact hline
  case instruction =>
    obtain ⟨i, hdecode, hwf, hcount⟩ := fetchInstr_decodes s
    have hirq : ¬ (s.irqLine = true ∧ flagI s.cpu.p = false) := by
      rintro ⟨hline, hflag⟩
      rcases hquiet with h | h
      · exact absurd (hline.symm.trans h) (by decide)
      · exact absurd (hflag.symm.trans h) (by decide)
    exact ⟨i, hdecode, hwf, fetchInstr_pc hcount,
      (cpuStep_instruction hhalted hnmi hirq).trans (instructionStep_eq hdecode)⟩

/-! ### The entry of a handler (rules R190 to R192) -/

theorem flagsKeptBut_pushedByInterrupt (p : Byte) : FlagsKeptBut [5, 4] p (pushedByInterrupt p) :=
  flagsKeptBut_of_lt fun i hlt hi => by
    obtain ⟨h5, h4⟩ : i ≠ 5 ∧ i ≠ 4 := by simpa using hi
    rw [pushedByInterrupt_getLsbD p i hlt, decide_eq_false h5, decide_eq_true h4, Bool.false_or, Bool.true_and]

/-- An entry reads nothing of the NMI request, so it may be consumed before. -/
theorem HandlerEntered.of_setNmiPending {ret : Word} {pushed : Byte} {vec : Word} {s t : State} {b : Bool}
    (h : HandlerEntered ret pushed vec (s.setNmiPending b) t) : HandlerEntered ret pushed vec s t where
  retHigh := h.retHigh
  retLow := h.retLow
  status := h.status
  cpu := by
    have hpeek (a : Word) : peek a (s.setNmiPending b) = peek a s := peek_cpu a s _ s.cycles
    rw [h.cpu, hpeek, hpeek]
    rfl
  interruptDisable := h.interruptDisable
  flags := h.flags
  cycles := h.cycles
  others a hport hne := (h.others a hport hne).trans (peek_cpu a s _ s.cycles)
  ppu := h.ppu
  ppuStorage a := (h.ppuStorage a).trans (ppuRead_congr rfl rfl rfl rfl a)
  prg := h.prg
  params := h.params
  irqLine := h.irqLine
  pixels := h.pixels

/-- Settles O15: both services are the shared entry (`handlerEntered_afterEntry`) with `pushedByInterrupt` of the
status. -/
theorem interruptServiceEntersTheHandler : Obligations.InterruptServiceEntersTheHandler := by
  intro s hs hhalted
  have hb4 : (pushedByInterrupt s.cpu.p).getLsbD 4 = false := pushedByInterrupt_getLsbD s.cpu.p 4 (by decide)
  have hb5 : (pushedByInterrupt s.cpu.p).getLsbD 5 = true := pushedByInterrupt_getLsbD s.cpu.p 5 (by decide)
  have hkept := flagsKeptBut_pushedByInterrupt s.cpu.p
  refine ⟨fun hnmi => ?nmi, fun hnmi hline hflag => ?irq⟩
  case nmi =>
    have hs' : (s.setNmiPending false).StorageLegal := ⟨hs.ram, hs.prg, hs.prgRam, hs.chr, hs.vram⟩
    exact ⟨_, _, cpuStep_nmi hhalted hnmi, (handlerEntered_afterEntry hs' _ _ _).of_setNmiPending, hb4, hb5, hkept, rfl⟩
  case irq =>
    exact ⟨_, _, cpuStep_irq hhalted hnmi hline hflag, handlerEntered_afterEntry hs _ _ _, hb4, hb5, hkept, hnmi⟩

/-! ### The return (rule R194) -/

/-- RTI takes back the status that an interrupt pushed: `P.I` was set only after the push, and bits 5 and 4 never moved. -/
theorem pulledStatus_pushedByInterrupt (p : Byte) : pulledStatus (pushedByInterrupt p) (withI true p) = p := by
  apply BitVec.eq_of_getLsbD_eq
  intro i hi
  rw [pulledStatus_getLsbD _ _ i hi]
  split
  next h => exact withI_status true p i h
  next h => exact flagsKeptBut_pushedByInterrupt p i (by simpa using h)

/-- RTI finds on the stack what the entry put there. -/
theorem exec_rti_afterEntry {s : State} (hs : s.StorageLegal) (vec : Word) :
    ∃ u, exec .rti (s.afterEntry s.cpu.pc (pushedByInterrupt s.cpu.p) vec) = .next u ∧ u.cpu = s.cpu := by
  have hentry := handlerEntered_afterEntry hs s.cpu.pc (pushedByInterrupt s.cpu.p) vec
  have h1 : s.cpu.sp - 3 + 1 = s.cpu.sp - 2 := by bv_omega
  have h2 : s.cpu.sp - 3 + 2 = s.cpu.sp - 1 := by bv_omega
  have h3 : s.cpu.sp - 3 + 3 = s.cpu.sp := by bv_omega
  have hsp : (s.afterEntry s.cpu.pc (pushedByInterrupt s.cpu.p) vec).cpu.sp = s.cpu.sp - 3 := rfl
  refine ⟨_, exec_rti _, ?_⟩
  rw [hsp, h1, h2, h3, hentry.status, hentry.retLow, hentry.retHigh, joinBytes_hi_lo]
  have hp : pulledStatus (pushedByInterrupt s.cpu.p) (s.afterEntry s.cpu.pc (pushedByInterrupt s.cpu.p) vec).cpu.p =
      s.cpu.p := pulledStatus_pushedByInterrupt s.cpu.p
  rw [hp]
  rfl

/-- Settles O18: whichever interrupt is taken, `exec_rti_afterEntry` returns to the registers it was taken with. -/
theorem rtiUndoesAnInterruptEntry : Obligations.RtiUndoesAnInterruptEntry := by
  intro s hs hhalted htaken
  by_cases hnmi : s.cpu.nmiPending = true
  · have hs' : (s.setNmiPending false).StorageLegal := ⟨hs.ram, hs.prg, hs.prgRam, hs.chr, hs.vram⟩
    obtain ⟨u, hrti, hcpu⟩ := exec_rti_afterEntry hs' 0xFFFA
    exact ⟨_, u, cpuStep_nmi hhalted hnmi, hrti, hcpu⟩
  · obtain ⟨hline, hflag⟩ := htaken.resolve_left hnmi
    rw [Bool.not_eq_true] at hnmi
    obtain ⟨u, hrti, hcpu⟩ := exec_rti_afterEntry hs 0xFFFE
    refine ⟨_, u, cpuStep_irq hhalted hnmi hline hflag, hrti, ?_⟩
    rw [hcpu, ← hnmi]

end Sys2Proof.Machine

/-! ## The dot machine (48_ppu_frame_machine.md): what the parts of a dot write -/

namespace Sys2Proof.Machine

/-! ### The lines (rules R160, R163) -/

theorem isRenderLine_iff (n : Nat) : isRenderLine n = true ↔ n ≤ 239 ∨ n = 261 := by
  rw [isRenderLine, Bool.or_eq_true, decide_eq_true_eq, decide_eq_true_eq]

theorem rendering_iff (q : Ppu) : q.rendering = true ↔ q.mask.getLsbD 3 = true ∨ q.mask.getLsbD 4 = true := by
  rw [Ppu.rendering, Bool.or_eq_true]

/-- The state in which the pixel and the fetches of a render line find the machine: after the flag events and the
sprite unit's own actions. -/
def prepared (s : State) : State := s.setPpu (spriteUnitDot (flagEvents s.ppu))

/-- The sprite unit's own actions write secondary OAM, the evaluation's results and the status. -/
theorem spriteUnitDot_fields (q : Ppu) : spriteUnitDot q = { q with
    secondaryOam := (spriteUnitDot q).secondaryOam, spriteCount := (spriteUnitDot q).spriteCount
    sprite0Selected := (spriteUnitDot q).sprite0Selected, spriteOverflow := (spriteUnitDot q).spriteOverflow
    status := (spriteUnitDot q).status } := by
  unfold spriteUnitDot
  split
  · rfl
  · split <;> rfl

theorem prepared_fields (s : State) : prepared s = { s with ppu := { s.ppu with
    secondaryOam := (prepared s).ppu.secondaryOam, spriteCount := (prepared s).ppu.spriteCount
    sprite0Selected := (prepared s).ppu.sprite0Selected, spriteOverflow := (prepared s).ppu.spriteOverflow
    status := (prepared s).ppu.status, nmiLine := (prepared s).ppu.nmiLine } } := by
  unfold prepared
  rw [spriteUnitDot_fields, flagEvents_fields]
  rfl

section
variable {s : State}

theorem dotActions_idleLine (hline : ¬ (s.ppu.scanline ≤ 239 ∨ s.ppu.scanline = 261)) :
    dotActions s = s.setPpu (flagEvents s.ppu) := by
  rw [dotActions, State.setPpu_ppu, flagEvents_fields, if_neg (mt (isRenderLine_iff _).mp hline)]

theorem dotActions_renderLine (hline : s.ppu.scanline ≤ 239 ∨ s.ppu.scanline = 261) :
    dotActions s = if s.ppu.rendering then renderedDot (prepared s) else blankDot (prepared s) := by
  have hscanline : (flagEvents s.ppu).scanline = s.ppu.scanline := by rw [flagEvents_fields]
  have hrendering : (prepared s).ppu.rendering = s.ppu.rendering := by rw [prepared_fields]; rfl
  rw [dotActions, State.setPpu_ppu, hscanline, if_pos ((isRenderLine_iff _).mpr hline), ← hrendering]
  rfl

theorem dotActions_rendered (hline : s.ppu.scanline ≤ 239 ∨ s.ppu.scanline = 261)
    (hon : s.ppu.mask.getLsbD 3 = true ∨ s.ppu.mask.getLsbD 4 = true) : dotActions s = renderedDot (prepared s) := by
  rw [dotActions_renderLine hline, if_pos ((rendering_iff _).mpr hon)]

end

/-- The end of a dot writes the read latch and the position. -/
theorem ppuStep_eq_dotActions (s : State) : ppuStep s = { dotActions s with ppu := { (dotActions s).ppu with
    vblReadLatch := false, scanline := (ppuStep s).ppu.scanline, dot := (ppuStep s).ppu.dot } } := by
  rw [ppuStep_eq, endDot, advance_fields]
  rfl

/-! ### The parts of a dot with rendering enabled -/

/-- The pixel output writes the pixels and `status`. -/
theorem pixelPart_fields (s : State) : pixelPart s =
    { s with pixels := (pixelPart s).pixels, ppu := { s.ppu with status := (pixelPart s).ppu.status } } := by
  unfold pixelPart pixelDot
  split
  · dsimp only
    split <;> rfl
  · rfl

/-- The parts after the pixel output write `v`, the OAM address, the fetch latches, the shifters and the sprite output
units, and nothing else. -/
def FetchFrame (s t : State) : Prop :=
  t = { s with ppu := { s.ppu with
    v := t.ppu.v, oamAddress := t.ppu.oamAddress
    ntLatch := t.ppu.ntLatch, atLatch := t.ppu.atLatch, ptLoLatch := t.ppu.ptLoLatch, ptHiLatch := t.ppu.ptHiLatch
    bgShiftLo := t.ppu.bgShiftLo, bgShiftHi := t.ppu.bgShiftHi
    atShiftLo := t.ppu.atShiftLo, atShiftHi := t.ppu.atShiftHi
    sprites := t.ppu.sprites, lineSpriteCount := t.ppu.lineSpriteCount, lineHasSprite0 := t.ppu.lineHasSprite0 } }

theorem FetchFrame.trans {s t u : State} (hst : FetchFrame s t) (htu : FetchFrame t u) : FetchFrame s u := by
  unfold FetchFrame at hst htu
  rw [hst] at htu
  exact htu

theorem setV_frame (s : State) (v : Scroll) : FetchFrame s (setV s v) := rfl

theorem units_frame (s : State) (a : Byte) (n : Nat) (b : Bool) (units : Vector SpriteUnit 8) :
    FetchFrame s (s.setPpu { s.ppu with
      oamAddress := a, lineSpriteCount := n, lineHasSprite0 := b, sprites := units }) := rfl

theorem backgroundPart_frame (s : State) : FetchFrame s (backgroundPart s) := by
  unfold FetchFrame backgroundPart
  split
  · rw [backgroundFetch_ppu]
    rfl
  · rfl

theorem scrollPart_frame (s : State) : FetchFrame s (scrollPart s) := by
  unfold scrollPart
  split
  · exact setV_frame s _
  · split
    · exact setV_frame s _
    · exact rfl

theorem spriteFetchPart_frame (s : State) : FetchFrame s (spriteFetchPart s) := by
  unfold spriteFetchPart
  split
  · exact units_frame s _ _ _ _
  · exact rfl

theorem verticalPart_frame (s : State) : FetchFrame s (verticalPart s) := by
  unfold verticalPart
  split
  · exact setV_frame s _
  · exact rfl

theorem extraFetchPart_frame (s : State) : FetchFrame s (extraFetchPart s) := by
  unfold FetchFrame extraFetchPart
  split <;> rfl

theorem renderedDot_frame (s : State) : FetchFrame (pixelPart s) (renderedDot s) :=
  (backgroundPart_frame _).trans <| (scrollPart_frame _).trans <| (spriteFetchPart_frame _).trans <|
    (verticalPart_frame _).trans (extraFetchPart_frame _)

/-! ### The parts that have nothing to do at a dot -/

section
variable {s : State}

theorem pixelPart_idle (h : ¬ (s.ppu.scanline ≤ 239 ∧ 1 ≤ s.ppu.dot ∧ s.ppu.dot ≤ 256)) : pixelPart s = s := by
  have htime : s.ppu.pixelTime = false := by simpa [Ppu.pixelTime] using h
  rw [pixelPart, htime]
  rfl

theorem pixelPart_active (hline : s.ppu.scanline ≤ 239) (hlo : 1 ≤ s.ppu.dot) (hhi : s.ppu.dot ≤ 256) :
    pixelPart s = pixelDot s := by
  have htime : s.ppu.pixelTime = true := by simpa [Ppu.pixelTime] using ⟨hline, hlo, hhi⟩
  rw [pixelPart, if_pos htime]

theorem fetchTime_iff (q : Ppu) :
    q.fetchTime = true ↔ 1 ≤ q.dot ∧ q.dot ≤ 256 ∨ 321 ≤ q.dot ∧ q.dot ≤ 336 := by simp [Ppu.fetchTime]

theorem backgroundPart_idle (h : ¬ (1 ≤ s.ppu.dot ∧ s.ppu.dot ≤ 256 ∨ 321 ≤ s.ppu.dot ∧ s.ppu.dot ≤ 336)) :
    backgroundPart s = s := by
  rw [backgroundPart, if_neg (mt (fetchTime_iff _).mp h)]

theorem scrollPart_idle (h : s.ppu.dot ≠ 256) (h' : s.ppu.dot ≠ 257) : scrollPart s = s := by
  rw [scrollPart, if_neg h, if_neg h']

theorem spriteFetchPart_idle (h : ¬ (257 ≤ s.ppu.dot ∧ s.ppu.dot ≤ 320)) : spriteFetchPart s = s := by
  rw [spriteFetchPart, if_neg h]

theorem verticalPart_idle (h : ¬ (s.ppu.scanline = 261 ∧ 280 ≤ s.ppu.dot ∧ s.ppu.dot ≤ 304)) :
    verticalPart s = s := by
  rw [verticalPart, if_neg h]

theorem extraFetchPart_idle (h : s.ppu.dot ≠ 338) (h' : s.ppu.dot ≠ 340) : extraFetchPart s = s := by
  rw [extraFetchPart, if_neg (by rintro (he | he) <;> contradiction)]

theorem spriteUnitDot_idle {q : Ppu} (h : ¬ (1 ≤ q.dot ∧ q.dot ≤ 64)) (h' : q.dot ≠ 256) : spriteUnitDot q = q := by
  rw [spriteUnitDot, if_neg h, if_neg h']

theorem flagEvents_idle {q : Ppu} (h : ¬ (q.scanline = 241 ∧ q.dot = 1)) (h' : ¬ (q.scanline = 261 ∧ q.dot = 1)) :
    flagEvents q = q := by
  rw [flagEvents, if_neg h, if_neg h']

/-- Away from dot 1, the clear and the evaluation, a render line finds the machine as it was. -/
theorem prepared_idle (h : s.ppu.dot = 0 ∨ 65 ≤ s.ppu.dot) (h' : s.ppu.dot ≠ 256) : prepared s = s := by
  rw [prepared, flagEvents_idle (by omega) (by omega), spriteUnitDot_idle (by omega) h', State.setPpu_self]

/-- The dots of the background pipeline. -/
theorem renderedDot_fetchDots (h : 1 ≤ s.ppu.dot ∧ s.ppu.dot ≤ 256 ∨ 321 ≤ s.ppu.dot ∧ s.ppu.dot ≤ 336) :
    renderedDot s = scrollPart (backgroundPart (pixelPart s)) := by
  have hkeeps : DotKeeps s (scrollPart (backgroundPart (pixelPart s))) :=
    (pixelPart_keeps s).trans ((backgroundPart_keeps _).trans (scrollPart_keeps _))
  have hdot := hkeeps.dot
  rw [renderedDot, spriteFetchPart_idle (by omega), verticalPart_idle (by omega),
    extraFetchPart_idle (by omega) (by omega)]

/-- The dots of the sprite fetch. -/
theorem renderedDot_spriteDots (hlo : 257 ≤ s.ppu.dot) (hhi : s.ppu.dot ≤ 320) :
    renderedDot s = verticalPart (spriteFetchPart (scrollPart s)) := by
  have hkeeps : DotKeeps s (verticalPart (spriteFetchPart (scrollPart s))) :=
    (scrollPart_keeps s).trans ((spriteFetchPart_keeps _).trans (verticalPart_keeps _))
  have hdot := hkeeps.dot
  rw [renderedDot, pixelPart_idle (by omega), backgroundPart_idle (by omega),
    extraFetchPart_idle (by omega) (by omega)]

/-- Dot 0 and the last dots of a line. -/
theorem renderedDot_otherDots (h : s.ppu.dot = 0 ∨ 337 ≤ s.ppu.dot) : renderedDot s = extraFetchPart s := by
  rw [renderedDot, pixelPart_idle (by omega), backgroundPart_idle (by omega), scrollPart_idle (by omega) (by omega),
    spriteFetchPart_idle (by omega), verticalPart_idle (by omega)]

theorem blankDot_idle (h : ¬ (s.ppu.scanline ≤ 239 ∧ 1 ≤ s.ppu.dot ∧ s.ppu.dot ≤ 256)) : blankDot s = s := by
  have htime : s.ppu.pixelTime = false := by simpa [Ppu.pixelTime] using h
  rw [blankDot, htime]
  rfl

theorem blankDot_active (hline : s.ppu.scanline ≤ 239) (hlo : 1 ≤ s.ppu.dot) (hhi : s.ppu.dot ≤ 256) :
    blankDot s = backdropDot s := by
  have htime : s.ppu.pixelTime = true := by simpa [Ppu.pixelTime] using ⟨hline, hlo, hhi⟩
  rw [blankDot, if_pos htime]

end

theorem blankDot_ppu (s : State) : (blankDot s).ppu = s.ppu := by
  unfold blankDot
  split <;> rfl

/-! ### Status and evaluation results (rules R164 to R168) -/

theorem FlagsKeptBut.trans {k l : List Nat} {p q r : Byte} (hpq : FlagsKeptBut k p q) (hqr : FlagsKeptBut l q r) :
    FlagsKeptBut (k ++ l) p r := fun i hi => by
  obtain ⟨hk, hl⟩ : i ∉ k ∧ i ∉ l := by simpa using hi
  exact (hqr i hl).trans (hpq i hk)

theorem FlagsKeptBut.refl (k : List Nat) (p : Byte) : FlagsKeptBut k p p := fun _ _ => rfl

theorem pixelPart_status (s : State) : FlagsKeptBut [6] s.ppu.status (pixelPart s).ppu.status := by
  unfold pixelPart pixelDot
  split
  · dsimp only
    split
    · exact flagsKeptBut_putBit 6 true s.ppu.status
    · exact .refl _ _
  · exact .refl _ _

theorem spriteUnitDot_status (q : Ppu) : FlagsKeptBut [5] q.status (spriteUnitDot q).status := by
  unfold spriteUnitDot
  split
  · exact .refl _ _
  · split
    · unfold evaluateSprites
      dsimp only
      split
      · exact flagsKeptBut_putBit 5 true q.status
      · exact .refl _ _
    · exact .refl _ _

section
variable {s : State} (hline : s.ppu.scanline ≤ 239 ∨ s.ppu.scanline = 261)
include hline

/-- What a render line's dot hands on from the sprite unit, and what the pixel output alone decides: `status` and the
pixels. -/
theorem ppuStep_renderLine :
    (ppuStep s).ppu.secondaryOam = (prepared s).ppu.secondaryOam ∧
      (ppuStep s).ppu.spriteCount = (prepared s).ppu.spriteCount ∧
      (ppuStep s).ppu.sprite0Selected = (prepared s).ppu.sprite0Selected ∧
      (ppuStep s).ppu.spriteOverflow = (prepared s).ppu.spriteOverflow ∧
      (ppuStep s).ppu.status =
        (if s.ppu.rendering then (pixelPart (prepared s)).ppu.status else (prepared s).ppu.status) ∧
      (ppuStep s).pixels =
        (if s.ppu.rendering then (pixelPart (prepared s)).pixels else (blankDot (prepared s)).pixels) := by
  rw [ppuStep_eq_dotActions, dotActions_renderLine hline]
  split
  · have hframe : FetchFrame _ _ := renderedDot_frame (prepared s)
    have hpixel := pixelPart_fields (prepared s)
    unfold FetchFrame at hframe
    rw [hframe]
    dsimp only
    refine ⟨?_, ?_, ?_, ?_, rfl, rfl⟩ <;> rw [hpixel]
  · dsimp only
    rw [blankDot_ppu]
    exact ⟨rfl, rfl, rfl, rfl, rfl, rfl⟩

/-- After the sprite unit only the sprite-0 hit writes `status`. -/
theorem ppuStep_status_prepared : FlagsKeptBut [6] (prepared s).ppu.status (ppuStep s).ppu.status := by
  obtain ⟨-, -, -, -, hstatus, -⟩ := ppuStep_renderLine hline
  rw [hstatus]
  split
  · exact pixelPart_status _
  · exact .refl _ _

/-- On a render line only the pre-render clear writes the VBlank flag. -/
theorem ppuStep_status_flagEvents : FlagsKeptBut [5, 6] (flagEvents s.ppu).status (ppuStep s).ppu.status :=
  (spriteUnitDot_status _).trans (ppuStep_status_prepared hline)

end

end Sys2Proof.Machine

/-! ## The flag events of the dot machine (48_ppu_frame_machine.md rules R160 to R166) -/

namespace Sys2Proof.Machine

/-! ### VBlank entry (rule R164) -/

theorem enterVBlank_suppressed {q : Ppu} (h : q.vblReadLatch = true) : enterVBlank q = q := if_pos h

theorem enterVBlank_free {q : Ppu} (h : q.vblReadLatch = false) : enterVBlank q =
    { q with status := putBit 7 true q.status, nmiLine := q.nmiLine || q.ctrl.getLsbD 7 } := by
  rw [enterVBlank, h, if_neg Bool.false_ne_true]

section
variable {s : State} (hs : s.ppu.scanline = 241) (hd : s.ppu.dot = 1)
include hs hd

/-- The dot (241, 1) is VBlank entry and nothing else. -/
theorem ppuStep_vblankEntry :
    ppuStep s = s.setPpu { enterVBlank s.ppu with vblReadLatch := false, scanline := 241, dot := 2 } := by
  obtain ⟨hdot, hscanline⟩ := ppuStep_scanline_dot s
  have hevents : flagEvents s.ppu = enterVBlank s.ppu := if_pos ⟨hs, hd⟩
  rw [hd] at hdot
  rw [hs, hd] at hscanline
  rw [ppuStep_eq_dotActions, hdot, hscanline, dotActions_idleLine (by omega), hevents]
  rfl

end

/-- Settles O48: the dot is `enterVBlank` (`ppuStep_vblankEntry`), and what it makes of the read latch are the two cases. -/
theorem vBlankEntryDot : Obligations.VBlankEntryDot := by
  intro s hs hd hline
  dsimp only
  rw [clockDot_eq, ppuStep_vblankEntry hs hd]
  cases hlatch : s.ppu.vblReadLatch with
  | true =>
    rw [enterVBlank_suppressed hlatch]
    simp [State.setPpu, hs, hline, FlagsKeptBut.refl]
  | false =>
    rw [enterVBlank_free hlatch, hline]
    have hbit : (putBit 7 true s.ppu.status).getLsbD 7 = true := putBit_getLsbD 7 true s.ppu.status 7
    simp [State.setPpu, hs, hbit, flagsKeptBut_putBit]

/-! ### The pre-render clear, and the dots without a flag event (rules R162, R165, R166) -/

/-- The status that the pre-render clear leaves. -/
theorem clearFlags_status (q : Ppu) (i : Nat) :
    (clearFlags q).status.getLsbD i = (decide (i < 5) && q.status.getLsbD i) := by
  rw [clearFlags, putBit_getLsbD, putBit_getLsbD, putBit_getLsbD]
  by_cases hlow : i < 5
  · rw [if_neg (by omega), if_neg (by omega), if_neg (by omega), decide_eq_true hlow, Bool.true_and]
  · rw [decide_eq_false hlow, Bool.false_and]
    by_cases hhigh : i < 8
    · split
      · rfl
      · split
        · rfl
        · rw [if_pos (by omega)]
    · rw [if_neg (by omega), if_neg (by omega), if_neg (by omega)]
      exact BitVec.getLsbD_of_ge _ _ (by omega)

section
variable {s : State}

/-- The clear is all that becomes of `status` and `sprite_overflow` at the dot (261, 1): no pixel is sent out there. -/
theorem ppuStep_preRenderClear (hs : s.ppu.scanline = 261) (hd : s.ppu.dot = 1) :
    (ppuStep s).ppu.status = (clearFlags s.ppu).status ∧ (ppuStep s).ppu.spriteOverflow = false := by
  obtain ⟨-, -, -, hoverflow, hstatus, -⟩ := ppuStep_renderLine (s := s) (.inr hs)
  have hevents : flagEvents s.ppu = clearFlags s.ppu := by rw [flagEvents, if_neg (by omega), if_pos ⟨hs, hd⟩]
  have hprepared : prepared s = s.setPpu (clearSecondary (clearFlags s.ppu)) := by
    have hdot : 1 ≤ (clearFlags s.ppu).dot ∧ (clearFlags s.ppu).dot ≤ 64 := by
      show 1 ≤ s.ppu.dot ∧ s.ppu.dot ≤ 64
      omega
    rw [prepared, hevents, spriteUnitDot, if_pos hdot]
  have hscanline : (prepared s).ppu.scanline = 261 := by rw [prepared_fields]; exact hs
  rw [pixelPart_idle (by omega), ite_self, hprepared] at hstatus
  rw [hprepared] at hoverflow
  exact ⟨hstatus, hoverflow⟩

/-- Only the two flag events write the VBlank flag. -/
theorem ppuStep_vblankFlag (hentry : ¬ (s.ppu.scanline = 241 ∧ s.ppu.dot = 1))
    (hclear : ¬ (s.ppu.scanline = 261 ∧ s.ppu.dot = 1)) :
    (ppuStep s).ppu.status.getLsbD 7 = s.ppu.status.getLsbD 7 := by
  have hevents := flagEvents_idle hentry hclear
  by_cases hline : s.ppu.scanline ≤ 239 ∨ s.ppu.scanline = 261
  · have hkept := ppuStep_status_flagEvents hline
    rw [hevents] at hkept
    exact hkept 7 (by decide)
  · rw [ppuStep_eq_dotActions, dotActions_idleLine hline, hevents, State.setPpu_self]

/-- Dot 0, and the lines 240 to 260 but for VBlank entry, have no action. -/
theorem dotActions_none (h : s.ppu.dot = 0 ∨ 240 ≤ s.ppu.scanline ∧ s.ppu.scanline ≤ 260)
    (hentry : ¬ (s.ppu.scanline = 241 ∧ s.ppu.dot = 1)) : dotActions s = s := by
  by_cases hline : s.ppu.scanline ≤ 239 ∨ s.ppu.scanline = 261
  · have hdot : s.ppu.dot = 0 := by omega
    rw [dotActions_renderLine hline, prepared_idle (.inl hdot) (by omega), renderedDot_otherDots (.inl hdot),
      extraFetchPart_idle (by omega) (by omega), blankDot_idle (by omega), ite_self]
  · rw [dotActions_idleLine hline, flagEvents_idle hentry (by omega), State.setPpu_self]

/-- The advance of the position with the last dot named (rules R161, R162). -/
theorem ppuStep_position_fields (s : State) :
    (ppuStep s).ppu.dot = (if s.ppu.dot = 340 then 0 else s.ppu.dot + 1) ∧
      (ppuStep s).ppu.scanline = (if s.ppu.dot = 340 then (if s.ppu.scanline = 261 then 0 else s.ppu.scanline + 1)
        else s.ppu.scanline) := by
  simpa using ppuStep_scanline_dot s

end

/-- Settles O49: the clear by `ppuStep_preRenderClear`, the NMI line by `ppuStep_nmiLine`, the flag by
`ppuStep_vblankFlag`, the idle dots by `dotActions_none`. -/
theorem preRenderClearAndVBlankElsewhere : Obligations.PreRenderClearAndVBlankElsewhere := by
  intro s
  have hcpu : (ppuStep s).cpu = s.cpu := by rw [ppuStep_rest]
  have hline (h : ¬ (s.ppu.scanline = 241 ∧ s.ppu.dot = 1)) : (ppuStep s).ppu.nmiLine = s.ppu.nmiLine := by
    rw [ppuStep_nmiLine, decide_eq_false h, Bool.false_and, Bool.or_false]
  refine ⟨fun hs hd => ?clear, fun hentry => ⟨hline hentry, ppuStep_vblankFlag hentry⟩, fun hidle hentry => ?idle⟩
  case clear =>
    obtain ⟨hstatus, hoverflow⟩ := ppuStep_preRenderClear hs hd
    have hline' := hline (by omega)
    rw [clockDot_eq, hstatus, hline']
    exact ⟨clearFlags_status s.ppu, hoverflow, rfl, hcpu, rfl, hoverflow, rfl⟩
  case idle =>
    obtain ⟨hdot, hscanline⟩ := ppuStep_position_fields s
    rw [← hdot, ← hscanline, ppuStep_eq_dotActions, dotActions_none hidle hentry]

end Sys2Proof.Machine

/-! ## The sprite unit of the dot machine (48_ppu_frame_machine.md rules R167, R168) -/

namespace Sys2Proof.Machine

/-! ### The secondary-OAM clear (rule R167) -/

/-- The flag events leave what the sprite unit works on. -/
theorem flagEvents_spriteUnit (q : Ppu) :
    (flagEvents q).dot = q.dot ∧ (flagEvents q).secondaryOam = q.secondaryOam ∧
      (flagEvents q).spriteCount = q.spriteCount ∧ (flagEvents q).sprite0Selected = q.sprite0Selected := by
  rw [flagEvents_fields]
  exact ⟨rfl, rfl, rfl, rfl⟩

theorem clearSecondary_secondaryByte (q : Ppu) {i : Nat} (hi : i < 32) :
    (clearSecondary q).secondaryByte i = if i = (q.dot - 1) / 2 then 0xFF else q.secondaryByte i := by
  rw [clearSecondary, Ppu.secondaryByte, Vector.getElem?_setIfInBounds]
  split
  next h =>
    rw [if_pos (h ▸ hi), if_pos h.symm]
    rfl
  next h => rw [if_neg (Ne.symm h)]; rfl

section
variable {s : State} (hline : s.ppu.scanline ≤ 239 ∨ s.ppu.scanline = 261)
include hline

/-- The three effects of a dot of the clear. -/
theorem ppuStep_clearSecondary (hlo : 1 ≤ s.ppu.dot) (hhi : s.ppu.dot ≤ 64) :
    (∀ i, i < 32 → (ppuStep s).ppu.secondaryByte i =
      if i = (s.ppu.dot - 1) / 2 then 0xFF else s.ppu.secondaryByte i) ∧
      (ppuStep s).ppu.spriteCount = (if s.ppu.dot = 1 then 0 else s.ppu.spriteCount) ∧
      (ppuStep s).ppu.sprite0Selected = (if s.ppu.dot = 1 then false else s.ppu.sprite0Selected) := by
  obtain ⟨hoam, hcount, hselected, -⟩ := ppuStep_renderLine hline
  obtain ⟨hdot, hoam', hcount', hselected'⟩ := flagEvents_spriteUnit s.ppu
  have hprepared : (prepared s).ppu = clearSecondary (flagEvents s.ppu) := if_pos (by rw [hdot]; exact ⟨hlo, hhi⟩)
  rw [hprepared] at hoam hcount hselected
  refine ⟨fun i hi => ?_, ?_, ?_⟩
  · have hbyte := clearSecondary_secondaryByte (flagEvents s.ppu) hi
    rw [Ppu.secondaryByte, hoam, ← Ppu.secondaryByte, hbyte, hdot, Ppu.secondaryByte, hoam', ← Ppu.secondaryByte]
  · rw [hcount, clearSecondary, hdot, hcount']
  · rw [hselected, clearSecondary, hdot, hselected']

/-- `n` dots into the clear the position is `n` dots on and the bytes before it are $FF. -/
theorem iterate_ppuStep_clear {n : Nat} (hn : n ≤ 64) (hd : s.ppu.dot = 1) :
    (ppuStep^[n] s).ppu.scanline = s.ppu.scanline ∧ (ppuStep^[n] s).ppu.dot = n + 1 ∧
      ∀ i, i < 32 → 2 * i < n → (ppuStep^[n] s).ppu.secondaryByte i = 0xFF := by
  induction n with
  | zero => exact ⟨rfl, hd, fun i _ h => absurd h (Nat.not_lt_zero _)⟩
  | succ n ih =>
    obtain ⟨hscanline, hdot, hbytes⟩ := ih (by omega)
    obtain ⟨hdot', hscanline'⟩ := ppuStep_position_fields (ppuStep^[n] s)
    rw [hdot, if_neg (by omega)] at hdot' hscanline'
    rw [Function.iterate_succ_apply']
    refine ⟨hscanline'.trans hscanline, hdot', fun i hi hlt => ?_⟩
    obtain ⟨hclear, -⟩ :=
      ppuStep_clearSecondary (s := ppuStep^[n] s) (by rw [hscanline]; exact hline) (by omega) (by omega)
    rw [hclear i hi, hdot]
    split
    next => rfl
    next h => exact hbytes i hi (by omega)

end

/-- Settles O51: one dot is `ppuStep_clearSecondary`, the 64 dots `iterate_ppuStep_clear`. -/
theorem secondaryOamClearDots : Obligations.SecondaryOamClearDots := by
  intro s hline
  refine ⟨ppuStep_clearSecondary hline, fun hd i hi => ?_⟩
  obtain ⟨-, -, hbytes⟩ := iterate_ppuStep_clear hline (Nat.le_refl 64) hd
  exact hbytes i hi (by omega)

/-! ### The evaluation (rule R168) -/

/-- A sprite in range: it goes into the next slot, or flags overflow when the slots are full. -/
def selectSprite (oam : Memory) (e : Evaluation) (n : Nat) : Evaluation :=
  if e.count < 8 then
    { e with
      count := e.count + 1
      slots := copySprite oam n e.count e.slots
      sprite0 := if n = 0 then true else e.sprite0 }
  else { e with overflow := true }

/-- The pass is a pass over the sprites in range. -/
theorem foldl_evaluateSprite (q : Ppu) (ns : List Nat) (e : Evaluation) :
    ns.foldl (evaluateSprite q) e = (ns.filter (spriteInRange q)).foldl (selectSprite q.oam) e := by
  rw [List.foldl_filter]
  rfl

/-- Slot `k` after sprite `n` is copied there. -/
theorem copySprite_getElem? (oam : Memory) (n k : Nat) (slots : Vector Byte 32) {i : Nat} (hi : i < 32) :
    (copySprite oam n k slots)[i]? =
      if 4 * k ≤ i ∧ i < 4 * k + 4 then some (oam.read (4 * n + (i - 4 * k))) else slots[i]? := by
  unfold copySprite
  simp only [Vector.getElem?_setIfInBounds]
  by_cases hin : 4 * k ≤ i ∧ i < 4 * k + 4
  · rw [if_pos hin]
    obtain ⟨j, rfl⟩ := Nat.exists_eq_add_of_le hin.1
    obtain rfl | rfl | rfl | rfl : j = 0 ∨ j = 1 ∨ j = 2 ∨ j = 3 := by omega
    · simp [show 4 * k < 32 from hi]
    all_goals simp [hi]
  · rw [if_neg (by omega), if_neg (by omega), if_neg (by omega), if_neg (by omega), if_neg hin]

section
variable (oam : Memory) {e : Evaluation} (n : Nat)

theorem selectSprite_free (h : e.count < 8) : selectSprite oam e n =
    { e with
      count := e.count + 1, slots := copySprite oam n e.count e.slots
      sprite0 := if n = 0 then true else e.sprite0 } := if_pos h

theorem selectSprite_full (h : ¬ e.count < 8) : selectSprite oam e n = { e with overflow := true } := if_neg h

end

section
variable (oam : Memory) (ns : List Nat) {e : Evaluation}

/-- Eight slots at most are filled, and a ninth sprite flags overflow. -/
theorem foldl_selectSprite_count (he : e.count ≤ 8) :
    (ns.foldl (selectSprite oam) e).count = min 8 (e.count + ns.length) ∧
      (ns.foldl (selectSprite oam) e).overflow = (e.overflow || decide (8 < e.count + ns.length)) := by
  induction ns generalizing e with
  | nil =>
    rw [List.foldl_nil, List.length_nil, decide_eq_false (by omega), Bool.or_false]
    exact ⟨by omega, rfl⟩
  | cons n ns ih =>
    rw [List.foldl_cons, List.length_cons]
    by_cases hfree : e.count < 8
    · have hnext := ih (e := selectSprite oam e n) (by rw [selectSprite_free oam n hfree]; exact hfree)
      rw [hnext.1, hnext.2, selectSprite_free oam n hfree]
      dsimp only
      rw [Nat.add_assoc, Nat.add_comm 1]
      exact ⟨rfl, rfl⟩
    · have hnext := ih (e := selectSprite oam e n) (by rw [selectSprite_full oam n hfree]; exact he)
      rw [hnext.1, hnext.2, selectSprite_full oam n hfree]
      dsimp only
      rw [Bool.true_or, decide_eq_true (by omega : 8 < e.count + (ns.length + 1)), Bool.or_true]
      exact ⟨by omega, rfl⟩

/-- Sprite 0 is selected when it is among the sprites that get a slot. -/
theorem foldl_selectSprite_sprite0 :
    (ns.foldl (selectSprite oam) e).sprite0 = (e.sprite0 || decide (0 ∈ ns.take (8 - e.count))) := by
  induction ns generalizing e with
  | nil => simp
  | cons n ns ih =>
    rw [List.foldl_cons]
    by_cases hfree : e.count < 8
    · have hroom : 8 - e.count = 8 - (e.count + 1) + 1 := by omega
      rw [ih, selectSprite_free oam n hfree, hroom, List.take_succ_cons]
      by_cases hn : n = 0
      · simp [hn]
      · simp [hn, Ne.symm hn]
    · rw [ih, selectSprite_full oam n hfree]
      simp [show 8 - e.count = 0 by omega]

/-- The bytes outside the slots that are filled stay. -/
theorem foldl_selectSprite_kept {i : Nat} (hi : i < 32) (hout : i < 4 * e.count ∨ 4 * (e.count + ns.length) ≤ i) :
    (ns.foldl (selectSprite oam) e).slots[i]? = e.slots[i]? := by
  induction ns generalizing e with
  | nil => rfl
  | cons n ns ih =>
    rw [List.length_cons] at hout
    rw [List.foldl_cons]
    by_cases hfree : e.count < 8
    · have hcount : (selectSprite oam e n).count = e.count + 1 := by rw [selectSprite_free oam n hfree]
      rw [ih (by omega), selectSprite_free oam n hfree]
      dsimp only
      rw [copySprite_getElem? oam n e.count e.slots hi, if_neg (by omega)]
    · have hcount : (selectSprite oam e n).count = e.count := by rw [selectSprite_full oam n hfree]
      rw [ih (by omega), selectSprite_full oam n hfree]

/-- The sprites get the slots in their order. -/
theorem foldl_selectSprite_filled {k n j : Nat} (hk : e.count + k < 8) (hn : ns[k]? = some n) (hj : j < 4) :
    (ns.foldl (selectSprite oam) e).slots[4 * (e.count + k) + j]? = some (oam.read (4 * n + j)) := by
  induction ns generalizing e k with
  | nil => cases hn
  | cons m ns ih =>
    have hfree : e.count < 8 := by omega
    have hcount : (selectSprite oam e m).count = e.count + 1 := by rw [selectSprite_free oam m hfree]
    rw [List.foldl_cons]
    cases k with
    | zero =>
      obtain rfl : m = n := by simpa using hn
      rw [foldl_selectSprite_kept oam ns (by omega) (by omega), selectSprite_free oam m hfree]
      dsimp only
      rw [copySprite_getElem? oam m e.count e.slots (by omega), if_pos (by omega), Nat.add_zero,
        Nat.add_sub_cancel_left]
    | succ k =>
      have hnext := ih (e := selectSprite oam e m) (k := k) (by omega) (by simpa using hn)
      rwa [hcount, Nat.add_assoc, Nat.add_comm 1] at hnext

end

/-- Sprite 0 stands first in OAM, so if it is in range it gets a slot. -/
theorem zero_mem_take_filter_range (p : Nat → Bool) :
    0 ∈ ((List.range 64).filter p).take 8 ↔ 0 ∈ (List.range 64).filter p := by
  refine ⟨List.mem_of_mem_take, fun h => ?_⟩
  have hp : p 0 = true := (List.mem_filter.mp h).2
  rw [List.range_eq_range', List.range'_succ, List.filter_cons_of_pos hp, List.take_succ_cons]
  exact List.mem_cons_self

/-- The sprites in range, in OAM order. -/
def spritesInRange (q : Ppu) : List Nat := (List.range 64).filter (spriteInRange q)

/-- Range as the rule states it, without a subtraction. -/
theorem spriteInRange_eq (q : Ppu) (n : Nat) : spriteInRange q n =
    decide ((q.oam.read (4 * n)).toNat ≤ q.scanline ∧
      q.scanline < (q.oam.read (4 * n)).toNat + if q.ctrl.getLsbD 5 then 16 else 8) := by
  rw [spriteInRange, ← Bool.decide_and, decide_eq_decide, Ppu.spriteHeight]
  split <;> omega

section
variable (q : Ppu)

theorem evaluation_eq : evaluation q =
    (spritesInRange q).foldl (selectSprite q.oam) ⟨0, q.secondaryOam, q.sprite0Selected, false⟩ :=
  foldl_evaluateSprite q _ _

theorem evaluation_count : (evaluation q).count = min 8 (spritesInRange q).length := by
  obtain ⟨hcount, -⟩ := foldl_selectSprite_count q.oam (spritesInRange q)
    (e := ⟨0, q.secondaryOam, q.sprite0Selected, false⟩) (Nat.zero_le 8)
  rw [evaluation_eq, hcount, Nat.zero_add]

theorem evaluation_overflow : (evaluation q).overflow = decide (8 < (spritesInRange q).length) := by
  obtain ⟨-, hoverflow⟩ := foldl_selectSprite_count q.oam (spritesInRange q)
    (e := ⟨0, q.secondaryOam, q.sprite0Selected, false⟩) (Nat.zero_le 8)
  rw [evaluation_eq, hoverflow, Bool.false_or, Nat.zero_add]

theorem evaluation_sprite0 :
    (evaluation q).sprite0 = (q.sprite0Selected || decide (0 ∈ spritesInRange q)) := by
  have hzero : (0 ∈ (spritesInRange q).take 8) = (0 ∈ spritesInRange q) := propext (zero_mem_take_filter_range _)
  rw [evaluation_eq, foldl_selectSprite_sprite0 q.oam]
  simp only [Nat.sub_zero, hzero]

theorem evaluation_filled {k n j : Nat} (hk : k < 8) (hn : (spritesInRange q)[k]? = some n) (hj : j < 4) :
    (evaluation q).slots[4 * k + j]? = some (q.oam.read (4 * n + j)) := by
  have hslot := foldl_selectSprite_filled q.oam (spritesInRange q)
    (e := ⟨0, q.secondaryOam, q.sprite0Selected, false⟩) (k := k) (by dsimp only; omega) hn hj
  rwa [← evaluation_eq, Nat.zero_add] at hslot

theorem evaluation_kept {i : Nat} (hi : 4 * (evaluation q).count ≤ i) :
    (evaluation q).slots[i]? = q.secondaryOam[i]? := by
  rw [evaluation_count] at hi
  by_cases hlt : i < 32
  · rw [evaluation_eq, foldl_selectSprite_kept q.oam _ hlt (by dsimp only; omega)]
  · rw [Vector.getElem?_eq_none (by omega), Vector.getElem?_eq_none (by omega)]

theorem evaluateSprites_overflowFlag : (evaluateSprites q).status.getLsbD 5 =
    (q.status.getLsbD 5 || (evaluation q).overflow) := by
  unfold evaluateSprites
  dsimp only
  split
  next h =>
    rw [putBit_getLsbD, h, Bool.or_true]
    rfl
  next h => rw [Bool.eq_false_iff.mpr h, Bool.or_false]

end

/-- Settles O50: the action of dot 256 is the evaluation, whose count, slots and flags the `evaluation_` lemmas give. -/
theorem spriteEvaluationFillsTheSlots : Obligations.SpriteEvaluationFillsTheSlots := by
  intro s hline hd
  have hprepared : (prepared s).ppu = evaluateSprites s.ppu := by
    rw [prepared, flagEvents_idle (by omega) (by omega), spriteUnitDot, if_neg (by omega), if_pos hd]
    rfl
  intro h found
  have hfound : found = spritesInRange s.ppu := List.filter_congr fun n _ => (spriteInRange_eq s.ppu n).symm
  obtain ⟨hoam, hcount, hselected, hoverflow, -⟩ := ppuStep_renderLine hline
  have hstatus := ppuStep_status_prepared hline 5 (by decide)
  rw [hprepared] at hoam hcount hselected hoverflow hstatus
  have hbyte (i : Nat) : (ppuStep s).ppu.secondaryByte i = (evaluation s.ppu).slots[i]?.getD 0 := by
    rw [Ppu.secondaryByte, hoam]
    rfl
  rw [hfound, ← evaluation_count, ← evaluation_overflow]
  refine ⟨hcount, fun k n j hk hn hj => ?filled, fun i hi => ?kept, hoverflow,
    hstatus.trans (evaluateSprites_overflowFlag _), hselected.trans (evaluation_sprite0 _)⟩
  case filled => rw [hbyte, evaluation_filled s.ppu hk hn hj, Option.getD_some]
  case kept =>
    have hi' : 4 * (evaluateSprites s.ppu).spriteCount ≤ i := hcount ▸ hi
    rw [hbyte, evaluation_kept s.ppu hi', Ppu.secondaryByte]

end Sys2Proof.Machine

/-! ## Dots without rendering, and the background pipeline (48_ppu_frame_machine.md rules R163, R170 to R177) -/

namespace Sys2Proof.Machine

/-! ### Rendering disabled (rule R163) -/

theorem rendering_off {q : Ppu} (h3 : q.mask.getLsbD 3 = false) (h4 : q.mask.getLsbD 4 = false) :
    q.rendering = false := by
  rw [Ppu.rendering, h3, h4]
  rfl

/-- The pixels a dot hands over with rendering disabled. -/
theorem blankDot_pixels (s : State) : (blankDot s).pixels = s.pixels ++
    if s.ppu.scanline ≤ 239 ∧ 1 ≤ s.ppu.dot ∧ s.ppu.dot ≤ 256 then
      [⟨s.ppu.scanline, s.ppu.dot - 1, s.ppu.colourOut 0⟩]
    else [] := by
  split
  next h => rw [blankDot_active h.1 h.2.1 h.2.2]; rfl
  next h => rw [blankDot_idle h, List.append_nil]

/-- Settles O52: without rendering a dot is the flag events, the sprite unit's own actions and the backdrop
(`prepared_fields`, `blankDot_pixels`). -/
theorem renderingDisabledStopsThePipeline : Obligations.RenderingDisabledStopsThePipeline := by
  intro s h3 h4
  dsimp only
  have hoff := rendering_off h3 h4
  by_cases hline : s.ppu.scanline ≤ 239 ∨ s.ppu.scanline = 261
  · have hactions : dotActions s = blankDot (prepared s) := by
      rw [dotActions_renderLine hline, hoff]
      rfl
    rw [ppuStep_eq_dotActions, hactions, blankDot_pixels, blankDot_ppu]
    dsimp only
    rw [prepared_fields]
    exact ⟨rfl, rfl⟩
  · rw [ppuStep_eq_dotActions, dotActions_idleLine hline, if_neg (by omega), List.append_nil]
    dsimp only [State.setPpu]
    rw [flagEvents_fields]
    exact ⟨rfl, rfl⟩

end Sys2Proof.Machine

/-! ## The scroll registers (48_ppu_frame_machine.md rules R171, R174 to R177) -/

namespace Sys2Proof.Machine

/-! ### The changes of `v`, field by field -/

theorem coarseX_eq_31_add_one {v : Scroll} (h : coarseX v = 31) : coarseX v + 1 = 0 := by rw [h]; rfl

theorem incrementCoarseX_getLsbD (v : Scroll) (i : Nat) : (incrementCoarseX v).getLsbD i =
    if i < 5 then (coarseX v + 1).getLsbD i
    else if i = 10 then (v.getLsbD 10 ^^ decide (coarseX v = 31)) else v.getLsbD i := by
  unfold incrementCoarseX
  split
  next h =>
    rw [putBit_getLsbD, putField_getLsbD, coarseX_eq_31_add_one h, decide_eq_true h, Bool.xor_true]
    by_cases hlow : i < 5
    · rw [if_neg (by omega), if_pos (by omega), if_pos hlow, Nat.sub_zero]
    · rw [if_neg (by omega : ¬ (0 ≤ i ∧ i < 0 + 5 ∧ i < 15)), if_neg hlow]
      by_cases hten : i = 10
      · rw [if_pos (by omega), if_pos hten]
      · rw [if_neg (by omega), if_neg hten]
  next h =>
    rw [putField_getLsbD, decide_eq_false h, Bool.xor_false]
    by_cases hlow : i < 5
    · rw [if_pos (by omega), if_pos hlow, Nat.sub_zero]
    · rw [if_neg (by omega), if_neg hlow]
      split
      next hten => rw [hten]
      next => rfl

section
variable {v : Scroll}

theorem fineY_lt_seven_iff (v : Scroll) : (fineY v).toNat < 7 ↔ fineY v ≠ 7 := by
  have hlt := (fineY v).isLt
  rw [Ne, ← BitVec.toNat_inj]
  change _ ↔ ¬ _ = 7
  omega

theorem incrementY_fine (h : fineY v ≠ 7) : incrementY v = putField 12 (fineY v + 1) v :=
  if_pos ((fineY_lt_seven_iff v).mpr h)

/-- After the last row of a nametable `v` moves to the other one. -/
theorem incrementY_row29 (h : fineY v = 7) (h29 : coarseY v = 29) :
    incrementY v = putBit 11 (!v.getLsbD 11) (putField 5 (0 : BitVec 5) (putField 12 (0 : BitVec 3) v)) := by
  rw [incrementY, if_neg (by rw [fineY_lt_seven_iff]; exact not_not.mpr h)]
  dsimp only
  rw [if_pos h29]

/-- Any other row, 31 included: the row number counts modulo 32. -/
theorem incrementY_otherRow (h : fineY v = 7) (h29 : coarseY v ≠ 29) :
    incrementY v = putField 5 (coarseY v + 1) (putField 12 (0 : BitVec 3) v) := by
  rw [incrementY, if_neg (by rw [fineY_lt_seven_iff]; exact not_not.mpr h)]
  dsimp only
  rw [if_neg h29]
  split
  next h31 => rw [h31]; rfl
  next => rfl

theorem field_putBit_disjoint {j n : Nat} (i lo : Nat) (b : Bool) (x : BitVec n) (h : lo + j ≤ i ∨ i + 1 ≤ lo) :
    field lo j (putBit i b x) = field lo j x :=
  field_putField_disjoint i lo _ x h

theorem incrementY_fineY (v : Scroll) : fineY (incrementY v) = fineY v + 1 := by
  by_cases h : fineY v = 7
  · have hzero : fineY v + 1 = 0 := by rw [h]; rfl
    have hfine : fineY (putField 12 (0 : BitVec 3) v) = 0 := field_putField_self 12 _ v (by decide)
    rw [hzero, ← hfine]
    by_cases h29 : coarseY v = 29
    · rw [incrementY_row29 h h29]
      exact (field_putBit_disjoint 11 12 _ _ (by decide)).trans (field_putField_disjoint 5 12 _ _ (by decide))
    · rw [incrementY_otherRow h h29]
      exact field_putField_disjoint 5 12 _ _ (by decide)
  · rw [incrementY_fine h]
    exact field_putField_self 12 _ v (by decide)

theorem incrementY_coarseX (v : Scroll) : coarseX (incrementY v) = coarseX v := by
  have hfine : coarseX (putField 12 (0 : BitVec 3) v) = coarseX v := field_putField_disjoint 12 0 _ v (by decide)
  by_cases h : fineY v = 7
  · rw [← hfine]
    by_cases h29 : coarseY v = 29
    · rw [incrementY_row29 h h29]
      exact (field_putBit_disjoint 11 0 _ _ (by decide)).trans (field_putField_disjoint 5 0 _ _ (by decide))
    · rw [incrementY_otherRow h h29]
      exact field_putField_disjoint 5 0 _ _ (by decide)
  · rw [incrementY_fine h]
    exact field_putField_disjoint 12 0 _ v (by decide)

theorem incrementY_coarseY (v : Scroll) : coarseY (incrementY v) =
    if fineY v ≠ 7 then coarseY v else if coarseY v = 29 then 0 else coarseY v + 1 := by
  by_cases h : fineY v = 7
  · rw [if_neg (not_not.mpr h)]
    by_cases h29 : coarseY v = 29
    · rw [incrementY_row29 h h29, if_pos h29]
      exact (field_putBit_disjoint 11 5 _ _ (by decide)).trans (field_putField_self 5 _ _ (by decide))
    · rw [incrementY_otherRow h h29, if_neg h29]
      exact field_putField_self 5 _ _ (by decide)
  · rw [incrementY_fine h, if_pos h]
    exact field_putField_disjoint 12 5 _ v (by decide)

/-- The two nametable bits: only the wrap at row 29 changes one, bit 11. -/
theorem incrementY_nametable (v : Scroll) : (incrementY v).getLsbD 10 = v.getLsbD 10 ∧
    (incrementY v).getLsbD 11 = (v.getLsbD 11 ^^ decide (fineY v = 7 ∧ coarseY v = 29)) := by
  by_cases h : fineY v = 7
  · by_cases h29 : coarseY v = 29
    · rw [incrementY_row29 h h29, decide_eq_true ⟨h, h29⟩, Bool.xor_true]
      simp only [putBit_getLsbD, putField_getLsbD]
      exact ⟨rfl, rfl⟩
    · rw [incrementY_otherRow h h29, decide_eq_false fun hw => h29 hw.2, Bool.xor_false]
      simp only [putField_getLsbD]
      exact ⟨rfl, rfl⟩
  · rw [incrementY_fine h, decide_eq_false fun hw => h hw.1, Bool.xor_false]
    simp only [putField_getLsbD]
    exact ⟨rfl, rfl⟩

end

theorem reloadHorizontal_getLsbD (t v : Scroll) (i : Nat) :
    (reloadHorizontal t v).getLsbD i = if i < 5 ∨ i = 10 then t.getLsbD i else v.getLsbD i := by
  rw [reloadHorizontal, putBit_getLsbD, putField_getLsbD, coarseX, field_getLsbD]
  by_cases hten : i = 10
  · rw [if_pos (by omega), if_pos (.inr hten), hten]
  · rw [if_neg (by omega)]
    by_cases hlow : i < 5
    · rw [if_pos (by omega), if_pos (.inl hlow), decide_eq_true (by omega), Bool.true_and, Nat.zero_add, Nat.sub_zero]
    · rw [if_neg (by omega), if_neg (by omega)]

theorem reloadVertical_getLsbD (t v : Scroll) (i : Nat) :
    (reloadVertical t v).getLsbD i = if 5 ≤ i ∧ i ≠ 10 then t.getLsbD i else v.getLsbD i := by
  rw [reloadVertical, putField_getLsbD, putField_getLsbD, coarseY, field_getLsbD, field_getLsbD]
  by_cases hlen : i < 15
  · by_cases hhigh : 11 ≤ i
    · rw [if_pos (by omega), if_pos (by omega), decide_eq_true (by omega), Bool.true_and, Nat.add_sub_cancel' hhigh]
    · rw [if_neg (by omega)]
      by_cases hmid : 5 ≤ i ∧ i < 10
      · rw [if_pos (by omega), if_pos (by omega), decide_eq_true (by omega), Bool.true_and, Nat.add_sub_cancel' hmid.1]
      · rw [if_neg (by omega), if_neg (by omega)]
  · rw [if_neg (by omega), if_neg (by omega), BitVec.getLsbD_of_ge v i (by omega),
      BitVec.getLsbD_of_ge t i (by omega), ite_self]

/-! ### The dots that change `v` -/

/-- `v` after a dot of the background pipeline: the last phase of a tile moves it on by a tile (rule R174). -/
def Ppu.tileV (q : Ppu) : Scroll := if (q.dot - 1) % 8 = 7 then incrementCoarseX q.v else q.v

section
variable (s : State)

theorem backgroundFetch_v : (backgroundFetch s).ppu.v = s.ppu.tileV := by
  unfold backgroundFetch Ppu.tileV
  dsimp only
  by_cases h7 : (s.ppu.dot - 1) % 8 = 7
  · rw [if_neg (by omega), if_neg (by omega), if_neg (by omega), if_pos h7, if_pos h7]
    rfl
  · rw [if_neg h7, if_neg h7]
    split
    · rfl
    · split
      · rfl
      · split <;> rfl

theorem scrollPart_v : (scrollPart s).ppu.v =
    if s.ppu.dot = 256 then incrementY s.ppu.v
    else if s.ppu.dot = 257 then reloadHorizontal s.ppu.t s.ppu.v else s.ppu.v := by
  rw [scrollPart, apply_ite State.ppu, apply_ite Ppu.v, apply_ite State.ppu, apply_ite Ppu.v]
  rfl

theorem verticalPart_v : (verticalPart s).ppu.v =
    if s.ppu.scanline = 261 ∧ 280 ≤ s.ppu.dot ∧ s.ppu.dot ≤ 304 then reloadVertical s.ppu.t s.ppu.v
    else s.ppu.v := by
  rw [verticalPart, apply_ite State.ppu, apply_ite Ppu.v]
  rfl

end

section
variable {s : State} (hon : s.ppu.mask.getLsbD 3 = true ∨ s.ppu.mask.getLsbD 4 = true)
  (hline : s.ppu.scanline ≤ 239 ∨ s.ppu.scanline = 261)
include hon hline

/-- With rendering enabled a render line's dot is `renderedDot`, then the end of the dot. -/
theorem ppuStep_eq_renderedDot : ppuStep s = { renderedDot (prepared s) with ppu := { (renderedDot (prepared s)).ppu with
    vblReadLatch := false, scanline := (ppuStep s).ppu.scanline, dot := (ppuStep s).ppu.dot } } := by
  rw [← dotActions_rendered hline hon, ← ppuStep_eq_dotActions]

/-- The dots of the background pipeline: coarse X at the end of a tile, and Y at dot 256. -/
theorem ppuStep_v_fetchDots (h : 1 ≤ s.ppu.dot ∧ s.ppu.dot ≤ 256 ∨ 321 ≤ s.ppu.dot ∧ s.ppu.dot ≤ 336) :
    (ppuStep s).ppu.v = if s.ppu.dot = 256 then incrementY s.ppu.tileV else s.ppu.tileV := by
  have hpixel : (pixelPart (prepared s)).ppu.dot = s.ppu.dot ∧ (pixelPart (prepared s)).ppu.tileV = s.ppu.tileV := by
    rw [pixelPart_fields, prepared_fields]
    exact ⟨rfl, rfl⟩
  have hback : (backgroundPart (pixelPart (prepared s))).ppu.v = s.ppu.tileV := by
    rw [backgroundPart, if_pos ((fetchTime_iff _).mpr (by rw [hpixel.1]; exact h)), backgroundFetch_v]
    exact hpixel.2
  have hdot := (backgroundPart_keeps (pixelPart (prepared s))).dot.trans hpixel.1
  have hprepared : (prepared s).ppu.dot = s.ppu.dot := by rw [prepared_fields]
  rw [ppuStep_eq_renderedDot hon hline, renderedDot_fetchDots (by rw [hprepared]; exact h)]
  dsimp only
  rw [scrollPart_v, hdot, hback, if_neg (by omega : ¬ s.ppu.dot = 257)]

/-- The dots of the sprite fetch: the two reloads. -/
theorem ppuStep_v_spriteDots (hlo : 257 ≤ s.ppu.dot) (hhi : s.ppu.dot ≤ 320) :
    (ppuStep s).ppu.v =
      if s.ppu.dot = 257 then reloadHorizontal s.ppu.t s.ppu.v
      else if s.ppu.scanline = 261 ∧ 280 ≤ s.ppu.dot ∧ s.ppu.dot ≤ 304 then reloadVertical s.ppu.t s.ppu.v
      else s.ppu.v := by
  have hfetch : (spriteFetchPart (scrollPart s)).ppu.v = (scrollPart s).ppu.v := by
    unfold spriteFetchPart
    split <;> rfl
  have hkeeps := (scrollPart_keeps s).trans (spriteFetchPart_keeps _)
  rw [ppuStep_eq_renderedDot hon hline, prepared_idle (.inr (by omega)) (by omega), renderedDot_spriteDots hlo hhi]
  dsimp only
  rw [verticalPart_v, hfetch, hkeeps.scanline, hkeeps.dot, hkeeps.tReg, scrollPart_v,
    if_neg (by omega : ¬ s.ppu.dot = 256)]
  by_cases hd : s.ppu.dot = 257
  · rw [if_neg (by omega), if_pos hd, if_pos hd]
  · rw [if_neg hd, if_neg hd]

/-- Dot 0 and the last dots of a line leave `v`. -/
theorem ppuStep_v_otherDots (h : s.ppu.dot = 0 ∨ 337 ≤ s.ppu.dot) : (ppuStep s).ppu.v = s.ppu.v := by
  rw [ppuStep_eq_renderedDot hon hline, prepared_idle (by omega) (by omega), renderedDot_otherDots h, extraFetchPart,
    apply_ite State.ppu, apply_ite Ppu.v]
  exact ite_self _

end

/-- Settles O53: the fields of each change of `v`, and the dots in three classes by `ppuStep_v_fetchDots`,
`ppuStep_v_spriteDots` and `ppuStep_v_otherDots`. -/
theorem scrollUpdatesByDot : Obligations.ScrollUpdatesByDot := by
  refine ⟨fun v t => ⟨incrementCoarseX_getLsbD v, ?_, reloadHorizontal_getLsbD t v, reloadVertical_getLsbD t v⟩,
    fun s hon hline => ?_⟩
  · obtain ⟨h10, h11⟩ := incrementY_nametable v
    exact ⟨incrementY_fineY v, incrementY_coarseX v, h10, h11, incrementY_coarseY v⟩
  · have hfetch := ppuStep_v_fetchDots hon hline
    have hsprite := ppuStep_v_spriteDots hon hline
    dsimp only
    unfold Ppu.tileV at hfetch
    refine ⟨fun htile hd => ?tile, fun hd => ?row, fun hd => ?horizontal, fun hs hlo hhi => ?vertical,
      fun htile hd hvertical => ?none⟩
    case tile => rw [hfetch (by omega), if_neg hd, if_pos (by omega)]
    case row => rw [hfetch (by omega), if_pos hd, if_pos (by omega)]
    case horizontal => rw [hsprite (by omega) (by omega), if_pos hd]
    case vertical => rw [hsprite (by omega) (by omega), if_neg (by omega), if_pos ⟨hs, hlo, hhi⟩]
    case none =>
      by_cases hf : 1 ≤ s.ppu.dot ∧ s.ppu.dot ≤ 256 ∨ 321 ≤ s.ppu.dot ∧ s.ppu.dot ≤ 336
      · rw [hfetch hf, if_neg (by omega), if_neg (by omega)]
      by_cases hsp : 257 ≤ s.ppu.dot ∧ s.ppu.dot ≤ 320
      · rw [hsprite hsp.1 hsp.2, if_neg hd, if_neg hvertical]
      · exact ppuStep_v_otherDots hon hline (by omega)

end Sys2Proof.Machine

/-! ## The fetches of the dot machine (48_ppu_frame_machine.md rules R169 to R173) -/

namespace Sys2Proof.Machine

/-! ### The rules' masks and or-forms as arithmetic -/

/-- A mask of `k` bits at bit `j` cuts out that field. -/
theorem and_mask_eq (n j k : Nat) : n &&& ((2 ^ k - 1) <<< j) = 2 ^ j * (n / 2 ^ j % 2 ^ k) := by
  apply Nat.eq_of_testBit_eq
  intro i
  rw [Nat.testBit_and, Nat.testBit_shiftLeft, Nat.testBit_two_pow_sub_one, Nat.testBit_two_pow_mul,
    Nat.testBit_mod_two_pow, Nat.testBit_div_two_pow]
  by_cases h : j ≤ i
  · simp only [ge_iff_le, h, decide_true, Bool.true_and, Nat.sub_add_cancel h]
    exact Bool.and_comm _ _
  · simp [h]

theorem nametableAddr_eq (v : Scroll) : nametableAddr v = BitVec.ofNat 14 (0x2000 + v.toNat % 4096) := by
  have hmask : v.toNat &&& 0x0FFF = v.toNat % 4096 := Nat.and_two_pow_sub_one_eq_mod v.toNat 12
  have hor : 0x2000 ||| v.toNat % 4096 = 0x2000 + v.toNat % 4096 :=
    (Nat.two_pow_add_eq_or_of_lt (i := 13) (by omega) 1).symm
  rw [nametableAddr, hmask, hor, ppuAddr]

theorem attributeAddr_eq (v : Scroll) : attributeAddr v = BitVec.ofNat 14
    (0x23C0 + 1024 * (v.toNat / 1024 % 4) + 8 * (v.toNat / 128 % 8) + v.toNat / 4 % 8) := by
  have hselect : v.toNat &&& 0x0C00 = 1024 * (v.toNat / 1024 % 4) := and_mask_eq v.toNat 10 2
  have hrow : (v.toNat >>> 4) &&& 0x38 = 8 * (v.toNat / 128 % 8) := by
    have hmask : (v.toNat >>> 4) &&& 0x38 = 8 * (v.toNat >>> 4 / 8 % 8) := and_mask_eq _ 3 3
    rw [hmask, Nat.shiftRight_eq_div_pow, Nat.div_div_eq_div_mul]
  have hcolumn : (v.toNat >>> 2) &&& 0x07 = v.toNat / 4 % 8 := by
    have hmask : (v.toNat >>> 2) &&& 0x07 = v.toNat >>> 2 % 8 := Nat.and_two_pow_sub_one_eq_mod (v.toNat >>> 2) 3
    rw [hmask, Nat.shiftRight_eq_div_pow]
  rw [attributeAddr, hselect, hrow, hcolumn]
  have ha : v.toNat / 1024 % 4 < 4 := Nat.mod_lt _ (by decide)
  have hb : v.toNat / 128 % 8 < 8 := Nat.mod_lt _ (by decide)
  have hc : v.toNat / 4 % 8 < 8 := Nat.mod_lt _ (by decide)
  generalize v.toNat / 1024 % 4 = a at ha
  generalize v.toNat / 128 % 8 = b at hb
  generalize v.toNat / 4 % 8 = c at hc
  have hab : (0x23C0 ||| 1024 * a) = 64 * (0x8F + 16 * a) := by
    obtain rfl | rfl | rfl | rfl : a = 0 ∨ a = 1 ∨ a = 2 ∨ a = 3 := by omega
    all_goals rfl
  have hor6 : 64 * (0x8F + 16 * a) ||| 8 * b = 8 * (8 * (0x8F + 16 * a) + b) := by
    rw [show 64 = 2 ^ 6 from rfl, ← Nat.two_pow_add_eq_or_of_lt (by omega)]
    omega
  have hor3 : 8 * (8 * (0x8F + 16 * a) + b) ||| c = 8 * (8 * (0x8F + 16 * a) + b) + c :=
    (Nat.two_pow_add_eq_or_of_lt (i := 3) hc _).symm
  rw [hab, hor6, hor3, ppuAddr]
  congr 1
  omega

theorem attributeShift_eq (v : Scroll) : attributeShift v = 4 * (v.toNat / 64 % 2) + 2 * (v.toNat / 2 % 2) := by
  have hrow : (v.toNat >>> 4) &&& 4 = 4 * (v.toNat / 64 % 2) := by
    have hmask : (v.toNat >>> 4) &&& 4 = 4 * (v.toNat >>> 4 / 4 % 2) := and_mask_eq _ 2 1
    rw [hmask, Nat.shiftRight_eq_div_pow, Nat.div_div_eq_div_mul]
  have hcolumn : v.toNat &&& 2 = 2 * (v.toNat / 2 % 2) := and_mask_eq _ 1 1
  rw [attributeShift, hrow, hcolumn]
  exact (Nat.two_pow_add_eq_or_of_lt (i := 2) (by omega) _).symm

/-- The address of a pattern row: table, tile, row. -/
theorem patternAddr_eq (table : Bool) {tile row : Nat} (htile : tile < 256) (hrow : row < 16) :
    ((bit table <<< 12) ||| (tile <<< 4)) ||| row = 4096 * (if table then 1 else 0) + 16 * tile + row := by
  have htable : (bit table <<< 12) ||| (tile <<< 4) = 16 * (256 * bit table + tile) := by
    rw [Nat.shiftLeft_eq, Nat.shiftLeft_eq, Nat.mul_comm (bit table),
      ← Nat.two_pow_add_eq_or_of_lt (by omega : tile * 2 ^ 4 < 2 ^ 12)]
    omega
  have hor : 16 * (256 * bit table + tile) ||| row = 16 * (256 * bit table + tile) + row :=
    (Nat.two_pow_add_eq_or_of_lt (i := 4) hrow _).symm
  rw [htable, hor, bit]
  omega

theorem fineY_toNat (v : Scroll) : (fineY v).toNat = v.toNat / 4096 := by
  rw [fineY, field_toNat]
  exact Nat.mod_eq_of_lt (by omega)

theorem backgroundPatternAddr_eq (q : Ppu) : backgroundPatternAddr q =
    4096 * (if q.ctrl.getLsbD 4 then 1 else 0) + 16 * q.ntLatch.toNat + q.v.toNat / 4096 := by
  rw [backgroundPatternAddr, fineY_toNat, patternAddr_eq _ q.ntLatch.isLt (by omega)]

/-! ### The shifters (rules R172, R173) -/

theorem shiftLeft_one_toNat (x : BitVec 16) : (x <<< 1).toNat = 2 * x.toNat % 65536 := by
  rw [BitVec.toNat_shiftLeft, Nat.shiftLeft_eq, Nat.mul_comm]

/-- A reload replaces the low byte of the shifter. -/
theorem reload_toNat (b : Byte) (x : BitVec 16) : (putField 0 b x).toNat = x.toNat / 256 * 256 + b.toNat := by
  have hlow : field 0 8 (putField 0 b x) = b := field_putField_self 0 b x (by decide)
  have hhigh : field 8 8 (putField 0 b x) = field 8 8 x := field_putField_disjoint 0 8 b x (by decide)
  rw [← BitVec.toNat_inj, lowField_toNat] at hlow
  rw [← BitVec.toNat_inj, field_toNat, field_toNat] at hhigh
  omega

/-- A shift and a reload at one dot. -/
theorem reload_shiftLeft_toNat (b : Byte) (x : BitVec 16) :
    (putField 0 b (x <<< 1)).toNat = 2 * x.toNat / 256 % 256 * 256 + b.toNat := by
  rw [reload_toNat, shiftLeft_one_toNat]
  omega

theorem repeatBit_toNat (b : Bool) : (repeatBit b).toNat = if b then 255 else 0 := by cases b <;> rfl

/-! ### The background fetch by phase (rule R170) -/

/-- The end of a tile: the last sub-fetch, the reload and the step to the next tile. -/
theorem finishTile_ppu (s : State) : (finishTile s).ppu =
    { reloadShifters { s.ppu with ptHiLatch := ppuRead s (ppuAddr (backgroundPatternAddr s.ppu + 8)) } with
      v := incrementCoarseX s.ppu.v } := rfl

/-- The four sub-fetches: which latch each phase writes, and the reload of the last. -/
theorem backgroundFetch_latches (s : State) :
    let ph := (s.ppu.dot - 1) % 8
    let hi := ppuRead s (ppuAddr (backgroundPatternAddr s.ppu + 8))
    let q := (backgroundFetch s).ppu
    q.ntLatch = (if ph = 1 then ppuRead s (nametableAddr s.ppu.v) else s.ppu.ntLatch) ∧
    q.atLatch = (if ph = 3 then field 0 2 (ppuRead s (attributeAddr s.ppu.v) >>> attributeShift s.ppu.v)
      else s.ppu.atLatch) ∧
    q.ptLoLatch = (if ph = 5 then ppuRead s (ppuAddr (backgroundPatternAddr s.ppu)) else s.ppu.ptLoLatch) ∧
    q.ptHiLatch = (if ph = 7 then hi else s.ppu.ptHiLatch) ∧
    q.bgShiftLo = (if ph = 7 then putField 0 s.ppu.ptLoLatch s.ppu.bgShiftLo else s.ppu.bgShiftLo) ∧
    q.bgShiftHi = (if ph = 7 then putField 0 hi s.ppu.bgShiftHi else s.ppu.bgShiftHi) ∧
    q.atShiftLo = (if ph = 7 then putField 0 (repeatBit (s.ppu.atLatch.getLsbD 0)) s.ppu.atShiftLo
      else s.ppu.atShiftLo) ∧
    q.atShiftHi = (if ph = 7 then putField 0 (repeatBit (s.ppu.atLatch.getLsbD 1)) s.ppu.atShiftHi
      else s.ppu.atShiftHi) := by
  unfold backgroundFetch
  dsimp only
  generalize (s.ppu.dot - 1) % 8 = ph
  by_cases h1 : ph = 1
  · subst h1
    exact ⟨rfl, rfl, rfl, rfl, rfl, rfl, rfl, rfl⟩
  by_cases h3 : ph = 3
  · subst h3
    exact ⟨rfl, rfl, rfl, rfl, rfl, rfl, rfl, rfl⟩
  by_cases h5 : ph = 5
  · subst h5
    exact ⟨rfl, rfl, rfl, rfl, rfl, rfl, rfl, rfl⟩
  by_cases h7 : ph = 7
  · rw [if_neg h1, if_neg h3, if_neg h5, if_pos h7, finishTile_ppu]
    subst h7
    exact ⟨rfl, rfl, rfl, rfl, rfl, rfl, rfl, rfl⟩
  · simp only [if_neg h1, if_neg h3, if_neg h5, if_neg h7, and_self]

/-- The state in which the background fetch of a dot finds the machine: the shifters have moved. -/
def fetchInput (s : State) : State :=
  (pixelPart (prepared s)).setPpu (shiftBackground (pixelPart (prepared s)).ppu)

theorem fetchInput_fields (s : State) : (fetchInput s).ppu = { shiftBackground s.ppu with
    status := (fetchInput s).ppu.status, secondaryOam := (prepared s).ppu.secondaryOam
    spriteCount := (prepared s).ppu.spriteCount, sprite0Selected := (prepared s).ppu.sprite0Selected
    spriteOverflow := (prepared s).ppu.spriteOverflow, nmiLine := (prepared s).ppu.nmiLine } := by
  rw [fetchInput, pixelPart_fields, prepared_fields]
  rfl

/-- What comes before the fetch in a dot changes nothing that it reads. -/
theorem ppuRead_fetchInput (s : State) (a : PpuAddr) : ppuRead (fetchInput s) a = ppuRead s a := by
  have hstate : fetchInput s = { s with ppu := (fetchInput s).ppu, pixels := (fetchInput s).pixels } := by
    rw [fetchInput, pixelPart_fields, prepared_fields]
    rfl
  refine ppuRead_congr ?_ ?_ ?_ ?_ a
  · rw [hstate]
  · rw [hstate]
  · rw [hstate]
  · rw [fetchInput_fields]
    rfl

theorem scrollPart_ppu (s : State) : (scrollPart s).ppu = { s.ppu with v := (scrollPart s).ppu.v } := by
  unfold scrollPart
  split
  · rfl
  · split <;> rfl

section
variable {s : State} (hon : s.ppu.mask.getLsbD 3 = true ∨ s.ppu.mask.getLsbD 4 = true)
  (hline : s.ppu.scanline ≤ 239 ∨ s.ppu.scanline = 261)
include hon hline

/-- The latches and shifters after a dot of the background pipeline are those of the shift and the sub-fetch. -/
theorem ppuStep_latches (h : 1 ≤ s.ppu.dot ∧ s.ppu.dot ≤ 256 ∨ 321 ≤ s.ppu.dot ∧ s.ppu.dot ≤ 336) :
    let q := s.ppu
    let ph := (q.dot - 1) % 8
    let hi := ppuRead s (ppuAddr (backgroundPatternAddr q + 8))
    let q' := (ppuStep s).ppu
    q'.ntLatch = (if ph = 1 then ppuRead s (nametableAddr q.v) else q.ntLatch) ∧
    q'.atLatch = (if ph = 3 then field 0 2 (ppuRead s (attributeAddr q.v) >>> attributeShift q.v) else q.atLatch) ∧
    q'.ptLoLatch = (if ph = 5 then ppuRead s (ppuAddr (backgroundPatternAddr q)) else q.ptLoLatch) ∧
    q'.ptHiLatch = (if ph = 7 then hi else q.ptHiLatch) ∧
    q'.bgShiftLo = (if ph = 7 then putField 0 q.ptLoLatch (q.bgShiftLo <<< 1) else q.bgShiftLo <<< 1) ∧
    q'.bgShiftHi = (if ph = 7 then putField 0 hi (q.bgShiftHi <<< 1) else q.bgShiftHi <<< 1) ∧
    q'.atShiftLo = (if ph = 7 then putField 0 (repeatBit (q.atLatch.getLsbD 0)) (q.atShiftLo <<< 1)
      else q.atShiftLo <<< 1) ∧
    q'.atShiftHi = (if ph = 7 then putField 0 (repeatBit (q.atLatch.getLsbD 1)) (q.atShiftHi <<< 1)
      else q.atShiftHi <<< 1) := by
  have hread := ppuRead_fetchInput s
  have hlatches := backgroundFetch_latches (fetchInput s)
  have hprepared : (prepared s).ppu.dot = s.ppu.dot := by rw [prepared_fields]
  have hback : backgroundPart (pixelPart (prepared s)) = backgroundFetch (fetchInput s) := by
    rw [backgroundPart, if_pos ((fetchTime_iff _).mpr (by rw [(pixelPart_keeps _).dot, hprepared]; exact h)), fetchInput]
  simp only [hread] at hlatches
  rw [fetchInput_fields] at hlatches
  rw [ppuStep_eq_renderedDot hon hline, renderedDot_fetchDots (by rw [hprepared]; exact h), hback]
  dsimp only
  rw [scrollPart_ppu]
  exact hlatches

end

/-- Settles O54: `ppuStep_latches` with the addresses and shifters as numbers. -/
theorem backgroundFetchesByPhase : Obligations.BackgroundFetchesByPhase := by
  intro s hon hline hdot
  obtain ⟨hnt, hat, hlo, hhi, hbgLo, hbgHi, hatLo, hatHi⟩ := ppuStep_latches hon hline hdot
  simp only [nametableAddr_eq, attributeAddr_eq, attributeShift_eq, backgroundPatternAddr_eq,
    ppuAddr] at hnt hat hlo hhi hbgHi
  dsimp only
  refine ⟨hnt, ?_, hlo, hhi, ?_, ?_, ?_, ?_⟩
  · rw [hat, apply_ite BitVec.toNat, lowField_toNat, BitVec.toNat_ushiftRight, Nat.shiftRight_eq_div_pow]
    rfl
  · rw [hbgLo, apply_ite BitVec.toNat, reload_shiftLeft_toNat, shiftLeft_one_toNat]
  · rw [hbgHi, apply_ite BitVec.toNat, reload_shiftLeft_toNat, shiftLeft_one_toNat]
  · rw [hatLo, apply_ite BitVec.toNat, reload_shiftLeft_toNat, shiftLeft_one_toNat, repeatBit_toNat]
  · rw [hatHi, apply_ite BitVec.toNat, reload_shiftLeft_toNat, shiftLeft_one_toNat, repeatBit_toNat]

/-! ### The extra nametable reads (rule R171) -/

/-- Settles O55: of the parts of the dot only `extraFetchPart` has something to do. -/
theorem extraNametableReads : Obligations.ExtraNametableReads := by
  intro s hon hline hlo hhi
  rw [ppuStep_eq_renderedDot hon hline, prepared_idle (.inr (by omega)) (by omega), renderedDot_otherDots (.inr hlo),
    extraFetchPart, ← nametableAddr_eq]
  dsimp only
  split
  · rfl
  · rfl

end Sys2Proof.Machine

/-! ## The sprite fetch of the dot machine (48_ppu_frame_machine.md rule R169) -/

namespace Sys2Proof.Machine

/-! ### One output unit -/

/-- The height of the sprites decides between the two forms of the pattern address; `row` is the row in the sprite. -/
theorem spritePatternAddr_eq (tall table : Bool) (tile : Byte) {row : Nat} (hrow : row < if tall then 16 else 8) :
    spritePatternAddr (if tall then 16 else 8) table tile row =
      if tall then 4096 * (tile.toNat % 2) + 16 * (tile.toNat / 2 * 2 + row / 8) + row % 8
      else 4096 * (if table then 1 else 0) + 16 * tile.toNat + row := by
  have htile := tile.isLt
  cases tall with
  | false => exact patternAddr_eq table htile (Nat.lt_trans hrow (by decide))
  | true =>
    change row < 16 at hrow
    have heven : (tile &&& 0xFE).toNat = tile.toNat / 2 * 2 := by
      have hmask : tile.toNat &&& 0xFE = 2 * (tile.toNat / 2 % 128) := and_mask_eq tile.toNat 1 7
      rw [BitVec.toNat_and]
      change tile.toNat &&& 0xFE = _
      rw [hmask]
      omega
    have hhalf : (if 8 ≤ row then 1 else 0) = row / 8 := by split <;> omega
    have hlow : row &&& 7 = row % 8 := Nat.and_two_pow_sub_one_eq_mod row 3
    have hodd : (if tile.getLsbD 0 then 1 else 0) = tile.toNat % 2 := by
      rw [getLsbD_zero_eq_decide]
      split
      next h => exact (of_decide_eq_true h).symm
      next h => have := of_decide_eq_false (Bool.eq_false_iff.mpr h); omega
    have haddr := patternAddr_eq (tile.getLsbD 0) (tile := tile.toNat / 2 * 2 + row / 8) (row := row % 8)
      (by omega) (by omega)
    rw [hodd] at haddr
    rw [spritePatternAddr, if_neg (by decide), heven, hhalf, hlow]
    exact haddr

/-- The row of a sprite that is in range of the line: it lies in the sprite, flipped or not. -/
theorem spriteRow_eq {h scanline y : Nat} (hlo : y ≤ scanline) (hhi : scanline < y + h) (flip : Bool) :
    spriteRow h scanline y flip = (if flip then h - 1 - (scanline - y) else scanline - y) ∧
      spriteRow h scanline y flip < h := by
  rw [spriteRow, if_neg (by omega), if_pos (by omega : scanline - y < h)]
  cases flip with
  | false => exact ⟨rfl, by show scanline - y < h; omega⟩
  | true => exact ⟨rfl, by show h - 1 - (scanline - y) < h; omega⟩

/-- A unit is loaded from secondary OAM and the pattern tables; `v` plays no part. -/
theorem loadedUnit_setV (s : State) (v : Scroll) (i : Nat) : loadedUnit (setV s v) i = loadedUnit s i := rfl

theorem loadedUnit_scrollPart (s : State) (i : Nat) : loadedUnit (scrollPart s) i = loadedUnit s i := by
  unfold scrollPart
  split
  · exact loadedUnit_setV s _ i
  · split
    · exact loadedUnit_setV s _ i
    · rfl

/-! ### The dots 257 to 320 -/

theorem verticalPart_ppu (s : State) : (verticalPart s).ppu = { s.ppu with v := (verticalPart s).ppu.v } := by
  unfold verticalPart
  split <;> rfl

section
variable {s : State} (hon : s.ppu.mask.getLsbD 3 = true ∨ s.ppu.mask.getLsbD 4 = true)
  (hline : s.ppu.scanline ≤ 239 ∨ s.ppu.scanline = 261) (hlo : 257 ≤ s.ppu.dot) (hhi : s.ppu.dot ≤ 320)
include hon hline hlo hhi

theorem ppuStep_spriteFetch :
    (ppuStep s).ppu.oamAddress = 0 ∧
      (ppuStep s).ppu.lineSpriteCount = (if s.ppu.dot = 257 then s.ppu.spriteCount else s.ppu.lineSpriteCount) ∧
      (ppuStep s).ppu.lineHasSprite0 = (if s.ppu.dot = 257 then s.ppu.sprite0Selected else s.ppu.lineHasSprite0) ∧
      (ppuStep s).ppu.sprites =
        if (s.ppu.dot - 257) % 8 = 7 then
          s.ppu.sprites.setIfInBounds ((s.ppu.dot - 257) / 8) (loadedUnit s ((s.ppu.dot - 257) / 8))
        else s.ppu.sprites := by
  have hdot := (scrollPart_keeps s).dot
  rw [ppuStep_eq_renderedDot hon hline, prepared_idle (.inr (by omega)) (by omega), renderedDot_spriteDots hlo hhi]
  dsimp only
  rw [verticalPart_ppu, spriteFetchPart, if_pos (by rw [hdot]; exact ⟨hlo, hhi⟩), spriteFetchDot]
  dsimp only [State.setPpu_ppu]
  rw [hdot, loadedUnit_scrollPart, scrollPart_ppu]
  exact ⟨rfl, rfl, rfl, rfl⟩

/-- The one unit a dot can load is the one whose last dot it is. -/
theorem ppuStep_spriteUnit {i : Nat} (hi : i < 8) : (ppuStep s).ppu.spriteUnit i =
    if s.ppu.dot = 264 + 8 * i then loadedUnit s i else s.ppu.spriteUnit i := by
  obtain ⟨-, -, -, hunits⟩ := ppuStep_spriteFetch hon hline hlo hhi
  rw [Ppu.spriteUnit, hunits]
  by_cases hlast : s.ppu.dot = 264 + 8 * i
  · have hslot : (s.ppu.dot - 257) / 8 = i := by omega
    rw [if_pos hlast, if_pos (by omega), hslot, Vector.getElem?_setIfInBounds, if_pos rfl, if_pos hi, Option.getD_some]
  · rw [if_neg hlast]
    split
    next h7 => rw [Vector.getElem?_setIfInBounds, if_neg (by omega), Ppu.spriteUnit]
    next => rfl

end

/-- Settles O56: the dot by `ppuStep_spriteFetch`, a unit by `ppuStep_spriteUnit`, the address of its row by
`spritePatternAddr_eq`. -/
theorem spriteFetchLoadsTheUnits : Obligations.SpriteFetchLoadsTheUnits := by
  intro s hon hline hlo hhi
  obtain ⟨hoam, hcount, hzero, -⟩ := ppuStep_spriteFetch hon hline hlo hhi
  refine ⟨hoam, fun hd => ?_, fun hd => ?_, fun i hi => ?_⟩
  · rw [hcount, hzero, if_pos hd, if_pos hd]
    exact ⟨rfl, rfl⟩
  · rw [hcount, hzero, if_neg hd, if_neg hd]
    exact ⟨rfl, rfl⟩
  rw [ppuStep_spriteUnit hon hline hlo hhi hi]
  refine ⟨fun hd => if_neg hd, fun hd hempty => ?empty, fun hd hfilled => ?filled⟩
  case empty => rw [if_pos hd, loadedUnit, if_neg (by omega)]
  case filled =>
    intro h y tile attr hy hyh row addr plane
    obtain ⟨hrow, hrowLt⟩ := spriteRow_eq hy hyh (attr.getLsbD 7)
    have haddr := spritePatternAddr_eq (s.ppu.ctrl.getLsbD 5) (s.ppu.ctrl.getLsbD 3)
      (s.ppu.secondaryByte (4 * i + 1)) hrowLt
    rw [if_pos hd, loadedUnit, if_pos hfilled, fetchSprite]
    have hunit : spritePatternAddr s.ppu.spriteHeight (s.ppu.ctrl.getLsbD 3) (s.ppu.secondaryByte (4 * i + 1))
        (spriteRow s.ppu.spriteHeight s.ppu.scanline y (attr.getLsbD 7)) = addr := by
      rw [Ppu.spriteHeight, haddr, hrow]
    simp only [plane, ← hunit]
    cases attr.getLsbD 6
    · rfl
    · rfl


end Sys2Proof.Machine

/-! ## The pixel output of the dot machine (48_ppu_frame_machine.md rules R178, R179) -/

namespace Sys2Proof.Machine

/-! ### The layers (rule R178) -/

theorem twoBits_toNat (hi lo : Bool) : (twoBits hi lo).toNat = 2 * hi.toNat + lo.toNat := by
  cases hi <;> cases lo <;> rfl

theorem twoBits_ne_zero_iff (hi lo : Bool) : twoBits hi lo ≠ 0 ↔ hi = true ∨ lo = true := by
  cases hi <;> cases lo <;> decide

theorem toNat_eq_zero_iff (p : BitVec 2) : p.toNat = 0 ↔ p = 0 := BitVec.toNat_inj (y := 0)

/-- The palette entry of a layer: four entries to a palette. -/
theorem Layer.entry_eq (l : Layer) : l.entry = 4 * l.palette.toNat + l.value.toNat := by
  have hvalue := l.value.isLt
  rw [Layer.entry, BitVec.toNat_append, ← Nat.shiftLeft_add_eq_or_of_lt hvalue, Nat.shiftLeft_eq, Nat.mul_comm]

section
variable (q : Ppu) (x : Nat)

/-- The background is shown at column `x`. -/
def backgroundShown : Bool := q.mask.getLsbD 3 && (decide (8 ≤ x) || q.mask.getLsbD 1)

theorem backgroundLayer_value : (backgroundLayer q x).value.toNat =
    if backgroundShown q x then
      2 * (q.bgShiftHi.getLsbD (15 - q.fineX.toNat)).toNat + (q.bgShiftLo.getLsbD (15 - q.fineX.toNat)).toNat
    else 0 := by
  rw [backgroundLayer, ← backgroundShown]
  split
  · exact twoBits_toNat _ _
  · rfl

theorem backgroundLayer_opaque_iff : (backgroundLayer q x).value ≠ 0 ↔ backgroundShown q x = true ∧
    (q.bgShiftHi.getLsbD (15 - q.fineX.toNat) = true ∨ q.bgShiftLo.getLsbD (15 - q.fineX.toNat) = true) := by
  rw [backgroundLayer, ← backgroundShown]
  split
  next h => exact (twoBits_ne_zero_iff _ _).trans (iff_and_self.mpr fun _ => h)
  next h => exact ⟨fun hne => absurd rfl hne, fun hw => absurd hw.1 h⟩

theorem backgroundLayer_entry (h : (backgroundLayer q x).value.toNat ≠ 0) : (backgroundLayer q x).entry =
    4 * (2 * (q.atShiftHi.getLsbD (15 - q.fineX.toNat)).toNat + (q.atShiftLo.getLsbD (15 - q.fineX.toNat)).toNat) +
      (backgroundLayer q x).value.toNat := by
  have hshown : backgroundShown q x = true := by
    by_contra hoff
    rw [backgroundLayer_value, if_neg hoff] at h
    exact h rfl
  have hpalette : (backgroundLayer q x).palette.toNat =
      2 * (q.atShiftHi.getLsbD (15 - q.fineX.toNat)).toNat + (q.atShiftLo.getLsbD (15 - q.fineX.toNat)).toNat := by
    rw [backgroundLayer, ← backgroundShown, if_pos hshown, ← twoBits_toNat]
    exact BitVec.toNat_setWidth_of_le (by decide)
  rw [Layer.entry_eq, hpalette]

/-- The pattern value of unit `i` at column `x`. -/
def unitValue (i : Nat) : BitVec 2 :=
  twoBits ((q.spriteUnit i).patHi.getLsbD (7 - (x - (q.spriteUnit i).x.toNat)))
    ((q.spriteUnit i).patLo.getLsbD (7 - (x - (q.spriteUnit i).x.toNat)))

/-- Unit `i` shows an opaque pixel at column `x`. -/
def UnitShows (i : Nat) : Prop :=
  q.mask.getLsbD 4 = true ∧ (8 ≤ x ∨ q.mask.getLsbD 2 = true) ∧ i < q.lineSpriteCount ∧
    (q.spriteUnit i).x.toNat ≤ x ∧ x ≤ (q.spriteUnit i).x.toNat + 7 ∧ unitValue q x i ≠ 0

/-- What unit `i` hands to the sprite layer when it shows a pixel. -/
def unitPixel (i : Nat) : SpriteLayer :=
  ⟨⟨unitValue q x i, 4 + (field 0 2 (q.spriteUnit i).attr).setWidth 3⟩, (q.spriteUnit i).attr.getLsbD 5,
    decide (i = 0) && q.lineHasSprite0⟩

theorem unitPixel_entry (i : Nat) : (unitPixel q x i).layer.entry =
    4 * (4 + (q.spriteUnit i).attr.toNat % 4) + (unitValue q x i).toNat := by
  have hpalette : (4 + (field 0 2 (q.spriteUnit i).attr).setWidth 3 : BitVec 3).toNat =
      4 + (q.spriteUnit i).attr.toNat % 4 := by
    have hfield := lowField_toNat 2 (q.spriteUnit i).attr
    rw [BitVec.toNat_add, BitVec.toNat_setWidth, hfield]
    change (4 + (q.spriteUnit i).attr.toNat % 4 % 8) % 8 = _
    omega
  rw [Layer.entry_eq, ← hpalette]
  rfl

variable {q x}

theorem unitLayer_some {i : Nat} (h : UnitShows q x i) : unitLayer q x i = some (unitPixel q x i) := by
  obtain ⟨-, -, -, hleft, hright, hopaque⟩ := h
  exact (if_pos ⟨hleft, by omega⟩).trans (if_neg hopaque)

theorem unitLayer_eq_some {i : Nat} {sl : SpriteLayer} (h : unitLayer q x i = some sl) :
    sl = unitPixel q x i ∧ (q.spriteUnit i).x.toNat ≤ x ∧ x ≤ (q.spriteUnit i).x.toNat + 7 ∧
      unitValue q x i ≠ 0 := by
  rw [unitLayer] at h
  dsimp only at h
  split at h
  next hcolumn =>
    split at h
    next => cases h
    next hopaque => exact ⟨(Option.some.inj h).symm, hcolumn.1, by omega, hopaque⟩
  next => cases h

theorem spriteLayer_eq_some {sl : SpriteLayer} (h : spriteLayer q x = some sl) :
    ∃ i, UnitShows q x i ∧ sl = unitPixel q x i := by
  rw [spriteLayer] at h
  split at h
  next hon =>
    obtain ⟨i, hi, hunit⟩ := List.exists_of_findSome?_eq_some h
    obtain ⟨hpixel, hleft, hright, hopaque⟩ := unitLayer_eq_some hunit
    simp only [Bool.and_eq_true, Bool.or_eq_true, decide_eq_true_eq] at hon
    exact ⟨i, ⟨hon.1, hon.2, List.mem_range.mp hi, hleft, hright, hopaque⟩, hpixel⟩
  next => cases h

theorem spriteLayer_none (h : ∀ i, ¬ UnitShows q x i) : spriteLayer q x = none := by
  rw [Option.eq_none_iff_forall_ne_some]
  intro sl hsome
  obtain ⟨i, hshows, -⟩ := spriteLayer_eq_some hsome
  exact h i hshows

/-- The lowest unit that shows a pixel wins. -/
theorem spriteLayer_some {i : Nat} (h : UnitShows q x i) (hfirst : ∀ j, j < i → ¬ UnitShows q x j) :
    spriteLayer q x = some (unitPixel q x i) := by
  obtain ⟨hmask, hcolumn, hcount, -⟩ := id h
  have hon : (q.mask.getLsbD 4 && (decide (8 ≤ x) || q.mask.getLsbD 2)) = true := by
    simpa only [Bool.and_eq_true, Bool.or_eq_true, decide_eq_true_eq] using ⟨hmask, hcolumn⟩
  have hnone : (List.range i).findSome? (unitLayer q x) = none := by
    rw [List.findSome?_eq_none_iff]
    intro j hj
    have hj := List.mem_range.mp hj
    rw [Option.eq_none_iff_forall_ne_some]
    intro sl hunit
    obtain ⟨-, hleft, hright, hopaque⟩ := unitLayer_eq_some hunit
    exact hfirst j hj ⟨hmask, hcolumn, by omega, hleft, hright, hopaque⟩
  obtain ⟨k, hk⟩ := Nat.exists_eq_add_of_lt hcount
  rw [spriteLayer, if_pos hon, hk, Nat.add_assoc, List.range_add, List.findSome?_append, hnone, Option.none_or,
    List.range_succ_eq_map, List.map_cons, List.findSome?_cons, Nat.add_zero, unitLayer_some h]

/-- The hit (rule R179): sprite 0, if it is on the line, is unit 0, and no lower unit can hide it. -/
theorem sprite0Hit_iff (bg : Layer) : sprite0Hit bg (spriteLayer q x) x = true ↔
    bg.value ≠ 0 ∧ UnitShows q x 0 ∧ q.lineHasSprite0 = true ∧ x ≠ 255 := by
  constructor
  · intro h
    cases hlayer : spriteLayer q x with
    | none => rw [hlayer] at h; cases h
    | some sl =>
      obtain ⟨i, hshows, rfl⟩ := spriteLayer_eq_some hlayer
      rw [hlayer] at h
      simp only [sprite0Hit, unitPixel, Bool.and_eq_true, bne_iff_ne, decide_eq_true_eq] at h
      obtain ⟨⟨hbg, hi, hzero⟩, hx⟩ := h
      exact ⟨hbg, hi ▸ hshows, hzero, hx⟩
  · rintro ⟨hbg, hshows, hzero, hx⟩
    rw [spriteLayer_some hshows fun j hj => absurd hj (Nat.not_lt_zero j)]
    simp only [sprite0Hit, unitPixel, Bool.and_eq_true, bne_iff_ne, decide_eq_true_eq]
    exact ⟨⟨hbg, trivial, hzero⟩, hx⟩

end

/-! ### The dot of a pixel -/

theorem pixelPart_prepared {s : State} (hline : s.ppu.scanline ≤ 239) (hlo : 1 ≤ s.ppu.dot) (hhi : s.ppu.dot ≤ 256) :
    pixelPart (prepared s) = pixelDot (prepared s) := by
  refine pixelPart_active ?_ ?_ ?_
  all_goals
    rw [prepared_fields]
    assumption

section
variable {s : State} (hon : s.ppu.mask.getLsbD 3 = true ∨ s.ppu.mask.getLsbD 4 = true)
  (hline : s.ppu.scanline ≤ 239) (hlo : 1 ≤ s.ppu.dot) (hhi : s.ppu.dot ≤ 256)
include hon hline hlo hhi

theorem ppuStep_pixels : (ppuStep s).pixels = s.pixels ++ [⟨s.ppu.scanline, s.ppu.dot - 1, s.ppu.colourOut
    (pixelEntry (backgroundLayer s.ppu (s.ppu.dot - 1)) (spriteLayer s.ppu (s.ppu.dot - 1)))⟩] := by
  obtain ⟨-, -, -, -, -, hpixels⟩ := ppuStep_renderLine (s := s) (.inl hline)
  have hdot : (pixelDot (prepared s)).pixels = (emitPixel (prepared s) (pixelEntry
      (backgroundLayer (prepared s).ppu ((prepared s).ppu.dot - 1))
      (spriteLayer (prepared s).ppu ((prepared s).ppu.dot - 1)))).pixels := by
    unfold pixelDot
    dsimp only
    split <;> rfl
  rw [hpixels, if_pos ((rendering_iff _).mpr hon), pixelPart_prepared hline hlo hhi, hdot, prepared_fields]
  rfl

theorem ppuStep_spriteZeroFlag : (ppuStep s).ppu.status.getLsbD 6 = (s.ppu.status.getLsbD 6 ||
    sprite0Hit (backgroundLayer s.ppu (s.ppu.dot - 1)) (spriteLayer s.ppu (s.ppu.dot - 1)) (s.ppu.dot - 1)) := by
  obtain ⟨-, -, -, -, hstatus, -⟩ := ppuStep_renderLine (s := s) (.inl hline)
  have hbefore : (prepared s).ppu.status.getLsbD 6 = s.ppu.status.getLsbD 6 := by
    have hkept := spriteUnitDot_status s.ppu 6 (by decide)
    rw [prepared, flagEvents_idle (by omega) (by omega)]
    exact hkept
  have hdot : (pixelDot (prepared s)).ppu.status.getLsbD 6 = ((prepared s).ppu.status.getLsbD 6 || sprite0Hit
      (backgroundLayer (prepared s).ppu ((prepared s).ppu.dot - 1))
      (spriteLayer (prepared s).ppu ((prepared s).ppu.dot - 1)) ((prepared s).ppu.dot - 1)) := by
    unfold pixelDot
    dsimp only
    split
    next h =>
      rw [h, Bool.or_true]
      exact putBit_getLsbD 6 true _ 6
    next h => rw [Bool.eq_false_iff.mpr h, Bool.or_false]; rfl
  rw [hstatus, if_pos ((rendering_iff _).mpr hon), pixelPart_prepared hline hlo hhi, hdot, hbefore, prepared_fields]
  rfl

end

theorem unitShows_iff (q : Ppu) (x i : Nat) : UnitShows q x i ↔
    q.mask.getLsbD 4 = true ∧ (8 ≤ x ∨ q.mask.getLsbD 2 = true) ∧ i < q.lineSpriteCount ∧
      (q.spriteUnit i).x.toNat ≤ x ∧ x ≤ (q.spriteUnit i).x.toNat + 7 ∧ (unitValue q x i).toNat ≠ 0 := by
  rw [UnitShows, Ne, Ne, toNat_eq_zero_iff]

/-- Settles O57: the pixel is `ppuStep_pixels`; its entry is the background's or that of the lowest unit that shows. -/
theorem pixelOutputByLayers : Obligations.PixelOutputByLayers := by
  intro s hon hline hlo hhi q x b two bgOn bg bgEntry value shows out
  have hbg : (backgroundLayer q x).value.toNat = bg := backgroundLayer_value q x
  have hbgZero : (backgroundLayer q x).value = 0 ↔ bg = 0 := by rw [← toNat_eq_zero_iff, hbg]
  have hbgEntry (h : bg ≠ 0) : (backgroundLayer q x).entry = bgEntry := by
    rw [backgroundLayer_entry q x (hbg.trans_ne h), hbg]
  have hvalue (i : Nat) : (unitValue q x i).toNat = value i := twoBits_toNat _ _
  have hshows (i : Nat) : UnitShows q x i ↔ shows i := by rw [unitShows_iff, hvalue]
  have hout {entry : Nat} (h : pixelEntry (backgroundLayer q x) (spriteLayer q x) = entry) : out entry := by
    rw [← h]
    exact ppuStep_pixels hon hline hlo hhi
  refine ⟨fun hnone => hout ?none, fun i hi hfirst => hout ?some⟩
  case none =>
    rw [spriteLayer_none fun i hi => hnone i ((hshows i).mp hi), pixelEntry]
    by_cases h : bg = 0
    · rw [if_pos (hbgZero.mpr h), if_pos h]
    · rw [if_neg (mt hbgZero.mp h), if_neg h, hbgEntry h]
  case some =>
    rw [spriteLayer_some ((hshows i).mpr hi) fun j hj hj' => hfirst j hj ((hshows j).mp hj'), pixelEntry,
      unitPixel_entry, hvalue]
    by_cases h : bg = 0
    · rw [if_pos (hbgZero.mpr h), if_neg fun hw => hw.1 h]
    · rw [if_neg (mt hbgZero.mp h), hbgEntry h]
      by_cases hbehind : (q.spriteUnit i).attr.getLsbD 5 = true
      · exact (if_pos hbehind).trans (if_pos ⟨h, hbehind⟩).symm
      · exact (if_neg hbehind).trans (if_neg fun hw => hbehind hw.2).symm

/-- Settles O58: the dot ors `sprite0Hit` into the flag (`ppuStep_spriteZeroFlag`), and `sprite0Hit_iff` says when that
is. -/
theorem spriteZeroHitDot : Obligations.SpriteZeroHitDot := by
  intro s hon hline hlo hhi q x b u bg sp
  rw [ppuStep_spriteZeroFlag hon hline hlo hhi]
  congr 1
  rw [Bool.eq_iff_iff, sprite0Hit_iff, backgroundLayer_opaque_iff, UnitShows, unitValue, twoBits_ne_zero_iff]
  simp only [bg, sp, backgroundShown, Bool.and_eq_true, Bool.or_eq_true, decide_eq_true_eq]
  constructor
  · rintro ⟨hbg, ⟨hmask, hleft, hcount, hlo', hhi', hopaque⟩, hzero, hx⟩
    exact ⟨⟨hbg, ⟨⟨⟨⟨hmask, hleft⟩, hcount⟩, hzero⟩, hlo', hhi'⟩, hopaque⟩, hx⟩
  · rintro ⟨⟨hbg, ⟨⟨⟨⟨hmask, hleft⟩, hcount⟩, hzero⟩, hlo', hhi'⟩, hopaque⟩, hx⟩
    exact ⟨hbg, ⟨hmask, hleft, hcount, hlo', hhi', hopaque⟩, hzero, hx⟩

end Sys2Proof.Machine

/-! ## Reset and power-on (70_reset_and_hazards.md rules R202, R203) -/

namespace Sys2Proof.Machine

/-! ### A later reset -/

/-- Settles O60: the reset is `cpuReset_eq` and 21 dots, and the rest is what dots keep. -/
theorem warmResetKeepsMemoryAndPpu : Obligations.WarmResetKeepsMemoryAndPpu := by
  intro s hlegal
  have hcpu := clockDots_cpu 21 (cpuReset s)
  obtain ⟨hparams, hprg, hirq, -, hcycles, -⟩ := clockDots_keeps 21 (cpuReset s)
  obtain ⟨hram, hprgRam, hchr, hvram, hoam, hpalette⟩ := clockDots_memories 21 (cpuReset s)
  obtain ⟨hctrl, hmask, ht, hfineX, hw, hbuffer⟩ := clockDots_registers 21 (cpuReset s)
  have hposition := clockDots_position 21 (s := cpuReset s)
  have hsequence : resetSequence s = clockDots 21 (cpuReset s) := rfl
  rw [cpuReset_eq] at *
  rw [hsequence]
  exact ⟨rfl, hcpu, hposition hlegal.scanline hlegal.dot, hcycles, hram, hprg, hprgRam, hchr, hvram, hparams, hirq, hoam,
    hpalette, hctrl, hmask, ht, hfineX, hw, hbuffer⟩

/-! ### Power-on: the 21 dots of a PPU with nothing to show -/

/-- The PPU `n` dots after it was created (rule R37): nothing but the position has changed. -/
def Ppu.sincePowerOn (oam : Memory) (palette : Vector (BitVec 6) 32) (n : Nat) : Ppu :=
  { Ppu.powerOn oam palette with dot := n }

section
variable {oam : Memory} {palette : Vector (BitVec 6) 32} {n : Nat} {s : State}

/-- Clearing bytes that are $FF changes nothing. -/
theorem spriteUnitDot_sincePowerOn (hn : n ≤ 20) :
    spriteUnitDot (Ppu.sincePowerOn oam palette n) = Ppu.sincePowerOn oam palette n := by
  by_cases hclear : 1 ≤ n ∧ n ≤ 64
  · have hsame : (Vector.replicate 32 (0xFF : Byte)).setIfInBounds ((n - 1) / 2) 0xFF = Vector.replicate 32 0xFF := by
      ext i hi
      rw [Vector.getElem_setIfInBounds]
      split <;> simp
    have hclearSecondary : clearSecondary (Ppu.sincePowerOn oam palette n) =
        { Ppu.sincePowerOn oam palette n with
          secondaryOam := (Vector.replicate 32 (0xFF : Byte)).setIfInBounds ((n - 1) / 2) 0xFF
          spriteCount := if n = 1 then 0 else 0, sprite0Selected := if n = 1 then false else false } := rfl
    rw [hsame, ite_self, ite_self] at hclearSecondary
    exact (if_pos hclear).trans hclearSecondary
  · exact spriteUnitDot_idle hclear (by show n ≠ 256; omega)

theorem ppuStep_sincePowerOn (hs : s.ppu = Ppu.sincePowerOn oam palette n) (hn : n ≤ 20) :
    (ppuStep s).ppu = Ppu.sincePowerOn oam palette (n + 1) := by
  have hscanline : s.ppu.scanline = 0 := congrArg Ppu.scanline hs
  have hoff : s.ppu.rendering = false := by
    rw [hs]
    exact rendering_off BitVec.getLsbD_zero BitVec.getLsbD_zero
  have hevents : flagEvents s.ppu = s.ppu := flagEvents_idle (by omega) (by omega)
  have hprepared : (prepared s).ppu = s.ppu := by
    rw [prepared, State.setPpu_ppu, hevents, hs, spriteUnitDot_sincePowerOn hn]
  have hactions : (dotActions s).ppu = s.ppu := by
    rw [dotActions_renderLine (by omega), hoff, if_neg Bool.false_ne_true, blankDot_ppu,
      hprepared]
  have hadvance : endDot (Ppu.sincePowerOn oam palette n) = Ppu.sincePowerOn oam palette (n + 1) := by
    rw [endDot, advance, if_neg (by show n + 1 ≠ 341; omega)]
    rfl
  rw [ppuStep_eq, State.setPpu_ppu, hactions, hs, hadvance]

/-- A dot of these raises no NMI. -/
theorem clockDot_sincePowerOn (hs : s.ppu = Ppu.sincePowerOn oam palette n) (hn : n ≤ 20) :
    (clockDot s).ppu = Ppu.sincePowerOn oam palette (n + 1) ∧ (clockDot s).cpu = s.cpu := by
  have hline : (Ppu.sincePowerOn oam palette (n + 1)).nmiLine = false := rfl
  rw [clockDot_eq, ppuStep_sincePowerOn hs hn]
  dsimp only
  rw [hline, Bool.or_false]
  exact ⟨rfl, rfl⟩

end

theorem clockDots_sincePowerOn {oam : Memory} {palette : Vector (BitVec 6) 32} {n k : Nat} {s : State}
    (hs : s.ppu = Ppu.sincePowerOn oam palette n) (hn : n + k ≤ 21) :
    (clockDots k s).ppu = Ppu.sincePowerOn oam palette (n + k) ∧ (clockDots k s).cpu = s.cpu := by
  induction k generalizing n s with
  | zero => exact ⟨hs, rfl⟩
  | succ k ih =>
    obtain ⟨hppu, hcpu⟩ := clockDot_sincePowerOn hs (by omega)
    obtain ⟨hppu', hcpu'⟩ := ih hppu (by omega)
    rw [clockDots, hppu', hcpu', hcpu, Nat.add_assoc, Nat.add_comm 1]
    exact ⟨rfl, rfl⟩

/-- The reset sequence of a PPU just created: the CPU's reset, and 21 dots on. -/
theorem resetSequence_sincePowerOn {oam : Memory} {palette : Vector (BitVec 6) 32} {s : State}
    (hs : s.ppu = Ppu.sincePowerOn oam palette 0) :
    resetSequence s =
      { cpuReset s with ppu := Ppu.sincePowerOn oam palette 21, pixels := (resetSequence s).pixels } := by
  have hstart : (cpuReset s).ppu = Ppu.sincePowerOn oam palette 0 := by
    rw [cpuReset_eq]
    exact hs
  obtain ⟨hppu, hcpu⟩ := clockDots_sincePowerOn hstart (k := 21) (by decide)
  have hrest := clockDots_rest 21 (cpuReset s)
  rw [hppu, hcpu] at hrest
  exact hrest

/-- Settles O59: `cpu.reset()` sets the CPU (`cpuReset_eq`), and the 21 dots find a PPU without anything to do
(`resetSequence_sincePowerOn`); the word at $FFFC is the cartridge's, so it still reads the same. -/
theorem powerOnState : Obligations.PowerOnState := by
  intro q prg chr ramInit vramInit oamInit pal
  have hsequence := resetSequence_sincePowerOn (oam := oamInit) (palette := pal)
    (s := created q prg chr ramInit vramInit oamInit pal) rfl
  rw [cpuReset_eq] at hsequence
  rw [powerOn, hsequence]
  refine ⟨?_, rfl, rfl, rfl, rfl, rfl, rfl, rfl, rfl⟩
  exact congrArg (Cpu.mk q.resetA q.resetX q.resetY 0xFD · 0x24 false false)
    (vectorWord_congr (vec := 0xFFFC) (by decide) (by decide) rfl rfl)

end Sys2Proof.Machine
